-- ==== Sys2Proof/Word.lean ====
section
/-! DEFINITION. Sys2Proof/Word.lean: the sizes of things and their plainest types: bytes, instruction words,
Q32.32 halves, complex values and register numbers (spec 10_state.md, 30_encoding.md). -/

namespace Sys2Proof

/-- One byte, as an agent outside the core sees memory (R54, R55). -/
abbrev Byte := BitVec 8

/-- One instruction word, 128 bits, bit 0 the least significant (R8, R80). -/
abbrev Word := BitVec 128

/-- One half of a complex value: a signed 64-bit Q32.32 number (R24); its raw integer is `toInt`. -/
abbrev Half := BitVec 64

/-- A complex value: every scalar register, lane and bank element is one (R24). -/
structure Cplx where
  re : Half
  im : Half
deriving DecidableEq, Repr, Inhabited

/-- `ZERO` of R10. -/
def Cplx.zero : Cplx := ⟨0#64, 0#64⟩

/-- The number of a scalar register `s0..s7` (R20). -/
abbrev SReg := Fin 8

/-- The number of a vector register `v0..v7` (R33). -/
abbrev VReg := Fin 8

/-- The direction of a vector access, the `rc` bit: 0 a row, 1 a column (R60, R271). -/
inductive Dir where
  | row
  | col
deriving DecidableEq, Repr

end Sys2Proof
end

