-- ==== Sys2Proof/Config.lean ====
section
/-! DEFINITION. Sys2Proof/Config.lean: what an implementation fixes (the parameters of spec 00_scope.md R5 to R7
and 92_eei_decisions.md section E), the values they have in the reset state, and the free values: opaque
constants with no body, of which nothing can be proved. -/

namespace Sys2Proof

/-- `INT_ENC` (R131): how an integer result is written into a Q32.32 half. -/
inductive IntEnc where
  | value  -- the number n.0, raw n * 2^32 (the spec's default, D26)
  | raw    -- the raw integer n
deriving DecidableEq, Repr

/-- Which function `cdiv_fn`, `csqrt_fn` or `isqrt_fn` is (R128, R134, R135): the spec's reference value of it, or
the implementation's own function, of which only what the rule assumes is known. -/
inductive FnChoice where
  | reference
  | own
deriving DecidableEq, Repr

/-- `BANK_LAYOUT` (R58): the function that gives each element `(b, r, c)` the byte address at which the host finds it,
as plain data. -/
inductive BankLayout where
  /-- The recommended value: `BANK_BASE[b] + 16 * (r * SIDE + c)`. -/
  | rowMajor (base : Vector Nat 4)
  /-- Any other function, by its values: the address of `(b, r, c)` stands at position `(b * SIDE + r) * SIDE + c`. -/
  | table (addrs : List Nat)
deriving DecidableEq, Repr

/-- The parameters a machine is built with. They stand in `State` (R340: the start state contains them) and no
instruction changes them. -/
structure Params where
  /-- `VLEN`, the number of lanes of a vector register (R5). -/
  vlen : Nat
  /-- `N`, the bank size factor (R6). -/
  n : Nat
  /-- `INT_ENC` (R131). -/
  intEnc : IntEnc
  /-- `cdiv_fn` (R128). -/
  cdivFn : FnChoice
  /-- `csqrt_fn` (R134). -/
  csqrtFn : FnChoice
  /-- `isqrt_fn` (R135). -/
  isqrtFn : FnChoice
  /-- `BANK_LAYOUT` (R58); used by the host only. -/
  layout : BankLayout
deriving DecidableEq, Repr

/-- The bounds the spec sets: `VLEN >= 1` (R5), `N >= 2` (R6). -/
abbrev Params.wf (p : Params) : Prop := 1 ≤ p.vlen ∧ 2 ≤ p.n

/-- The parameters of the reset state. `INT_ENC` and the three functions have the spec's defaults (92 section E);
`VLEN = 2` and `N = 2`, the values of the spec's worked programs, are a DESIGN CHOICE (log 1), and so are the
`BANK_BASE`s of the recommended `BANK_LAYOUT`: bank after bank from address 0 (log 7). -/
def Config.params : Params :=
  ⟨2, 2, .value, .reference, .reference, .reference, .rowMajor #v[0, 256, 512, 768]⟩

/-- `ENTRY_PC` at its default (R341, D15). -/
def Config.entryPc : Int := 0

/-- FREE VALUE (log 9): the implementation's own complex division (R128), for a non-zero divisor. -/
opaque Config.ownCdiv : Cplx → Cplx → Cplx

/-- FREE VALUE (log 9): the implementation's own complex square root (R134). -/
opaque Config.ownCsqrt : Cplx → Cplx

/-- FREE VALUE (log 9): the implementation's own real square root of a magnitude (R135). -/
opaque Config.ownIsqrt : Nat → Nat

/-- FREE VALUE (log 32): the half written for an integer result that no 64-bit half can hold under `INT_ENC`
(an `iamax` index of 2^31 or more), for which R131 states no value. -/
opaque Config.freeIntHalf : Int → Half

end Sys2Proof
end

