-- ==== Sys2Proof/Machine/Arith.lean ====
section
/-! DEFINITION. Sys2Proof/Machine/Arith.lean: the arithmetic laws of spec 40_numerics.md, over the raw integers of the
halves. Exact complex operations give pairs of unbounded integers; one narrowing at the end brings them to halves. -/

namespace Sys2Proof.Machine

/-! ### Raw integers (R120) and narrowing (R122 to R124) -/

/-- The raw form of 1.0: `ONE = 2^32` (R120). -/
def rawOne : Int := 2 ^ 32

/-- `MAX = 2^63 - 1` (R120). -/
def rawMax : Int := 2 ^ 63 - 1

/-- `MIN = -2^63` (R120). -/
def rawMin : Int := -2 ^ 63

/-- `wrap64` (R122): the low 64 bits in two's complement. -/
def wrap64 (z : Int) : Half := BitVec.ofInt 64 z

/-- `sat64` (R122): pinned at the nearest end of the range. -/
def sat64 (z : Int) : Half :=
  if z < rawMin then wrap64 rawMin else if rawMax < z then wrap64 rawMax else wrap64 z

/-- The floor of the exact rational `num / den`, `den > 0` (R9). -/
def floorDiv (num den : Int) : Int := num / den

/-- `trunc` of the exact raw result `num / den` (R123): floor at the low end, wrap at the high end (log 17). -/
def trunc (num den : Int) : Half := wrap64 (floorDiv num den)

/-- `satn` of the exact raw result `num / den` (R124): floor at the low end, saturation at the high end. -/
def satn (num den : Int) : Half := sat64 (floorDiv num den)

/-! ### Exact complex results (R121, R126, R127) -/

/-- An exact complex result: two unbounded integers, numerators over a denominator the user of the pair names. -/
structure Exact where
  re : Int
  im : Int
deriving DecidableEq, Repr

/-- The raw integers of a complex value (R120). -/
def exact (a : Cplx) : Exact := ⟨a.re.toInt, a.im.toInt⟩

/-- Both halves through `trunc`, over the denominator `den` (R123). -/
def Exact.trunc (x : Exact) (den : Int) : Cplx := ⟨Machine.trunc x.re den, Machine.trunc x.im den⟩

/-- Both halves through `satn`, each on its own, over the denominator `den` (R124). -/
def Exact.satn (x : Exact) (den : Int) : Cplx := ⟨Machine.satn x.re den, Machine.satn x.im den⟩

/-- `xadd` (R126), denominator 1. -/
def xadd (a b : Cplx) : Exact := ⟨a.re.toInt + b.re.toInt, a.im.toInt + b.im.toInt⟩

/-- `xsub` (R126), denominator 1. -/
def xsub (a b : Cplx) : Exact := ⟨a.re.toInt - b.re.toInt, a.im.toInt - b.im.toInt⟩

/-- `xmul` (R127), denominator `2^32`. -/
def xmul (a b : Cplx) : Exact :=
  ⟨a.re.toInt * b.re.toInt - a.im.toInt * b.im.toInt, a.re.toInt * b.im.toInt + a.im.toInt * b.re.toInt⟩

/-- `xmulc`, the product with the first factor conjugated (R127), denominator `2^32`. -/
def xmulc (a b : Cplx) : Exact :=
  ⟨a.re.toInt * b.re.toInt + a.im.toInt * b.im.toInt, a.re.toInt * b.im.toInt - a.im.toInt * b.re.toInt⟩

/-- `mag2` (R130): the exact square of the magnitude. -/
def mag2 (a : Cplx) : Int := a.re.toInt * a.re.toInt + a.im.toInt * a.im.toInt

/-! ### Negation, conjugate, sum, difference, product -/

/-- `cneg_ref` (R129). -/
def cneg (a : Cplx) : Cplx := ⟨wrap64 (-a.re.toInt), wrap64 (-a.im.toInt)⟩

/-- `conj_ref` (R129). -/
def conj (a : Cplx) : Cplx := ⟨a.re, wrap64 (-a.im.toInt)⟩

/-- The wrapping sum of `cadd` (R160). -/
def cadd (a b : Cplx) : Cplx := (xadd a b).trunc 1

/-- The wrapping difference of `csub` (R161). -/
def csub (a b : Cplx) : Cplx := (xsub a b).trunc 1

/-- The wrapping product of `cmul`, `vmul` and `vsmul` (R162, R183, R223). -/
def cmul (a b : Cplx) : Cplx := (xmul a b).trunc (2 ^ 32)

/-- The saturating sum of `vadd`, `vsadd` and `cadd_i` (R181, R221, R243). -/
def caddSat (a b : Cplx) : Cplx := (xadd a b).satn 1

/-- The saturating difference of `vsub`, `vssub` and `csub_i` (R182, R222, R245). -/
def csubSat (a b : Cplx) : Cplx := (xsub a b).satn 1

/-- The saturating product of `cmul_i` (R244). -/
def cmulSat (a b : Cplx) : Cplx := (xmul a b).satn (2 ^ 32)

/-- `vmac` on one lane (R184): one `trunc` of the exact sum `d + a * b`. -/
def cmac (d a b : Cplx) : Cplx :=
  Exact.trunc ⟨d.re.toInt * 2 ^ 32 + (xmul a b).re, d.im.toInt * 2 ^ 32 + (xmul a b).im⟩ (2 ^ 32)

/-- `cscale_i` (R249): both halves of `a` times the raw real `c`. -/
def cscaleSat (a : Cplx) (c : Half) : Cplx :=
  Exact.satn ⟨a.re.toInt * c.toInt, a.im.toInt * c.toInt⟩ (2 ^ 32)

/-! ### Division (R128) -/

/-- `cdiv_ref` (R128): zero for a zero divisor, else the exact quotient, each half through one `trunc`. -/
def cdivRef (a b : Cplx) : Cplx :=
  if b = Cplx.zero then Cplx.zero
  else
    Exact.trunc
      ⟨2 ^ 32 * (a.re.toInt * b.re.toInt + a.im.toInt * b.im.toInt),
        2 ^ 32 * (a.im.toInt * b.re.toInt - a.re.toInt * b.im.toInt)⟩ (mag2 b)

/-- `cdiv_fn` (R128, log 9): the reference, or the implementation's own function, of which only
`cdiv_fn(a, ZERO) = ZERO` is known. -/
def cdivFn (p : Params) (a b : Cplx) : Cplx :=
  match p.cdivFn with
  | .reference => cdivRef a b
  | .own => if b = Cplx.zero then Cplx.zero else Config.ownCdiv a b

/-- The complex 1.0, the dividend of `crecip` (R159). -/
def cone : Cplx := ⟨wrap64 rawOne, 0#64⟩

/-! ### Roots (R134, R135) -/

/-- The integer square root, bit by bit: `r` so far, bits below `k` still to try. -/
def isqrtBits (n : Nat) : (k r : Nat) → Nat
  | 0, r => r
  | k + 1, r => isqrtBits n k (if (r + 2 ^ k) * (r + 2 ^ k) ≤ n then r + 2 ^ k else r)

/-- `isqrt_ref` (R135): the greatest `k` with `k * k <= n`. -/
def isqrtRef (n : Nat) : Nat := isqrtBits n (n.log2 / 2 + 1) 0

/-- The least `k` with `n <= k * k`: the root rounded up. -/
def isqrtCeil (n : Nat) : Nat := if isqrtRef n * isqrtRef n = n then isqrtRef n else isqrtRef n + 1

/-- `isqrt_fn` (R135, log 9). -/
def isqrtFn (p : Params) (n : Nat) : Nat :=
  match p.isqrtFn with
  | .reference => isqrtRef n
  | .own => Config.ownIsqrt n

/-- `csqrt_ref` (R134): the floors of `Wr = sqrt(2^31 (m + Ar))` and `Wi = sg sqrt(2^31 (m - Ar))` with
`m = sqrt(Ar^2 + Ai^2)`. DEDUCED (log 30): over integers, `floor(sqrt x) = isqrt(floor x)`, and a negative `Wi` has
the floor `-ceil(sqrt x)` with `ceil(sqrt x)` the rounded-up root of `ceil x`. -/
def csqrtRef (a : Cplx) : Cplx :=
  let m2 := (2 ^ 62 * mag2 a).toNat
  let lo : Int := isqrtRef m2
  let hi : Int := isqrtCeil m2
  let wr : Int := isqrtRef (lo + 2 ^ 31 * a.re.toInt).toNat
  let wi : Int :=
    if 0 ≤ a.im.toInt then isqrtRef (lo - 2 ^ 31 * a.re.toInt).toNat
    else -(isqrtCeil (hi - 2 ^ 31 * a.re.toInt).toNat : Int)
  ⟨wrap64 wr, wrap64 wi⟩

/-- `csqrt_fn` (R134, log 9). -/
def csqrtFn (p : Params) (a : Cplx) : Cplx :=
  match p.csqrtFn with
  | .reference => csqrtRef a
  | .own => Config.ownCsqrt a

/-- The magnitude root of `cabs` and of each lane of `asum`: `isqrt_fn(mag2(a))` (R156, R205). -/
def magRoot (p : Params) (a : Cplx) : Nat := isqrtFn p (mag2 a).toNat

/-! ### Magnitudes and parts -/

/-- `cabs2` (R155). -/
def cabs2 (a : Cplx) : Cplx := ⟨trunc (mag2 a) (2 ^ 32), 0#64⟩

/-- `cabs` (R156). -/
def cabs (p : Params) (a : Cplx) : Cplx := ⟨trunc (magRoot p a) 1, 0#64⟩

/-- `creal` (R157). -/
def creal (a : Cplx) : Cplx := ⟨a.re, 0#64⟩

/-- `cimag` (R158). -/
def cimag (a : Cplx) : Cplx := ⟨a.im, 0#64⟩

/-- `cmaxabs` (R164): ties pick `a`. -/
def cmaxabs (a b : Cplx) : Cplx := if mag2 a < mag2 b then b else a

/-- `cminabs` (R165): ties pick `a`. -/
def cminabs (a b : Cplx) : Cplx := if mag2 b < mag2 a then b else a

/-! ### Sums over lanes (R136) -/

/-- The exact sum of `f 0 .. f (n-1)`. -/
def sumTo (f : Nat → Int) : Nat → Int
  | 0 => 0
  | n + 1 => sumTo f n + f n

/-- The exact complex sum of `f 0 .. f (n-1)`. -/
def xsum (f : Nat → Exact) (n : Nat) : Exact := ⟨sumTo (fun k => (f k).re) n, sumTo (fun k => (f k).im) n⟩

/-- The least index below `n` whose value is greatest; 0 when `n` is 0 (R203). -/
def argmax (f : Nat → Int) : Nat → Nat
  | 0 => 0
  | n + 1 => if f (argmax f n) < f n then n else argmax f n

end Sys2Proof.Machine
end

