-- ==== Sys2Proof/Machine/Flags.lean ====
section
/-! DEFINITION. Sys2Proof/Machine/Flags.lean: the hardware has no flags and no condition codes (spec 10_state.md R25).
What stands in their place: the integers compares and `iamax` write into a register (R131), the three compares (R166
to R168) and the predicate test of `jrel` (R261). -/

namespace Sys2Proof.Machine

/-- The raw integer `int_enc(n)` (R131). -/
def intRaw (e : IntEnc) (n : Int) : Int :=
  match e with
  | .value => n * 2 ^ 32
  | .raw => n

/-- The half written for the integer `n` (R131); a free value where no half can hold it (log 32). -/
def intHalf (e : IntEnc) (n : Int) : Half :=
  if rawMin ≤ intRaw e n ∧ intRaw e n ≤ rawMax then wrap64 (intRaw e n) else Config.freeIntHalf (intRaw e n)

/-- An integer result: `(int_enc(n), 0)`. -/
def intResult (p : Params) (n : Int) : Cplx := ⟨intHalf p.intEnc n, 0#64⟩

/-- A truth value as a compare writes it: `(int_enc(1), 0)` or `(0, 0)` (R166 to R168). -/
def truth (p : Params) (b : Bool) : Cplx := if b then intResult p 1 else Cplx.zero

/-- `cmplt.re` (R166): signed, of the real halves. -/
def cmplt (p : Params) (a b : Cplx) : Cplx := truth p (decide (a.re.toInt < b.re.toInt))

/-- `cmpgt.re` (R167). -/
def cmpgt (p : Params) (a b : Cplx) : Cplx := truth p (decide (b.re.toInt < a.re.toInt))

/-- `cmple.re` (R168). -/
def cmple (p : Params) (a b : Cplx) : Cplx := truth p (decide (a.re.toInt ≤ b.re.toInt))

/-- The predicate of `jrel`: any of the 128 bits set (R261, log 21). -/
def predicateHolds (a : Cplx) : Bool := decide (a.re ≠ 0#64) || decide (a.im ≠ 0#64)

end Sys2Proof.Machine
end

