-- ==== Sys2Proof/Syntax.lean ====
section
/-! DEFINITION. Sys2Proof/Syntax.lean: the instructions, one constructor per row of spec/opcode_table.json, in the
table's order, with the operands of spec 30_encoding.md R100. -/

namespace Sys2Proof

/-- An instruction. Register operands are numbers; a family's format says which file they name (R95). The immediate
halves, the offset, the lane index and the coordinates are the fields of the word, kept at the field's width (R90
to R94). `mbid` keeps the three bits of its slot; 4 to 7 are ill formed (R87, `WellFormed`). -/
inductive Instr where
  -- R-type, mapping 00 (41_r_scalar.md)
  | cneg (rd rs1 : SReg)
  | conj (rd rs1 : SReg)
  | csqrt (rd rs1 : SReg)
  | cabs2 (rd rs1 : SReg)
  | cabs (rd rs1 : SReg)
  | creal (rd rs1 : SReg)
  | cimag (rd rs1 : SReg)
  | crecip (rd rs1 : SReg)
  | cadd (rd rs1 rs2 : SReg)
  | csub (rd rs1 rs2 : SReg)
  | cmul (rd rs1 rs2 : SReg)
  | cdiv (rd rs1 rs2 : SReg)
  | cmaxabs (rd rs1 rs2 : SReg)
  | cminabs (rd rs1 rs2 : SReg)
  | cmpltRe (rd rs1 rs2 : SReg)
  | cmpgtRe (rd rs1 rs2 : SReg)
  | cmpleRe (rd rs1 rs2 : SReg)
  -- R-type, mapping 01 (42_r_vector.md)
  | vadd (rd rs1 rs2 : VReg)
  | vsub (rd rs1 rs2 : VReg)
  | vmul (rd rs1 rs2 : VReg)
  | vmac (rd rs1 rs2 : VReg)
  | vdiv (rd rs1 rs2 : VReg)
  | vconj (rd rs1 : VReg)
  -- R-type, mapping 10 (43_r_reduce.md)
  | dotc (rd : SReg) (rs1 rs2 : VReg)
  | dotu (rd : SReg) (rs1 rs2 : VReg)
  | iamax (rd : SReg) (rs1 : VReg)
  | sum (rd : SReg) (rs1 : VReg)
  | asum (rd : SReg) (rs1 : VReg)
  -- R-type, mapping 11 (44_r_vecscalar.md)
  | vsadd (rd rs1 : VReg) (rs2 : SReg)
  | vssub (rd rs1 : VReg) (rs2 : SReg)
  | vsmul (rd rs1 : VReg) (rs2 : SReg)
  | vsdiv (rd rs1 : VReg) (rs2 : SReg)
  | vsload (rd : VReg) (rs2 : SReg) (idx : BitVec 16)
  -- I-type (45_i_immediate.md)
  | cloadi (rd : SReg) (re45 im45 : BitVec 45)
  | caddI (rd rs1 : SReg) (re45 im45 : BitVec 45)
  | cmulI (rd rs1 : SReg) (re45 im45 : BitVec 45)
  | csubI (rd rs1 : SReg) (re45 im45 : BitVec 45)
  | cdivI (rd rs1 : SReg) (re45 im45 : BitVec 45)
  | cmaxabsI (rd rs1 : SReg) (re45 im45 : BitVec 45)
  | cminabsI (rd rs1 : SReg) (re45 im45 : BitVec 45)
  | cscaleI (rd rs1 : SReg) (re45 : BitVec 45)
  -- J-type (46_j_jump.md)
  | jrel (offs33 : BitVec 33)
  -- S-type (47_s_matrix.md)
  | vld (rd : VReg) (mbid : BitVec 3) (rc : Dir) (idx16 len16 : BitVec 16)
  | vst (rs : VReg) (mbid : BitVec 3) (rc : Dir) (idx16 len16 : BitVec 16)
  | sldXy (rd : SReg) (mbid : BitVec 3) (x16 y16 : BitVec 16)
  | sstXy (rs : SReg) (mbid : BitVec 3) (x16 y16 : BitVec 16)
deriving DecidableEq, Repr

end Sys2Proof
end

