-- ==== Sys2Proof/WellFormed.lean ====
section
/-! DEFINITION. Sys2Proof/WellFormed.lean: which instructions have a legal word. The types of `Instr` already bound
every field; the one check left is the matrix bank number of the S-type (spec 30_encoding.md R87). -/

namespace Sys2Proof

/-- `mbid` is one of the four banks: legal values 0 to 3 (R50, R87, R93). -/
def bankOk (mbid : BitVec 3) : Bool := decide (mbid.toNat < 4)

/-- An instruction some legal word stands for. -/
def WellFormed : Instr → Bool
  | .vld _ mbid _ _ _ => bankOk mbid
  | .vst _ mbid _ _ _ => bankOk mbid
  | .sldXy _ mbid _ _ => bankOk mbid
  | .sstXy _ mbid _ _ => bankOk mbid
  | .cneg .. | .conj .. | .csqrt .. | .cabs2 .. | .cabs .. | .creal .. | .cimag .. | .crecip .. => true
  | .cadd .. | .csub .. | .cmul .. | .cdiv .. | .cmaxabs .. | .cminabs .. => true
  | .cmpltRe .. | .cmpgtRe .. | .cmpleRe .. => true
  | .vadd .. | .vsub .. | .vmul .. | .vmac .. | .vdiv .. | .vconj .. => true
  | .dotc .. | .dotu .. | .iamax .. | .sum .. | .asum .. => true
  | .vsadd .. | .vssub .. | .vsmul .. | .vsdiv .. | .vsload .. => true
  | .cloadi .. | .caddI .. | .cmulI .. | .csubI .. | .cdivI .. | .cmaxabsI .. | .cminabsI .. | .cscaleI .. => true
  | .jrel .. => true

end Sys2Proof
end

