-- ==== Sys2Proof/Decode.lean ====
section
/-! DEFINITION. Sys2Proof/Decode.lean: the decoder, total on any bytes, and after it the encoder, both from the
format tables of spec 30_encoding.md (R83 to R100); then spec/opcode_table.json's masks as data. The field positions
are the spec's reconstruction of lost figures (log 11). -/

namespace Sys2Proof

/-! ### Bytes of a word (R55: little-endian) -/

/-- Byte `j` of an instruction word, the byte at the `j`-th lowest address: `w[8j+7 : 8j]` (R55). -/
def wordByte (w : Word) (j : Nat) : Byte := w.extractLsb' (8 * j) 8

/-- The 16 bytes of a word, lowest address first (R55). -/
def wordBytes (w : Word) : List Byte := (List.range 16).map (wordByte w)

/-- The word whose byte `j` is `f j` (R55). -/
def wordOfBytes (f : Nat → Byte) : Word :=
  f 15 ++ f 14 ++ f 13 ++ f 12 ++ f 11 ++ f 10 ++ f 9 ++ f 8 ++
    (f 7 ++ f 6 ++ f 5 ++ f 4 ++ f 3 ++ f 2 ++ f 1 ++ f 0)

/-! ### Fields -/

/-- The common skeleton of all four formats (R83). -/
structure Fields where
  opcode : BitVec 8    -- [127:120]
  subop : BitVec 8     -- [119:112]
  flags : BitVec 16    -- [111:96]
  rd : BitVec 3        -- [95:93]
  rs1 : BitVec 3       -- [92:90]
  low : BitVec 90      -- [89:0], per format; its bit numbers are the word's
deriving DecidableEq, Repr

/-- Cuts a word into the skeleton's fields (R83). -/
def Fields.ofWord (w : Word) : Fields :=
  ⟨w.extractLsb' 120 8, w.extractLsb' 112 8, w.extractLsb' 96 16, w.extractLsb' 93 3, w.extractLsb' 90 3,
    w.extractLsb' 0 90⟩

/-- Joins the skeleton's fields (R83, R112). -/
def Fields.toWord (f : Fields) : Word :=
  f.opcode ++ f.subop ++ f.flags ++ f.rd ++ f.rs1 ++ f.low

/-- The register a 3-bit field names (R95). -/
def regOf (b : BitVec 3) : Fin 8 := b.toFin

/-- The 3-bit field of a register number (R95). -/
def regBits (r : Fin 8) : BitVec 3 := BitVec.ofFin r

/-- The direction the `rc` bit names: 0 row, 1 column (R271). -/
def dirOf (b : BitVec 1) : Dir := if b = 0#1 then .row else .col

/-- The `rc` bit of a direction. -/
def dirBit : Dir → BitVec 1
  | .row => 0#1
  | .col => 1#1

/-- `i` if every must-be-zero field holds zero, else no instruction (R107, R108). -/
def legalIf (zeros : Bool) (i : Instr) : Option Instr := if zeros then some i else none

/-! ### Decoding, per format -/

/-- Mapping 00 (R88, Table 2). `z2`: the `rs2` field is zero, which the unary rows ask for (R89). -/
def decode00 (subop : BitVec 8) (d a b : Fin 8) (z2 : Bool) : Option Instr :=
  match subop with
  | 0x00#8 => legalIf z2 (.cneg d a)
  | 0x01#8 => legalIf z2 (.conj d a)
  | 0x02#8 => legalIf z2 (.csqrt d a)
  | 0x03#8 => legalIf z2 (.cabs2 d a)
  | 0x04#8 => legalIf z2 (.cabs d a)
  | 0x05#8 => legalIf z2 (.creal d a)
  | 0x06#8 => legalIf z2 (.cimag d a)
  | 0x07#8 => legalIf z2 (.crecip d a)
  | 0x08#8 => some (.cadd d a b)
  | 0x09#8 => some (.csub d a b)
  | 0x0A#8 => some (.cmul d a b)
  | 0x0B#8 => some (.cdiv d a b)
  | 0x0C#8 => some (.cmaxabs d a b)
  | 0x0D#8 => some (.cminabs d a b)
  | 0x0E#8 => some (.cmpltRe d a b)
  | 0x0F#8 => some (.cmpgtRe d a b)
  | 0x10#8 => some (.cmpleRe d a b)
  | _ => none

/-- Mapping 01 (R88, Table 3). -/
def decode01 (subop : BitVec 8) (d a b : Fin 8) (z2 : Bool) : Option Instr :=
  match subop with
  | 0x00#8 => some (.vadd d a b)
  | 0x01#8 => some (.vsub d a b)
  | 0x02#8 => some (.vmul d a b)
  | 0x03#8 => some (.vmac d a b)
  | 0x04#8 => some (.vdiv d a b)
  | 0x05#8 => legalIf z2 (.vconj d a)
  | _ => none

/-- Mapping 10 (R88, Table 4). -/
def decode10 (subop : BitVec 8) (d a b : Fin 8) (z2 : Bool) : Option Instr :=
  match subop with
  | 0x00#8 => some (.dotc d a b)
  | 0x01#8 => some (.dotu d a b)
  | 0x02#8 => legalIf z2 (.iamax d a)
  | 0x03#8 => legalIf z2 (.sum d a)
  | 0x04#8 => legalIf z2 (.asum d a)
  | _ => none

/-- Mapping 11 (R88, Table 5, R225). `z1`: the `rs1` field is zero. -/
def decode11 (subop : BitVec 8) (d a b : Fin 8) (z1 : Bool) (imm : BitVec 16) : Option Instr :=
  match subop with
  | 0x18#8 => legalIf (imm == 0#16) (.vsadd d a b)
  | 0x19#8 => legalIf (imm == 0#16) (.vssub d a b)
  | 0x1A#8 => legalIf (imm == 0#16) (.vsmul d a b)
  | 0x1B#8 => legalIf (imm == 0#16) (.vsdiv d a b)
  | 0x1C#8 => legalIf z1 (.vsload d b imm)
  | _ => none

/-- R-type (R84): the selector is `flags[1:0]`; the other flags, `[70:0]` and, but for `vsload`, `imm16` must be
zero. -/
def decodeR (f : Fields) : Option Instr :=
  let d := regOf f.rd
  let a := regOf f.rs1
  let rs2 := f.low.extractLsb' 87 3
  let b := regOf rs2
  let imm := f.low.extractLsb' 71 16
  if f.flags.extractLsb' 2 14 == 0#14 && f.low.extractLsb' 0 71 == 0#71 then
    match f.flags.extractLsb' 0 2 with
    | 0#2 => if imm == 0#16 then decode00 f.subop d a b (rs2 == 0#3) else none
    | 1#2 => if imm == 0#16 then decode01 f.subop d a b (rs2 == 0#3) else none
    | 2#2 => if imm == 0#16 then decode10 f.subop d a b (rs2 == 0#3) else none
    | _ => decode11 f.subop d a b (f.rs1 == 0#3) imm
  else none

/-- I-type (R85): `flags16` must be zero, `rs1` too in `cloadi`, and the Im half in `cscale_i` (R91). -/
def decodeI (f : Fields) : Option Instr :=
  let d := regOf f.rd
  let a := regOf f.rs1
  let im := f.low.extractLsb' 45 45
  let re := f.low.extractLsb' 0 45
  if f.flags == 0#16 then
    match f.subop with
    | 0x00#8 => legalIf (f.rs1 == 0#3) (.cloadi d re im)
    | 0x01#8 => some (.caddI d a re im)
    | 0x02#8 => some (.cmulI d a re im)
    | 0x03#8 => some (.csubI d a re im)
    | 0x04#8 => some (.cdivI d a re im)
    | 0x05#8 => some (.cmaxabsI d a re im)
    | 0x06#8 => some (.cminabsI d a re im)
    | 0x10#8 => legalIf (im == 0#45) (.cscaleI d a re)
    | _ => none
  else none

/-- J-type (R86): `rs1` must be `001b`; `flags16`, the `rd` slot and `[56:0]` must be zero. -/
def decodeJ (f : Fields) : Option Instr :=
  match f.subop with
  | 0x00#8 =>
    legalIf (f.flags == 0#16 && f.rd == 0#3 && f.rs1 == 1#3 && f.low.extractLsb' 0 57 == 0#57)
      (.jrel (f.low.extractLsb' 57 33))
  | _ => none

/-- S-type (R87): `mbid` stands in the `rs1` slot and must be 0 to 3; bit 89, `[56:0]`, `[110:96]` and, in the scalar
forms, `rc` must be zero. -/
def decodeS (f : Fields) : Option Instr :=
  let r := regOf f.rd
  let rc := f.flags.extractLsb' 15 1
  let i16 := f.low.extractLsb' 73 16
  let j16 := f.low.extractLsb' 57 16
  if f.flags.extractLsb' 0 15 == 0#15 && bankOk f.rs1 && f.low.extractLsb' 89 1 == 0#1
      && f.low.extractLsb' 0 57 == 0#57 then
    match f.subop with
    | 0x00#8 => some (.vld r f.rs1 (dirOf rc) i16 j16)
    | 0x01#8 => some (.vst r f.rs1 (dirOf rc) i16 j16)
    | 0x02#8 => legalIf (rc == 0#1) (.sldXy r f.rs1 i16 j16)
    | 0x03#8 => legalIf (rc == 0#1) (.sstXy r f.rs1 i16 j16)
    | _ => none
  else none

/-- Decoding (R100, R108): the opcode selects the format; a word that is not legal decodes to none. -/
def decode (w : Word) : Option Instr :=
  let f := Fields.ofWord w
  match f.opcode with
  | 0x01#8 => decodeR f
  | 0x02#8 => decodeI f
  | 0x03#8 => decodeJ f
  | 0x04#8 => decodeS f
  | _ => none

/-- Decoding of bytes as they lie in memory: an instruction is 16 bytes (R80, R55), and the bytes after it are given
back. Fewer bytes hold no instruction. -/
def decodeBytes (bs : List Byte) : Option (Instr × List Byte) :=
  if bs.length < 16 then none
  else (decode (wordOfBytes fun j => bs.getD j 0#8)).map fun i => (i, bs.drop 16)

/-- The host's question: what the decoder reads from an instruction whose bits are `w`, all above `nbits` zero. -/
def decodeTableWord (nbits w : Nat) : Option Instr :=
  (decodeBytes (wordBytes (BitVec.ofNat 128 (w % 2 ^ nbits)))).map (·.1)

/-! ### Encoding (R112) -/

/-- The word of an R-type instruction (R84). -/
def encodeR (map : BitVec 2) (subop : BitVec 8) (d a b : Fin 8) (imm : BitVec 16) : Word :=
  Fields.toWord ⟨0x01#8, subop, 0#14 ++ map, regBits d, regBits a, regBits b ++ imm ++ 0#71⟩

/-- The word of an I-type instruction (R85): Im in `[89:45]`, Re in `[44:0]`. -/
def encodeI (subop : BitVec 8) (d a : Fin 8) (re im : BitVec 45) : Word :=
  Fields.toWord ⟨0x02#8, subop, 0#16, regBits d, regBits a, im ++ re⟩

/-- The word of `jrel` (R86). -/
def encodeJ (offs : BitVec 33) : Word :=
  Fields.toWord ⟨0x03#8, 0x00#8, 0#16, 0#3, 1#3, offs ++ 0#57⟩

/-- The word of an S-type instruction (R87). -/
def encodeS (subop : BitVec 8) (rc : BitVec 1) (r : Fin 8) (mbid : BitVec 3) (i16 j16 : BitVec 16) : Word :=
  Fields.toWord ⟨0x04#8, subop, rc ++ 0#15, regBits r, mbid, 0#1 ++ i16 ++ j16 ++ 0#57⟩

/-- The word of an instruction (R100, R112). -/
def encode : Instr → Word
  | .cneg d a => encodeR 0#2 0x00#8 d a 0 0#16
  | .conj d a => encodeR 0#2 0x01#8 d a 0 0#16
  | .csqrt d a => encodeR 0#2 0x02#8 d a 0 0#16
  | .cabs2 d a => encodeR 0#2 0x03#8 d a 0 0#16
  | .cabs d a => encodeR 0#2 0x04#8 d a 0 0#16
  | .creal d a => encodeR 0#2 0x05#8 d a 0 0#16
  | .cimag d a => encodeR 0#2 0x06#8 d a 0 0#16
  | .crecip d a => encodeR 0#2 0x07#8 d a 0 0#16
  | .cadd d a b => encodeR 0#2 0x08#8 d a b 0#16
  | .csub d a b => encodeR 0#2 0x09#8 d a b 0#16
  | .cmul d a b => encodeR 0#2 0x0A#8 d a b 0#16
  | .cdiv d a b => encodeR 0#2 0x0B#8 d a b 0#16
  | .cmaxabs d a b => encodeR 0#2 0x0C#8 d a b 0#16
  | .cminabs d a b => encodeR 0#2 0x0D#8 d a b 0#16
  | .cmpltRe d a b => encodeR 0#2 0x0E#8 d a b 0#16
  | .cmpgtRe d a b => encodeR 0#2 0x0F#8 d a b 0#16
  | .cmpleRe d a b => encodeR 0#2 0x10#8 d a b 0#16
  | .vadd d a b => encodeR 1#2 0x00#8 d a b 0#16
  | .vsub d a b => encodeR 1#2 0x01#8 d a b 0#16
  | .vmul d a b => encodeR 1#2 0x02#8 d a b 0#16
  | .vmac d a b => encodeR 1#2 0x03#8 d a b 0#16
  | .vdiv d a b => encodeR 1#2 0x04#8 d a b 0#16
  | .vconj d a => encodeR 1#2 0x05#8 d a 0 0#16
  | .dotc d a b => encodeR 2#2 0x00#8 d a b 0#16
  | .dotu d a b => encodeR 2#2 0x01#8 d a b 0#16
  | .iamax d a => encodeR 2#2 0x02#8 d a 0 0#16
  | .sum d a => encodeR 2#2 0x03#8 d a 0 0#16
  | .asum d a => encodeR 2#2 0x04#8 d a 0 0#16
  | .vsadd d a b => encodeR 3#2 0x18#8 d a b 0#16
  | .vssub d a b => encodeR 3#2 0x19#8 d a b 0#16
  | .vsmul d a b => encodeR 3#2 0x1A#8 d a b 0#16
  | .vsdiv d a b => encodeR 3#2 0x1B#8 d a b 0#16
  | .vsload d b i => encodeR 3#2 0x1C#8 d 0 b i
  | .cloadi d re im => encodeI 0x00#8 d 0 re im
  | .caddI d a re im => encodeI 0x01#8 d a re im
  | .cmulI d a re im => encodeI 0x02#8 d a re im
  | .csubI d a re im => encodeI 0x03#8 d a re im
  | .cdivI d a re im => encodeI 0x04#8 d a re im
  | .cmaxabsI d a re im => encodeI 0x05#8 d a re im
  | .cminabsI d a re im => encodeI 0x06#8 d a re im
  | .cscaleI d a re => encodeI 0x10#8 d a re 0#45
  | .jrel offs => encodeJ offs
  | .vld r m rc i l => encodeS 0x00#8 (dirBit rc) r m i l
  | .vst r m rc i l => encodeS 0x01#8 (dirBit rc) r m i l
  | .sldXy r m x y => encodeS 0x02#8 0#1 r m x y
  | .sstXy r m x y => encodeS 0x03#8 0#1 r m x y

/-! ### The opcode table (spec/opcode_table.json) as data

`decode` does not read it: it is the spec's other account of the same words (R108: a word is legal if and only if
some row has `(w AND mask) = match`). -/

/-- One row: its mnemonic, its mask and its match. -/
structure OpRow where
  mnemonic : String
  mask : Word
  pattern : Word
deriving DecidableEq, Repr

/-- The row matches the word (R108). -/
abbrev OpRow.hits (r : OpRow) (w : Word) : Prop := w &&& r.mask = r.pattern

/-- The rows of mapping 00. -/
def table00 : List OpRow :=
  [⟨"cneg", 0xFFFFFFFF03FFFFFFFFFFFFFFFFFFFFFF#128, 0x01000000000000000000000000000000#128⟩,
   ⟨"conj", 0xFFFFFFFF03FFFFFFFFFFFFFFFFFFFFFF#128, 0x01010000000000000000000000000000#128⟩,
   ⟨"csqrt", 0xFFFFFFFF03FFFFFFFFFFFFFFFFFFFFFF#128, 0x01020000000000000000000000000000#128⟩,
   ⟨"cabs2", 0xFFFFFFFF03FFFFFFFFFFFFFFFFFFFFFF#128, 0x01030000000000000000000000000000#128⟩,
   ⟨"cabs", 0xFFFFFFFF03FFFFFFFFFFFFFFFFFFFFFF#128, 0x01040000000000000000000000000000#128⟩,
   ⟨"creal", 0xFFFFFFFF03FFFFFFFFFFFFFFFFFFFFFF#128, 0x01050000000000000000000000000000#128⟩,
   ⟨"cimag", 0xFFFFFFFF03FFFFFFFFFFFFFFFFFFFFFF#128, 0x01060000000000000000000000000000#128⟩,
   ⟨"crecip", 0xFFFFFFFF03FFFFFFFFFFFFFFFFFFFFFF#128, 0x01070000000000000000000000000000#128⟩,
   ⟨"cadd", 0xFFFFFFFF007FFFFFFFFFFFFFFFFFFFFF#128, 0x01080000000000000000000000000000#128⟩,
   ⟨"csub", 0xFFFFFFFF007FFFFFFFFFFFFFFFFFFFFF#128, 0x01090000000000000000000000000000#128⟩,
   ⟨"cmul", 0xFFFFFFFF007FFFFFFFFFFFFFFFFFFFFF#128, 0x010A0000000000000000000000000000#128⟩,
   ⟨"cdiv", 0xFFFFFFFF007FFFFFFFFFFFFFFFFFFFFF#128, 0x010B0000000000000000000000000000#128⟩,
   ⟨"cmaxabs", 0xFFFFFFFF007FFFFFFFFFFFFFFFFFFFFF#128, 0x010C0000000000000000000000000000#128⟩,
   ⟨"cminabs", 0xFFFFFFFF007FFFFFFFFFFFFFFFFFFFFF#128, 0x010D0000000000000000000000000000#128⟩,
   ⟨"cmplt.re", 0xFFFFFFFF007FFFFFFFFFFFFFFFFFFFFF#128, 0x010E0000000000000000000000000000#128⟩,
   ⟨"cmpgt.re", 0xFFFFFFFF007FFFFFFFFFFFFFFFFFFFFF#128, 0x010F0000000000000000000000000000#128⟩,
   ⟨"cmple.re", 0xFFFFFFFF007FFFFFFFFFFFFFFFFFFFFF#128, 0x01100000000000000000000000000000#128⟩]

/-- The rows of mapping 01. -/
def table01 : List OpRow :=
  [⟨"vadd", 0xFFFFFFFF007FFFFFFFFFFFFFFFFFFFFF#128, 0x01000001000000000000000000000000#128⟩,
   ⟨"vsub", 0xFFFFFFFF007FFFFFFFFFFFFFFFFFFFFF#128, 0x01010001000000000000000000000000#128⟩,
   ⟨"vmul", 0xFFFFFFFF007FFFFFFFFFFFFFFFFFFFFF#128, 0x01020001000000000000000000000000#128⟩,
   ⟨"vmac", 0xFFFFFFFF007FFFFFFFFFFFFFFFFFFFFF#128, 0x01030001000000000000000000000000#128⟩,
   ⟨"vdiv", 0xFFFFFFFF007FFFFFFFFFFFFFFFFFFFFF#128, 0x01040001000000000000000000000000#128⟩,
   ⟨"vconj", 0xFFFFFFFF03FFFFFFFFFFFFFFFFFFFFFF#128, 0x01050001000000000000000000000000#128⟩]

/-- The rows of mapping 10. -/
def table10 : List OpRow :=
  [⟨"dotc", 0xFFFFFFFF007FFFFFFFFFFFFFFFFFFFFF#128, 0x01000002000000000000000000000000#128⟩,
   ⟨"dotu", 0xFFFFFFFF007FFFFFFFFFFFFFFFFFFFFF#128, 0x01010002000000000000000000000000#128⟩,
   ⟨"iamax", 0xFFFFFFFF03FFFFFFFFFFFFFFFFFFFFFF#128, 0x01020002000000000000000000000000#128⟩,
   ⟨"sum", 0xFFFFFFFF03FFFFFFFFFFFFFFFFFFFFFF#128, 0x01030002000000000000000000000000#128⟩,
   ⟨"asum", 0xFFFFFFFF03FFFFFFFFFFFFFFFFFFFFFF#128, 0x01040002000000000000000000000000#128⟩]

/-- The rows of mapping 11. -/
def table11 : List OpRow :=
  [⟨"vsadd", 0xFFFFFFFF007FFFFFFFFFFFFFFFFFFFFF#128, 0x01180003000000000000000000000000#128⟩,
   ⟨"vssub", 0xFFFFFFFF007FFFFFFFFFFFFFFFFFFFFF#128, 0x01190003000000000000000000000000#128⟩,
   ⟨"vsmul", 0xFFFFFFFF007FFFFFFFFFFFFFFFFFFFFF#128, 0x011A0003000000000000000000000000#128⟩,
   ⟨"vsdiv", 0xFFFFFFFF007FFFFFFFFFFFFFFFFFFFFF#128, 0x011B0003000000000000000000000000#128⟩,
   ⟨"vsload", 0xFFFFFFFF1C00007FFFFFFFFFFFFFFFFF#128, 0x011C0003000000000000000000000000#128⟩]

/-- The rows of the I-type. -/
def tableI : List OpRow :=
  [⟨"cloadi", 0xFFFFFFFF1C0000000000000000000000#128, 0x02000000000000000000000000000000#128⟩,
   ⟨"cadd_i", 0xFFFFFFFF000000000000000000000000#128, 0x02010000000000000000000000000000#128⟩,
   ⟨"cmul_i", 0xFFFFFFFF000000000000000000000000#128, 0x02020000000000000000000000000000#128⟩,
   ⟨"csub_i", 0xFFFFFFFF000000000000000000000000#128, 0x02030000000000000000000000000000#128⟩,
   ⟨"cdiv_i", 0xFFFFFFFF000000000000000000000000#128, 0x02040000000000000000000000000000#128⟩,
   ⟨"cmaxabs_i", 0xFFFFFFFF000000000000000000000000#128, 0x02050000000000000000000000000000#128⟩,
   ⟨"cminabs_i", 0xFFFFFFFF000000000000000000000000#128, 0x02060000000000000000000000000000#128⟩,
   ⟨"cscale_i", 0xFFFFFFFF03FFFFFFFFFFE00000000000#128, 0x02100000000000000000000000000000#128⟩]

/-- The rows of the J-type and the S-type. -/
def tableJS : List OpRow :=
  [⟨"jrel", 0xFFFFFFFFFC00000001FFFFFFFFFFFFFF#128, 0x03000000040000000000000000000000#128⟩,
   ⟨"vld", 0xFFFF7FFF1200000001FFFFFFFFFFFFFF#128, 0x04000000000000000000000000000000#128⟩,
   ⟨"vst", 0xFFFF7FFF1200000001FFFFFFFFFFFFFF#128, 0x04010000000000000000000000000000#128⟩,
   ⟨"sld.xy", 0xFFFFFFFF1200000001FFFFFFFFFFFFFF#128, 0x04020000000000000000000000000000#128⟩,
   ⟨"sst.xy", 0xFFFFFFFF1200000001FFFFFFFFFFFFFF#128, 0x04030000000000000000000000000000#128⟩]

/-- The 46 rows, in the table's order (R100). -/
def opcodeTable : List OpRow := table00 ++ table01 ++ table10 ++ table11 ++ tableI ++ tableJS

end Sys2Proof
end

