-- ==== Sys2Proof/Machine/State.lean ====
section
/-! DEFINITION. Sys2Proof/Machine/State.lean: all the state the spec gives the machine (10_state.md, 60_exceptions.md
R301 and R304, 70_reset_and_hazards.md R340), the reasons a step can stop, and the state after reset. -/

namespace Sys2Proof.Machine

/-- A place that can be read while it holds no value (R29): what `UninitializedRead` records (R301). -/
inductive Place where
  | scalar (r : SReg)
  | lane (r : VReg) (k : Nat)
  | element (b r c : Nat)  -- bank, row, column
deriving DecidableEq, Repr

/-- The faults of R301, each with the information it records beside the pc. -/
inductive FaultCause where
  /-- No instruction word at `pc`, and `pc` is not the end-of-run value (R345). Raised by the fetch. -/
  | fetchFault
  /-- The word is not legal (R108). Raised by the decoding of any word. -/
  | illegalInstruction (w : Word)
  /-- `len16 > VLEN`. Raised by `vld` and `vst` (R272, R274). -/
  | vectorLengthFault (len : Nat)
  /-- Lane index `>= VLEN`. Raised by `vsload` (R226). -/
  | laneIndexFault (i : Nat)
  /-- A row or column number `>= SIDE`. Raised by the S-type (R52, R53). -/
  | outOfBounds (mbid r c : Nat)
  /-- A place that holds no value is read (R29). -/
  | uninitializedRead (what : Place)
deriving DecidableEq, Repr

/-- The record of a fault: the `pc` of the faulting instruction and the cause (R301, R304). -/
structure FaultRecord where
  pc : Int
  cause : FaultCause
deriving DecidableEq, Repr

/-- What a scalar register or a lane holds: a complex value, or `none`, the spec's own state "no value" of R29 (no
start state supplied one and nothing has written it, or a short `vld` has taken it away, R30). -/
abbrev Reg := Option Cplx

/-- DESIGN CHOICE (log 3, log 4). What a register or lane holds right after reset, for which the spec gives no value. -/
def Reg.reset : Reg := some Cplx.zero

/-- The machine's state. -/
structure State where
  /-- The parameters; no instruction changes them (R340, log 1). -/
  params : Params
  /-- `PROG`, the instruction store, read by fetch alone (R63, R342). -/
  prog : List Word
  /-- The program counter, in instruction words, unbounded (R26). -/
  pc : Int
  /-- `s0..s7` (R20). What stands at 0 is never read and never written: `s0` is hard-wired (R22). -/
  sregs : Vector Reg 8
  /-- `v0..v7`, each its lanes from lane 0 on (R33). What stands at 0 is never read and never written (R23). -/
  vregs : Vector (List Reg) 8
  /-- The four banks, as the bytes of their elements (R50, R54), each at the number of its cell: bank, row, column and
  byte, counted in this order (`elemCell`, log 7). No agent sees these numbers: a program names elements by their
  coordinates, and the host by the addresses of `BANK_LAYOUT` (`hostRead`). A byte not listed holds no value. -/
  mem : List Host.Cell
  /-- The fault record; some record is the faulted state (R304). -/
  fault : Option FaultRecord
deriving DecidableEq, Repr

/-- Why a step of the machine stops: there is no further step (R15, R304, R345). Faults of the program do not stand
here: taking one is a next state whose `fault` holds the record. -/
inductive Fault where
  /-- Raised by `step` in the faulted state, which is terminal (R304, R307). Safe: the spec gives no step. -/
  | faulted
  /-- Raised by `step` when `pc = len(PROG)`: the run is over (R345). Safe: the spec gives no step. -/
  | runOver
deriving DecidableEq, Repr

/-- Why the model gives an instruction no meaning. -/
inductive Refusal where
  /-- Raised by an arm of `exec` whose instruction has no meaning yet; no arm does. Safe: nothing can be proved. -/
  | notModelled (mnemonic : String)
deriving DecidableEq, Repr

/-- The state right after reset (R32, R340, R341): the parameters of `Config.params`, no program, `pc = ENTRY_PC` at its
default, zero in every register and lane (log 2, log 3, log 4), no bank element with a value, no fault. -/
def State.reset : State where
  params := Config.params
  prog := []
  pc := Config.entryPc
  sregs := Vector.replicate 8 Reg.reset
  vregs := Vector.replicate 8 (List.replicate Config.params.vlen Reg.reset)
  mem := []
  fault := none

end Sys2Proof.Machine
end

