-- ==== Sys2Proof/Machine/Ops.lean ====
section
/-! DEFINITION. Sys2Proof/Machine/Ops.lean: the named operations over registers, matrix banks, the program counter and
the instruction store, and the taking of a fault (spec 00_scope.md R11 to R15, 20_memory.md, 60_exceptions.md). An
operation that can raise a fault answers `Except FaultCause`; it changes no state then (R13). -/

namespace Sys2Proof.Machine

/-- What an operation answers: a value, or the fault it raises. -/
abbrev Res (α : Type) := Except FaultCause α

/-- The outcome of a step. -/
abbrev Out := Host.Outcome State Fault Refusal

/-! ### Taking a fault (R304) -/

/-- Taking a fault: the record holds the pc and the cause; nothing else changes (R13, R301, R304). The machine is
then in the faulted state, which no step leaves: there is no return from a fault (R307). -/
def takeFault (c : FaultCause) (s : State) : Out := .next { s with fault := some ⟨s.pc, c⟩ }

/-- The end of an instruction: the state it computed, or the fault it raised, taken in the state it started in
(R13, R305). -/
def commit (s : State) : Res State → Out
  | .ok t => .next t
  | .error c => takeFault c s

/-- The first fault among `f 0 .. f (n-1)`, in rising order (R303). -/
def firstError {α : Type} (f : Nat → Res α) : Nat → Option FaultCause
  | 0 => none
  | n + 1 =>
    match firstError f n with
    | some e => some e
    | none =>
      match f n with
      | .error e => some e
      | .ok _ => none

/-! ### The program counter (R14, R26, R27) -/

/-- `pc <- pc + 1` (R27). -/
def nextPc (s : State) : State := { s with pc := s.pc + 1 }

/-- `pc <- pc + off` (R92, R261). -/
def jumpBy (off : Int) (s : State) : State := { s with pc := s.pc + off }

/-! ### Reading a place (R29) -/

/-- Reading a place yields what it holds; where it holds no value it raises `UninitializedRead` (R29, R301). -/
def readPlace (what : Place) : Option Cplx → Res Cplx
  | some c => .ok c
  | none => .error (.uninitializedRead what)

/-! ### Scalar registers (R11, R20, R22) -/

/-- What `s[r]` holds: zero in `s0`, always (R22, R29). -/
def sAt (s : State) (r : SReg) : Reg := if r = 0 then some Cplx.zero else s.sregs[r]

/-- `s[r]` holds a value (R29). -/
def sValued (s : State) (r : SReg) : Bool := (sAt s r).isSome

/-- The value `s[r]` holds; of no meaning where it holds none. -/
def sVal (s : State) (r : SReg) : Cplx := (sAt s r).getD Cplx.zero

/-- Reading `s[r]` (R11). -/
def readS (s : State) (r : SReg) : Res Cplx := readPlace (.scalar r) (sAt s r)

/-- `s[r] <- c`; a write to `s0` is discarded (R11, R22). -/
def writeS (s : State) (r : SReg) (c : Cplx) : State :=
  { s with sregs := if r = 0 then s.sregs else s.sregs.set r (some c) }

/-! ### Vector registers (R11, R33, R23, R30) -/

/-- What `v[r][k]` holds: zero in every lane of `v0`, always (R23, R29, R30). -/
def laneAt (s : State) (r : VReg) (k : Nat) : Reg := if r = 0 then some Cplx.zero else s.vregs[r].getD k none

/-- `v[r][k]` holds a value (R29, R30). -/
def laneValued (s : State) (r : VReg) (k : Nat) : Bool := (laneAt s r k).isSome

/-- The value `v[r][k]` holds; of no meaning where it holds none. -/
def laneVal (s : State) (r : VReg) (k : Nat) : Cplx := (laneAt s r k).getD Cplx.zero

/-- Reading one lane (R11). -/
def readLane (s : State) (r : VReg) (k : Nat) : Res Cplx := readPlace (.lane r k) (laneAt s r k)

/-- Reading lanes `0 .. n-1` of `v[r]` in rising order: the first without a value raises (R180, R274). -/
def readLanes (s : State) (r : VReg) (n : Nat) : Res (Nat → Cplx) :=
  match firstError (readLane s r) n with
  | some e => .error e
  | none => .ok (laneVal s r)

/-- Reading every lane of `v[r]` (R33). -/
def readV (s : State) (r : VReg) : Res (Nat → Cplx) := readLanes s r s.params.vlen

/-- Puts `f k` into lane `k` of `v[r]` for every lane; a write to `v0` is discarded (R23). -/
def setLanes (s : State) (r : VReg) (f : Nat → Reg) : State :=
  { s with vregs := if r = 0 then s.vregs else s.vregs.set r ((List.range s.params.vlen).map f) }

/-- `v[r] <- f`: every lane gets a value (R11, R30). -/
def writeV (s : State) (r : VReg) (f : Nat → Cplx) : State := setLanes s r fun k => some (f k)

/-- `v[r][i] <- c`: the other lanes keep what they had, with or without a value (R30, R226). -/
def writeLane (s : State) (r : VReg) (i : Nat) (c : Cplx) : State :=
  setLanes s r fun k => if k = i then some c else laneAt s r k

/-- `vld`'s write: lanes `0 .. n-1` get the values loaded, and the value of every other lane is taken away (R30, R272,
log 8). -/
def writePrefix (s : State) (r : VReg) (n : Nat) (f : Nat → Cplx) : State :=
  setLanes s r fun k => if k < n then some (f k) else none

/-! ### Memory as bytes: the one canonical form (log 7)

Cells in strictly rising order of their addresses. An unlisted byte holds no value, so no entry can equal what an
unlisted address reads as. -/

/-- The form holds: addresses strictly rising. -/
abbrev Memory.wf (m : List Host.Cell) : Prop := m.Pairwise fun x y => x.1 < y.1

/-- The byte at `a`; none where nothing has written it. -/
def Memory.lookup : List Host.Cell → Nat → Option Byte
  | [], _ => none
  | (k, b) :: m, a => if k = a then some b else Memory.lookup m a

/-- Writes the byte `b` at `a`. -/
def Memory.store : List Host.Cell → Nat → Byte → List Host.Cell
  | [], a, b => [(a, b)]
  | (k, c) :: m, a, b =>
    if a < k then (a, b) :: (k, c) :: m
    else if a = k then (a, b) :: m
    else (k, c) :: Memory.store m a b

/-- Writes `f 0 .. f (n-1)` at the addresses from `a` on. -/
def Memory.storeBytes (m : List Host.Cell) (a : Nat) (f : Nat → Byte) : Nat → List Host.Cell
  | 0 => m
  | n + 1 => Memory.store (Memory.storeBytes m a f n) (a + n) (f n)

/-! ### Elements: byte order and cells (R54) -/

/-- Bytes of one element (R54). -/
def elementBytes : Nat := 16

/-- Byte `j` of an element: Re at the lower address, each half little-endian (R54). -/
def elementByte (c : Cplx) (j : Nat) : Byte :=
  if j < 8 then c.re.extractLsb' (8 * j) 8 else c.im.extractLsb' (8 * (j - 8)) 8

/-- The half whose byte `j` is `f j` (R54). -/
def halfOfBytes (f : Nat → Byte) : Half := f 7 ++ f 6 ++ f 5 ++ f 4 ++ f 3 ++ f 2 ++ f 1 ++ f 0

/-- `SIDE = N * VLEN` (R6). -/
def side (p : Params) : Nat := p.n * p.vlen

/-- The first of the sixteen cells of `BANK[b][r][c]`: the coordinate space of R50, numbered (log 7). -/
def elemCell (p : Params) (b r c : Nat) : Nat := elementBytes * ((b * side p + r) * side p + c)

/-- The number of cells of the four banks (R50). -/
def memoryEnd (p : Params) : Nat := elemCell p 4 0 0

/-- The element whose bytes begin at `a`, where all of them are there (R29, R51, R54). -/
def Memory.elemAt (m : List Host.Cell) (a : Nat) : Option Cplx :=
  if (List.range elementBytes).all fun j => (Memory.lookup m (a + j)).isSome then
    some ⟨halfOfBytes fun j => (Memory.lookup m (a + j)).getD 0#8,
      halfOfBytes fun j => (Memory.lookup m (a + 8 + j)).getD 0#8⟩
  else none

/-- Replaces the element whose bytes begin at `a` (R53, R54). -/
def Memory.storeElem (m : List Host.Cell) (a : Nat) (c : Cplx) : List Host.Cell :=
  Memory.storeBytes m a (elementByte c) elementBytes

/-! ### The matrix banks (R52, R53) -/

/-- What `BANK[b][r][c]` holds: a value, or none (R29). -/
def elemAt (s : State) (b r c : Nat) : Option Cplx := Memory.elemAt s.mem (elemCell s.params b r c)

/-- `BANK[b][r][c]` holds a value (R29). -/
def elemValued (s : State) (b r c : Nat) : Bool := (elemAt s b r c).isSome

/-- The value `BANK[b][r][c]` holds; of no meaning where it holds none. -/
def elemVal (s : State) (b r c : Nat) : Cplx := (elemAt s b r c).getD Cplx.zero

/-- `(r, c)` lies in a bank (R52). -/
def inBounds (p : Params) (r c : Nat) : Bool := decide (r < side p) && decide (c < side p)

/-- `MemRead(b, r, c)` (R52). -/
def memRead (s : State) (b r c : Nat) : Res Cplx :=
  if inBounds s.params r c then readPlace (.element b r c) (elemAt s b r c)
  else .error (.outOfBounds b r c)

/-- `BANK[b][r][c] <- val` (R53). -/
def setElem (s : State) (b r c : Nat) (val : Cplx) : State :=
  { s with mem := Memory.storeElem s.mem (elemCell s.params b r c) val }

/-- `MemWrite(b, r, c, val)` (R53). -/
def memWrite (s : State) (b r c : Nat) (val : Cplx) : Res State :=
  if inBounds s.params r c then .ok (setElem s b r c val) else .error (.outOfBounds b r c)

/-- `MemRead` of the elements `e 0 .. e (n-1)` of bank `b`, in rising order (R272). -/
def memReadSeq (s : State) (b : Nat) (e : Nat → Nat × Nat) (n : Nat) : Res (Nat → Cplx) :=
  match firstError (fun k => memRead s b (e k).1 (e k).2) n with
  | some err => .error err
  | none => .ok fun k => elemVal s b (e k).1 (e k).2

/-- `BANK[b][e k] <- t k` for `k = 0 .. n-1`. -/
def setElems (s : State) (b : Nat) (e : Nat → Nat × Nat) (t : Nat → Cplx) : Nat → State
  | 0 => s
  | n + 1 => setElem (setElems s b e t n) b (e n).1 (e n).2 (t n)

/-- `MemWrite` of `t k` to the element `e k` of bank `b`, for `k = 0 .. n-1`; nothing is written where one of them is
out of bounds (R274, R305). -/
def memWriteSeq (s : State) (b : Nat) (e : Nat → Nat × Nat) (t : Nat → Cplx) (n : Nat) : Res State :=
  match firstError (fun k => memWrite s b (e k).1 (e k).2 (t k)) n with
  | some err => .error err
  | none => .ok (setElems s b e t n)

/-! ### Fetch (R15, R63, R345) -/

/-- Why there is no step from this state: it is faulted (R304), or the run is over (R345). -/
def stopReason (s : State) : Option Fault :=
  if s.fault.isSome then some .faulted
  else if s.pc = s.prog.length then some .runOver
  else none

/-- The word `PROG[pc]`, or `FetchFault` (R15, R345). -/
def fetchWord (s : State) : Res Word :=
  if s.pc < 0 then .error .fetchFault
  else
    match s.prog[s.pc.toNat]? with
    | some w => .ok w
    | none => .error .fetchFault

/-- Fetch and decode: the instruction at `pc`, or `FetchFault` or `IllegalInstruction` (R15, R108). The word is read
as its 16 little-endian bytes (R55, R342). -/
def fetchInstr (s : State) : Res Instr :=
  match fetchWord s with
  | .error e => .error e
  | .ok w =>
    match decodeBytes (wordBytes w) with
    | some (i, _) => .ok i
    | none => .error (.illegalInstruction w)

/-- Places `w` where the next step fetches, and makes that step possible: no fault recorded, `pc` not negative, and
`PROG` long enough (the host's load, R344, log 14). -/
def placeWord (s : State) (w : Word) : State :=
  let at' := s.pc.toNat
  { s with
    fault := none
    pc := at'
    prog := (s.prog ++ List.replicate (at' + 1 - s.prog.length) 0#128).set at' w }

end Sys2Proof.Machine
end

