-- ==== Sys2Proof/Machine/Operands.lean ====
section
/-! DEFINITION. Sys2Proof/Machine/Operands.lean: the operand forms (spec 30_encoding.md R90 to R94, 47_s_matrix.md R271,
R276) and the shapes instructions of one family share: which operands are read, in which order, and what is written. -/

namespace Sys2Proof.Machine

/-! ### Immediates and numbers in the word -/

/-- One half of an I-type immediate in raw Q32.32: `sext_45(field) << 9` (R90, R241). -/
def immHalf (f : BitVec 45) : Half := wrap64 (f.toInt * 2 ^ 9)

/-- `cIMM` (R90, R241). -/
def imm (re45 im45 : BitVec 45) : Cplx := ⟨immHalf re45, immHalf im45⟩

/-- The length of a vector access: `len16`, or `VLEN` where it is 0 (R93, R271). -/
def accessLen (p : Params) (len16 : BitVec 16) : Nat := if len16 = 0#16 then p.vlen else len16.toNat

/-- The element `E(k)` of a vector access, as (row, column) (R60, R271). -/
def accessElem (rc : Dir) (idx16 : BitVec 16) (k : Nat) : Nat × Nat :=
  match rc with
  | .row => (idx16.toNat, k)
  | .col => (k, idx16.toNat)

/-! ### The shapes of the R-type and I-type -/

/-- `s[rd] <- f (s[rs1])` (R151). -/
def scalarUnary (f : Params → Cplx → Cplx) (rd rs1 : SReg) (s : State) : Out :=
  commit s do
    let a ← readS s rs1
    .ok (nextPc (writeS s rd (f s.params a)))

/-- `s[rd] <- f (s[rs1]) (s[rs2])`, `rs1` read before `rs2` (R151). -/
def scalarBinary (f : Params → Cplx → Cplx → Cplx) (rd rs1 rs2 : SReg) (s : State) : Out :=
  commit s do
    let a ← readS s rs1
    let b ← readS s rs2
    .ok (nextPc (writeS s rd (f s.params a b)))

/-- `v[rd][k] <- f (v[rs1][k])` for every lane (R180). -/
def laneUnary (f : Params → Cplx → Cplx) (rd rs1 : VReg) (s : State) : Out :=
  commit s do
    let a ← readV s rs1
    .ok (nextPc (writeV s rd fun k => f s.params (a k)))

/-- `v[rd][k] <- f (v[rs1][k]) (v[rs2][k])` for every lane (R180). -/
def laneBinary (f : Params → Cplx → Cplx → Cplx) (rd rs1 rs2 : VReg) (s : State) : Out :=
  commit s do
    let a ← readV s rs1
    let b ← readV s rs2
    .ok (nextPc (writeV s rd fun k => f s.params (a k) (b k)))

/-- `v[rd][k] <- f (v[rd][k]) (v[rs1][k]) (v[rs2][k])` for every lane: the destination is a source too, read last
(R180). -/
def laneTernary (f : Cplx → Cplx → Cplx → Cplx) (rd rs1 rs2 : VReg) (s : State) : Out :=
  commit s do
    let a ← readV s rs1
    let b ← readV s rs2
    let d ← readV s rd
    .ok (nextPc (writeV s rd fun k => f (d k) (a k) (b k)))

/-- `s[rd] <- f (lanes of v[rs1])` (R200). -/
def reduceUnary (f : Params → (Nat → Cplx) → Cplx) (rd : SReg) (rs1 : VReg) (s : State) : Out :=
  commit s do
    let a ← readV s rs1
    .ok (nextPc (writeS s rd (f s.params a)))

/-- `s[rd] <- f (lanes of v[rs1]) (lanes of v[rs2])` (R200). -/
def reduceBinary (f : Params → (Nat → Cplx) → (Nat → Cplx) → Cplx) (rd : SReg) (rs1 rs2 : VReg) (s : State) : Out :=
  commit s do
    let a ← readV s rs1
    let b ← readV s rs2
    .ok (nextPc (writeS s rd (f s.params a b)))

/-- `v[rd][k] <- f (v[rs1][k]) (s[rs2])` for every lane, the vector read first (R220). -/
def broadcast (f : Params → Cplx → Cplx → Cplx) (rd rs1 : VReg) (rs2 : SReg) (s : State) : Out :=
  commit s do
    let a ← readV s rs1
    let b ← readS s rs2
    .ok (nextPc (writeV s rd fun k => f s.params (a k) b))

/-- `s[rd] <- f (s[rs1]) c`, the constant `c` carried in the word (R240). -/
def scalarImm (f : Params → Cplx → Cplx → Cplx) (rd rs1 : SReg) (c : Cplx) (s : State) : Out :=
  scalarUnary (fun p a => f p a c) rd rs1 s

/-! ### The checks of the S-type -/

/-- The bank number, or `IllegalInstruction` for the ill-formed numbers 4 to 7, which no legal word holds (R108,
R301, log 28). -/
def bankOf (i : Instr) (mbid : BitVec 3) : Res Nat :=
  if bankOk mbid then .ok mbid.toNat else .error (.illegalInstruction (encode i))

/-- The field checks of `vld` and `vst`, in the order of R303: the length, then the fixed coordinate (R272, R274). -/
def checkAccess (p : Params) (b : Nat) (rc : Dir) (idx16 len16 : BitVec 16) : Res Nat :=
  if p.vlen < accessLen p len16 then .error (.vectorLengthFault (accessLen p len16))
  else if side p ≤ idx16.toNat then
    .error (.outOfBounds b (accessElem rc idx16 0).1 (accessElem rc idx16 0).2)
  else .ok (accessLen p len16)

end Sys2Proof.Machine
end

