-- ==== Sys2Proof/Machine/Immediate.lean ====
section
/-! DEFINITION. Sys2Proof/Machine/Immediate.lean: the eight I-type instructions (spec 45_i_immediate.md). -/

namespace Sys2Proof.Machine

/-- `cloadi` (R242): no register is read. -/
def execCloadi (rd : SReg) (re45 im45 : BitVec 45) (s : State) : Out :=
  commit s (.ok (nextPc (writeS s rd (imm re45 im45))))

/-- `cadd_i` (R243): saturates per half. -/
def execCaddI (rd rs1 : SReg) (re45 im45 : BitVec 45) (s : State) : Out :=
  scalarImm (fun _ => caddSat) rd rs1 (imm re45 im45) s

/-- `cmul_i` (R244): saturates per half. -/
def execCmulI (rd rs1 : SReg) (re45 im45 : BitVec 45) (s : State) : Out :=
  scalarImm (fun _ => cmulSat) rd rs1 (imm re45 im45) s

/-- `csub_i` (R245): the register is the minuend; saturates per half. -/
def execCsubI (rd rs1 : SReg) (re45 im45 : BitVec 45) (s : State) : Out :=
  scalarImm (fun _ => csubSat) rd rs1 (imm re45 im45) s

/-- `cdiv_i` (R246). -/
def execCdivI (rd rs1 : SReg) (re45 im45 : BitVec 45) (s : State) : Out :=
  scalarImm cdivFn rd rs1 (imm re45 im45) s

/-- `cmaxabs_i` (R247): ties pick the register. -/
def execCmaxabsI (rd rs1 : SReg) (re45 im45 : BitVec 45) (s : State) : Out :=
  scalarImm (fun _ => cmaxabs) rd rs1 (imm re45 im45) s

/-- `cminabs_i` (R248): ties pick the register. -/
def execCminabsI (rd rs1 : SReg) (re45 im45 : BitVec 45) (s : State) : Out :=
  scalarImm (fun _ => cminabs) rd rs1 (imm re45 im45) s

/-- `cscale_i` (R249): both halves times the real immediate, saturating per half. -/
def execCscaleI (rd rs1 : SReg) (re45 : BitVec 45) (s : State) : Out :=
  scalarUnary (fun _ a => cscaleSat a (immHalf re45)) rd rs1 s

end Sys2Proof.Machine
end

