-- ==== Sys2Proof/Machine/Jump.lean ====
section
/-! DEFINITION. Sys2Proof/Machine/Jump.lean: the one J-type instruction (spec 46_j_jump.md). -/

namespace Sys2Proof.Machine

/-- `jrel` (R261): taken if any bit of `s1` is set, from the number of the `jrel` itself. A target outside the
program is found by the next fetch. -/
def execJrel (offs33 : BitVec 33) (s : State) : Out :=
  commit s do
    let p ← readS s 1
    .ok (if predicateHolds p then jumpBy offs33.toInt s else nextPc s)

end Sys2Proof.Machine
end

