-- ==== Sys2Proof/Machine/Lanes.lean ====
section
/-! DEFINITION. Sys2Proof/Machine/Lanes.lean: the six R-type lane-wise vector instructions (spec 42_r_vector.md). -/

namespace Sys2Proof.Machine

/-- `vadd` (R181): saturates per half. -/
def execVadd (rd rs1 rs2 : VReg) (s : State) : Out := laneBinary (fun _ => caddSat) rd rs1 rs2 s

/-- `vsub` (R182): saturates per half. -/
def execVsub (rd rs1 rs2 : VReg) (s : State) : Out := laneBinary (fun _ => csubSat) rd rs1 rs2 s

/-- `vmul` (R183): exact, then `trunc`. -/
def execVmul (rd rs1 rs2 : VReg) (s : State) : Out := laneBinary (fun _ => cmul) rd rs1 rs2 s

/-- `vmac` (R184): the destination is the accumulator. -/
def execVmac (rd rs1 rs2 : VReg) (s : State) : Out := laneTernary cmac rd rs1 rs2 s

/-- `vdiv` (R185): zero for a lane whose divisor is zero. -/
def execVdiv (rd rs1 rs2 : VReg) (s : State) : Out := laneBinary cdivFn rd rs1 rs2 s

/-- `vconj` (R186). -/
def execVconj (rd rs1 : VReg) (s : State) : Out := laneUnary (fun _ => conj) rd rs1 s

end Sys2Proof.Machine
end

