-- ==== Sys2Proof/Machine/Matrix.lean ====
section
/-! DEFINITION. Sys2Proof/Machine/Matrix.lean: the four S-type instructions, the only ones that reach the banks (spec
47_s_matrix.md). Every check and read comes before the first write, so a fault leaves nothing done (R305). -/

namespace Sys2Proof.Machine

/-- `vld` (R272): length check, bounds check, the reads in rising order, then the write. -/
def execVld (rd : VReg) (mbid : BitVec 3) (rc : Dir) (idx16 len16 : BitVec 16) (s : State) : Out :=
  commit s do
    let b ← bankOf (.vld rd mbid rc idx16 len16) mbid
    let n ← checkAccess s.params b rc idx16 len16
    let t ← memReadSeq s b (accessElem rc idx16) n
    .ok (nextPc (writePrefix s rd n t))

/-- `vst` (R274): length check, bounds check, the lanes read in rising order, then the writes. -/
def execVst (rs : VReg) (mbid : BitVec 3) (rc : Dir) (idx16 len16 : BitVec 16) (s : State) : Out :=
  commit s do
    let b ← bankOf (.vst rs mbid rc idx16 len16) mbid
    let n ← checkAccess s.params b rc idx16 len16
    let t ← readLanes s rs n
    let s' ← memWriteSeq s b (accessElem rc idx16) t n
    .ok (nextPc s')

/-- `sld.xy` (R277): row `y16`, column `x16` (R276). -/
def execSldXy (rd : SReg) (mbid : BitVec 3) (x16 y16 : BitVec 16) (s : State) : Out :=
  commit s do
    let b ← bankOf (.sldXy rd mbid x16 y16) mbid
    let c ← memRead s b y16.toNat x16.toNat
    .ok (nextPc (writeS s rd c))

/-- `sst.xy` (R278): the bounds are checked before the register is read. -/
def execSstXy (rs : SReg) (mbid : BitVec 3) (x16 y16 : BitVec 16) (s : State) : Out :=
  commit s do
    let b ← bankOf (.sstXy rs mbid x16 y16) mbid
    if inBounds s.params y16.toNat x16.toNat then
      let c ← readS s rs
      let s' ← memWrite s b y16.toNat x16.toNat c
      .ok (nextPc s')
    else .error (.outOfBounds b y16.toNat x16.toNat)

end Sys2Proof.Machine
end

