-- ==== Sys2Proof/Machine/Reduce.lean ====
section
/-! DEFINITION. Sys2Proof/Machine/Reduce.lean: the five R-type reductions (spec 43_r_reduce.md). Terms are added
exactly and the total is narrowed once (R136). -/

namespace Sys2Proof.Machine

/-- The result of `dotc` (R201): the first factor is the conjugated one. -/
def dotcResult (p : Params) (a b : Nat → Cplx) : Cplx := (xsum (fun k => xmulc (a k) (b k)) p.vlen).trunc (2 ^ 32)

/-- The result of `dotu` (R202). -/
def dotuResult (p : Params) (a b : Nat → Cplx) : Cplx := (xsum (fun k => xmul (a k) (b k)) p.vlen).trunc (2 ^ 32)

/-- The result of `iamax` (R203): the least index of greatest exact magnitude. -/
def iamaxResult (p : Params) (a : Nat → Cplx) : Cplx := intResult p (argmax (fun k => mag2 (a k)) p.vlen)

/-- The result of `sum` (R204). -/
def sumResult (p : Params) (a : Nat → Cplx) : Cplx := (xsum (fun k => exact (a k)) p.vlen).trunc 1

/-- The result of `asum` (R205): the sum of the lanes' magnitude roots. -/
def asumResult (p : Params) (a : Nat → Cplx) : Cplx :=
  ⟨trunc (sumTo (fun k => (magRoot p (a k) : Int)) p.vlen) 1, 0#64⟩

/-- `dotc` (R201). -/
def execDotc (rd : SReg) (rs1 rs2 : VReg) (s : State) : Out := reduceBinary dotcResult rd rs1 rs2 s

/-- `dotu` (R202). -/
def execDotu (rd : SReg) (rs1 rs2 : VReg) (s : State) : Out := reduceBinary dotuResult rd rs1 rs2 s

/-- `iamax` (R203). -/
def execIamax (rd : SReg) (rs1 : VReg) (s : State) : Out := reduceUnary iamaxResult rd rs1 s

/-- `sum` (R204). -/
def execSum (rd : SReg) (rs1 : VReg) (s : State) : Out := reduceUnary sumResult rd rs1 s

/-- `asum` (R205). -/
def execAsum (rd : SReg) (rs1 : VReg) (s : State) : Out := reduceUnary asumResult rd rs1 s

end Sys2Proof.Machine
end

