-- ==== Sys2Proof/Machine/Scalar.lean ====
section
/-! DEFINITION. Sys2Proof/Machine/Scalar.lean: the seventeen R-type scalar instructions (spec 41_r_scalar.md). -/

namespace Sys2Proof.Machine

/-- `cneg` (R152). -/
def execCneg (rd rs1 : SReg) (s : State) : Out := scalarUnary (fun _ => cneg) rd rs1 s

/-- `conj` (R153). -/
def execConj (rd rs1 : SReg) (s : State) : Out := scalarUnary (fun _ => conj) rd rs1 s

/-- `csqrt` (R154). -/
def execCsqrt (rd rs1 : SReg) (s : State) : Out := scalarUnary csqrtFn rd rs1 s

/-- `cabs2` (R155). -/
def execCabs2 (rd rs1 : SReg) (s : State) : Out := scalarUnary (fun _ => cabs2) rd rs1 s

/-- `cabs` (R156). -/
def execCabs (rd rs1 : SReg) (s : State) : Out := scalarUnary cabs rd rs1 s

/-- `creal` (R157). -/
def execCreal (rd rs1 : SReg) (s : State) : Out := scalarUnary (fun _ => creal) rd rs1 s

/-- `cimag` (R158). -/
def execCimag (rd rs1 : SReg) (s : State) : Out := scalarUnary (fun _ => cimag) rd rs1 s

/-- `crecip` (R159): `cdiv_fn((ONE, 0), a)`. -/
def execCrecip (rd rs1 : SReg) (s : State) : Out := scalarUnary (fun p a => cdivFn p cone a) rd rs1 s

/-- `cadd` (R160). -/
def execCadd (rd rs1 rs2 : SReg) (s : State) : Out := scalarBinary (fun _ => cadd) rd rs1 rs2 s

/-- `csub` (R161). -/
def execCsub (rd rs1 rs2 : SReg) (s : State) : Out := scalarBinary (fun _ => csub) rd rs1 rs2 s

/-- `cmul` (R162). -/
def execCmul (rd rs1 rs2 : SReg) (s : State) : Out := scalarBinary (fun _ => cmul) rd rs1 rs2 s

/-- `cdiv` (R163). -/
def execCdiv (rd rs1 rs2 : SReg) (s : State) : Out := scalarBinary cdivFn rd rs1 rs2 s

/-- `cmaxabs` (R164). -/
def execCmaxabs (rd rs1 rs2 : SReg) (s : State) : Out := scalarBinary (fun _ => cmaxabs) rd rs1 rs2 s

/-- `cminabs` (R165). -/
def execCminabs (rd rs1 rs2 : SReg) (s : State) : Out := scalarBinary (fun _ => cminabs) rd rs1 rs2 s

/-- `cmplt.re` (R166). -/
def execCmpltRe (rd rs1 rs2 : SReg) (s : State) : Out := scalarBinary cmplt rd rs1 rs2 s

/-- `cmpgt.re` (R167). -/
def execCmpgtRe (rd rs1 rs2 : SReg) (s : State) : Out := scalarBinary cmpgt rd rs1 rs2 s

/-- `cmple.re` (R168). -/
def execCmpleRe (rd rs1 rs2 : SReg) (s : State) : Out := scalarBinary cmple rd rs1 rs2 s

end Sys2Proof.Machine
end

