-- ==== Sys2Proof/Machine/VecScalar.lean ====
section
/-! DEFINITION. Sys2Proof/Machine/VecScalar.lean: the four R-type broadcast instructions and `vsload` (spec
44_r_vecscalar.md). -/

namespace Sys2Proof.Machine

/-- `vsadd` (R221): saturates per half. -/
def execVsadd (rd rs1 : VReg) (rs2 : SReg) (s : State) : Out := broadcast (fun _ => caddSat) rd rs1 rs2 s

/-- `vssub` (R222): vector minus scalar, saturates per half. -/
def execVssub (rd rs1 : VReg) (rs2 : SReg) (s : State) : Out := broadcast (fun _ => csubSat) rd rs1 rs2 s

/-- `vsmul` (R223). -/
def execVsmul (rd rs1 : VReg) (rs2 : SReg) (s : State) : Out := broadcast (fun _ => cmul) rd rs1 rs2 s

/-- `vsdiv` (R224). -/
def execVsdiv (rd rs1 : VReg) (rs2 : SReg) (s : State) : Out := broadcast cdivFn rd rs1 rs2 s

/-- `vsload` (R226): the index is checked before the scalar is read. -/
def execVsload (rd : VReg) (rs2 : SReg) (idx : BitVec 16) (s : State) : Out :=
  commit s do
    if s.params.vlen ≤ idx.toNat then .error (.laneIndexFault idx.toNat)
    else
      let c ← readS s rs2
      .ok (nextPc (writeLane s rd idx.toNat c))

end Sys2Proof.Machine
end

