-- ==== Sys2Proof/Machine/Dispatch.lean ====
section
/-! DEFINITION. Sys2Proof/Machine/Dispatch.lean: one arm per constructor of Instr, each one direct call of that
instruction's meaning (spec 30_encoding.md R100). -/

namespace Sys2Proof.Machine

def exec (i : Instr) (s : State) : Host.Outcome State Fault Refusal :=
  match i with
  | .cneg rd rs1 => Sys2Proof.Machine.execCneg rd rs1 s
  | .conj rd rs1 => Sys2Proof.Machine.execConj rd rs1 s
  | .csqrt rd rs1 => Sys2Proof.Machine.execCsqrt rd rs1 s
  | .cabs2 rd rs1 => Sys2Proof.Machine.execCabs2 rd rs1 s
  | .cabs rd rs1 => Sys2Proof.Machine.execCabs rd rs1 s
  | .creal rd rs1 => Sys2Proof.Machine.execCreal rd rs1 s
  | .cimag rd rs1 => Sys2Proof.Machine.execCimag rd rs1 s
  | .crecip rd rs1 => Sys2Proof.Machine.execCrecip rd rs1 s
  | .cadd rd rs1 rs2 => Sys2Proof.Machine.execCadd rd rs1 rs2 s
  | .csub rd rs1 rs2 => Sys2Proof.Machine.execCsub rd rs1 rs2 s
  | .cmul rd rs1 rs2 => Sys2Proof.Machine.execCmul rd rs1 rs2 s
  | .cdiv rd rs1 rs2 => Sys2Proof.Machine.execCdiv rd rs1 rs2 s
  | .cmaxabs rd rs1 rs2 => Sys2Proof.Machine.execCmaxabs rd rs1 rs2 s
  | .cminabs rd rs1 rs2 => Sys2Proof.Machine.execCminabs rd rs1 rs2 s
  | .cmpltRe rd rs1 rs2 => Sys2Proof.Machine.execCmpltRe rd rs1 rs2 s
  | .cmpgtRe rd rs1 rs2 => Sys2Proof.Machine.execCmpgtRe rd rs1 rs2 s
  | .cmpleRe rd rs1 rs2 => Sys2Proof.Machine.execCmpleRe rd rs1 rs2 s
  | .vadd rd rs1 rs2 => Sys2Proof.Machine.execVadd rd rs1 rs2 s
  | .vsub rd rs1 rs2 => Sys2Proof.Machine.execVsub rd rs1 rs2 s
  | .vmul rd rs1 rs2 => Sys2Proof.Machine.execVmul rd rs1 rs2 s
  | .vmac rd rs1 rs2 => Sys2Proof.Machine.execVmac rd rs1 rs2 s
  | .vdiv rd rs1 rs2 => Sys2Proof.Machine.execVdiv rd rs1 rs2 s
  | .vconj rd rs1 => Sys2Proof.Machine.execVconj rd rs1 s
  | .dotc rd rs1 rs2 => Sys2Proof.Machine.execDotc rd rs1 rs2 s
  | .dotu rd rs1 rs2 => Sys2Proof.Machine.execDotu rd rs1 rs2 s
  | .iamax rd rs1 => Sys2Proof.Machine.execIamax rd rs1 s
  | .sum rd rs1 => Sys2Proof.Machine.execSum rd rs1 s
  | .asum rd rs1 => Sys2Proof.Machine.execAsum rd rs1 s
  | .vsadd rd rs1 rs2 => Sys2Proof.Machine.execVsadd rd rs1 rs2 s
  | .vssub rd rs1 rs2 => Sys2Proof.Machine.execVssub rd rs1 rs2 s
  | .vsmul rd rs1 rs2 => Sys2Proof.Machine.execVsmul rd rs1 rs2 s
  | .vsdiv rd rs1 rs2 => Sys2Proof.Machine.execVsdiv rd rs1 rs2 s
  | .vsload rd rs2 idx => Sys2Proof.Machine.execVsload rd rs2 idx s
  | .cloadi rd re45 im45 => Sys2Proof.Machine.execCloadi rd re45 im45 s
  | .caddI rd rs1 re45 im45 => Sys2Proof.Machine.execCaddI rd rs1 re45 im45 s
  | .cmulI rd rs1 re45 im45 => Sys2Proof.Machine.execCmulI rd rs1 re45 im45 s
  | .csubI rd rs1 re45 im45 => Sys2Proof.Machine.execCsubI rd rs1 re45 im45 s
  | .cdivI rd rs1 re45 im45 => Sys2Proof.Machine.execCdivI rd rs1 re45 im45 s
  | .cmaxabsI rd rs1 re45 im45 => Sys2Proof.Machine.execCmaxabsI rd rs1 re45 im45 s
  | .cminabsI rd rs1 re45 im45 => Sys2Proof.Machine.execCminabsI rd rs1 re45 im45 s
  | .cscaleI rd rs1 re45 => Sys2Proof.Machine.execCscaleI rd rs1 re45 s
  | .jrel offs33 => Sys2Proof.Machine.execJrel offs33 s
  | .vld rd mbid rc idx16 len16 => Sys2Proof.Machine.execVld rd mbid rc idx16 len16 s
  | .vst rs mbid rc idx16 len16 => Sys2Proof.Machine.execVst rs mbid rc idx16 len16 s
  | .sldXy rd mbid x16 y16 => Sys2Proof.Machine.execSldXy rd mbid x16 y16 s
  | .sstXy rs mbid x16 y16 => Sys2Proof.Machine.execSstXy rs mbid x16 y16 s

end Sys2Proof.Machine
end

