-- ==== Sys2Proof/Machine/Step.lean ====
section
/-! DEFINITION. Sys2Proof/Machine/Step.lean: one step of the machine (spec 00_scope.md R15): the end check, the fetch,
the decoding, and the instruction's meaning. -/

namespace Sys2Proof.Machine

/-- One step (R15). No step exists in the faulted state and at the end of the run; a word that cannot be fetched or
decoded raises its fault, which is taken (R301, R304). -/
def step (s : State) : Host.Outcome State Fault Refusal :=
  match stopReason s with
  | some f => .fault f
  | none =>
    match fetchInstr s with
    | .error c => takeFault c s
    | .ok i => exec i s

/-- The state with the instruction `w` placed where the next step fetches (log 14). -/
def State.withFetchWord (s : State) (nbits w : Nat) : State :=
  placeWord s (BitVec.ofNat 128 (w % 2 ^ nbits))

end Sys2Proof.Machine
end

