-- ==== Sys2Proof/Machine/Start.lean ====
section
/-! DEFINITION. Sys2Proof/Machine/Start.lean: the host (spec 70_reset_and_hazards.md R344). Its first move is the start
state of a run with what it supplies, value by value (R340, R341; log 31) or as bytes at the addresses of `BANK_LAYOUT`
(R58); its second is to read, after the run, the fields of the state, or a bank's bytes at those addresses. -/

namespace Sys2Proof.Machine

/-! ### The start state (R340) -/

/-- The start state before anything is supplied: the parameters, the program, `pc = ENTRY_PC`, no place with a value
but `s0` and `v0`, no fault (R32, R340). -/
def State.blank (p : Params) (prog : List Word) (entry : Int) : State where
  params := p
  prog := prog
  pc := entry
  sregs := Vector.replicate 8 none
  vregs := Vector.replicate 8 (List.replicate p.vlen none)
  mem := []
  fault := none

/-- Supplies `BANK[b][r][c]`, where there is such an element (R50, R340). -/
def supplyElem (s : State) (b r c : Nat) (x : Cplx) : State :=
  if decide (b < 4) && inBounds s.params r c then setElem s b r c x else s

/-- The start state of R340: the values the host supplies for scalar registers, for lanes and for elements, and no
value everywhere else. `s0` and `v0` cannot be supplied, and a lane or element that does not exist is passed over. -/
def State.start (p : Params) (prog : List Word) (entry : Int) (scalars : List (SReg × Cplx))
    (lanes : List (VReg × Nat × Cplx)) (elems : List (Nat × Nat × Nat × Cplx)) : State :=
  let s0 := State.blank p prog entry
  let s1 := scalars.foldl (fun s x => writeS s x.1 x.2) s0
  let s2 := lanes.foldl (fun s x => writeLane s x.1 x.2.1 x.2.2) s1
  elems.foldl (fun s x => supplyElem s x.1 x.2.1 x.2.2.1 x.2.2.2) s2

/-! ### The host's view of the banks (R58) -/

/-- The address `BANK_LAYOUT` gives the first byte of `BANK[b][r][c]` (R58); none where it gives none. -/
def layoutAddr (p : Params) (b r c : Nat) : Option Nat :=
  match p.layout with
  | .rowMajor base => base[b]?.map fun a => a + elementBytes * (r * side p + c)
  | .table addrs => addrs[(b * side p + r) * side p + c]?

/-- Every element of the four banks, by bank, row and column (R50). -/
def elements (p : Params) : List (Nat × Nat × Nat) :=
  (List.range 4).flatMap fun b => (List.range (side p)).flatMap fun r => (List.range (side p)).map fun c => (b, r, c)

/-- The cell of the byte that stands at the host's address `a` if it is one of the element `e`. -/
def cellIn (p : Params) (a : Nat) (e : Nat × Nat × Nat) : Option Nat :=
  match layoutAddr p e.1 e.2.1 e.2.2 with
  | some x => if x ≤ a ∧ a < x + elementBytes then some (elemCell p e.1 e.2.1 e.2.2 + (a - x)) else none
  | none => none

/-- The byte the host reads at address `a`; none where no element that holds a value lies there (R54, R58, R344). -/
def hostRead (s : State) (a : Nat) : Option Byte :=
  match (elements s.params).findSome? (cellIn s.params a) with
  | some k => Memory.lookup s.mem k
  | none => none

/-- Supplies one element from the bytes of an image, where the image holds all sixteen of them (R54, R58, R344). -/
def loadElem (image : List Host.Cell) (s : State) (e : Nat × Nat × Nat) : State :=
  match layoutAddr s.params e.1 e.2.1 e.2.2 with
  | some a =>
    match Memory.elemAt image a with
    | some x => setElem s e.1 e.2.1 e.2.2 x
    | none => s
  | none => s

/-- The host supplies bank contents as bytes at the addresses of `BANK_LAYOUT` (R58, R344). -/
def loadImage (s : State) (image : List Host.Cell) : State := (elements s.params).foldl (loadElem image) s

end Sys2Proof.Machine
end

