-- ==== Sys2Proof/Safety.lean ====
section
/-! DEFINITION. Sys2Proof/Safety.lean: what counts as a safe state and a safe run, and the terms the statements use:
which operands can be read, which register an instruction writes, what an instruction leaves alone. -/

namespace Sys2Proof.Machine

/-! ### Runs (R304, R345) -/

/-- No fault is recorded. A claim about a program's result takes this as a premise or proves it (R304). -/
abbrev NoFault (s : State) : Prop := s.fault = none

/-- The run is over without a fault (R345). -/
abbrev Finished (s : State) : Prop := s.fault = none ∧ s.pc = s.prog.length

/-! ### Operands that can be read: those that hold a value (R29) -/

/-- `s[r]` can be read. -/
abbrev SReadable (s : State) (r : SReg) : Prop := sValued s r = true

/-- Lanes `0 .. n-1` of `v[r]` can be read. -/
abbrev LanesReadable (s : State) (r : VReg) (n : Nat) : Prop := ∀ k, k < n → laneValued s r k = true

/-- Every lane of `v[r]` can be read. -/
abbrev VReadable (s : State) (r : VReg) : Prop := LanesReadable s r s.params.vlen

/-- `BANK[b][r][c]` can be read. -/
abbrev ElemReadable (s : State) (b r c : Nat) : Prop := elemValued s b r c = true

/-! ### What an instruction writes -/

/-- The scalar register an instruction writes (R21). -/
def scalarDest : Instr → Option SReg
  | .cneg d _ | .conj d _ | .csqrt d _ | .cabs2 d _ | .cabs d _ | .creal d _ | .cimag d _ | .crecip d _ => some d
  | .cadd d _ _ | .csub d _ _ | .cmul d _ _ | .cdiv d _ _ | .cmaxabs d _ _ | .cminabs d _ _ => some d
  | .cmpltRe d _ _ | .cmpgtRe d _ _ | .cmpleRe d _ _ => some d
  | .dotc d _ _ | .dotu d _ _ | .iamax d _ | .sum d _ | .asum d _ => some d
  | .cloadi d _ _ | .caddI d _ _ _ | .cmulI d _ _ _ | .csubI d _ _ _ | .cdivI d _ _ _ => some d
  | .cmaxabsI d _ _ _ | .cminabsI d _ _ _ | .cscaleI d _ _ => some d
  | .sldXy d _ _ _ => some d
  | .vadd .. | .vsub .. | .vmul .. | .vmac .. | .vdiv .. | .vconj .. => none
  | .vsadd .. | .vssub .. | .vsmul .. | .vsdiv .. | .vsload .. => none
  | .jrel .. | .vld .. | .vst .. | .sstXy .. => none

/-- The vector register an instruction writes (R33). -/
def vectorDest : Instr → Option VReg
  | .vadd d _ _ | .vsub d _ _ | .vmul d _ _ | .vmac d _ _ | .vdiv d _ _ | .vconj d _ => some d
  | .vsadd d _ _ | .vssub d _ _ | .vsmul d _ _ | .vsdiv d _ _ | .vsload d _ _ => some d
  | .vld d _ _ _ _ => some d
  | .cneg .. | .conj .. | .csqrt .. | .cabs2 .. | .cabs .. | .creal .. | .cimag .. | .crecip .. => none
  | .cadd .. | .csub .. | .cmul .. | .cdiv .. | .cmaxabs .. | .cminabs .. => none
  | .cmpltRe .. | .cmpgtRe .. | .cmpleRe .. => none
  | .dotc .. | .dotu .. | .iamax .. | .sum .. | .asum .. => none
  | .cloadi .. | .caddI .. | .cmulI .. | .csubI .. | .cdivI .. | .cmaxabsI .. | .cminabsI .. | .cscaleI .. => none
  | .jrel .. | .vst .. | .sldXy .. | .sstXy .. => none

/-- The instruction is one of the four S-type instructions, the only ones that reach the banks (R59). -/
def reachesBanks : Instr → Bool
  | .vld .. | .vst .. | .sldXy .. | .sstXy .. => true
  | .cneg .. | .conj .. | .csqrt .. | .cabs2 .. | .cabs .. | .creal .. | .cimag .. | .crecip .. => false
  | .cadd .. | .csub .. | .cmul .. | .cdiv .. | .cmaxabs .. | .cminabs .. => false
  | .cmpltRe .. | .cmpgtRe .. | .cmpleRe .. => false
  | .vadd .. | .vsub .. | .vmul .. | .vmac .. | .vdiv .. | .vconj .. => false
  | .dotc .. | .dotu .. | .iamax .. | .sum .. | .asum .. => false
  | .vsadd .. | .vssub .. | .vsmul .. | .vsdiv .. | .vsload .. => false
  | .cloadi .. | .caddI .. | .cmulI .. | .csubI .. | .cdivI .. | .cmaxabsI .. | .cminabsI .. | .cscaleI .. => false
  | .jrel .. => false

/-! ### What an instruction reads -/

/-- A register an instruction reads. -/
inductive Source where
  | scalar (r : SReg)
  | vector (r : VReg)
deriving DecidableEq, Repr

/-- The registers an instruction reads, in the order it reads them (R151, R180, R200, R220, R226, R240, R261, R274,
R278). -/
def sources : Instr → List Source
  | .cneg _ a | .conj _ a | .csqrt _ a | .cabs2 _ a | .cabs _ a | .creal _ a | .cimag _ a | .crecip _ a => [.scalar a]
  | .cadd _ a b | .csub _ a b | .cmul _ a b | .cdiv _ a b | .cmaxabs _ a b | .cminabs _ a b => [.scalar a, .scalar b]
  | .cmpltRe _ a b | .cmpgtRe _ a b | .cmpleRe _ a b => [.scalar a, .scalar b]
  | .vadd _ a b | .vsub _ a b | .vmul _ a b | .vdiv _ a b => [.vector a, .vector b]
  | .vmac d a b => [.vector a, .vector b, .vector d]
  | .vconj _ a => [.vector a]
  | .dotc _ a b | .dotu _ a b => [.vector a, .vector b]
  | .iamax _ a | .sum _ a | .asum _ a => [.vector a]
  | .vsadd _ a b | .vssub _ a b | .vsmul _ a b | .vsdiv _ a b => [.vector a, .scalar b]
  | .vsload _ b _ => [.scalar b]
  | .cloadi .. => []
  | .caddI _ a _ _ | .cmulI _ a _ _ | .csubI _ a _ _ | .cdivI _ a _ _ => [.scalar a]
  | .cmaxabsI _ a _ _ | .cminabsI _ a _ _ | .cscaleI _ a _ => [.scalar a]
  | .jrel _ => [.scalar 1]
  | .vld .. => []
  | .vst r _ _ _ _ => [.vector r]
  | .sldXy .. => []
  | .sstXy r _ _ _ => [.scalar r]

/-- All of a source can be read. -/
def SourceReadable (s : State) : Source → Prop
  | .scalar r => SReadable s r
  | .vector r => VReadable s r

/-- Lane `k` of `v[r]` is the first without a value. -/
abbrev FirstEmptyLane (s : State) (r : VReg) (k : Nat) : Prop :=
  k < s.params.vlen ∧ laneValued s r k = false ∧ LanesReadable s r k

/-- `p` is the first place of a source that cannot be read, lanes in rising order (R303). -/
def FirstUnreadable (s : State) : Source → Place → Prop
  | .scalar r, p => sValued s r = false ∧ p = .scalar r
  | .vector r, p => ∃ k, FirstEmptyLane s r k ∧ p = .lane r k

/-! ### What an instruction leaves alone -/

/-- `s[r]` holds what it held, a value or none. -/
abbrev SameScalar (s t : State) (r : SReg) : Prop := sAt t r = sAt s r

/-- Every lane of `v[r]` holds what it held, a value or none. -/
abbrev SameVector (s t : State) (r : VReg) : Prop := ∀ k, laneAt t r k = laneAt s r k

/-- Every byte of the banks reads as before. -/
abbrev SameBytes (s t : State) : Prop := ∀ a, Memory.lookup t.mem a = Memory.lookup s.mem a

/-- The parameters, the program and the fault record are unchanged. -/
abbrev SameRest (s t : State) : Prop := t.params = s.params ∧ t.prog = s.prog ∧ t.fault = s.fault

/-- The instruction completes: it moves on by one word, puts `c` into `s[rd]` (which discards it where `rd` is `s0`),
and leaves everything else alone. -/
def CompletesScalar (i : Instr) (s : State) (rd : SReg) (c : Cplx) : Prop :=
  ∃ t, exec i s = .next t ∧ t.pc = s.pc + 1 ∧
    sAt t rd = some (if rd = 0 then Cplx.zero else c) ∧
    (∀ r, r ≠ rd → SameScalar s t r) ∧ (∀ r, SameVector s t r) ∧ SameBytes s t ∧ SameRest s t

/-- The instruction completes: it moves on by one word, puts `f k` into every lane `k` of `v[rd]` (which discards it
where `rd` is `v0`), and leaves everything else alone. -/
def CompletesVector (i : Instr) (s : State) (rd : VReg) (f : Nat → Cplx) : Prop :=
  ∃ t, exec i s = .next t ∧ t.pc = s.pc + 1 ∧
    (∀ k, k < s.params.vlen → laneAt t rd k = some (if rd = 0 then Cplx.zero else f k)) ∧
    (∀ r, r ≠ rd → SameVector s t r) ∧ (∀ r, SameScalar s t r) ∧ SameBytes s t ∧ SameRest s t

/-- The instruction takes the fault `c`: the record holds its pc and the cause, nothing else changes (R304). -/
def TakesFault (i : Instr) (s : State) (c : FaultCause) : Prop :=
  exec i s = .next { s with fault := some ⟨s.pc, c⟩ }

/-! ### What the rules say of an instruction's word and of operands without a value -/

/-- The subop of an instruction's word, `w[119:112]` (R83). -/
def subopOf (i : Instr) : BitVec 8 := (encode i).extractLsb' 112 8

/-- A source scalar without a value raises `UninitializedRead` (R151, R240). -/
def EmptyScalarFaults (i : Instr) (s : State) (rs1 : SReg) : Prop :=
  sValued s rs1 = false → TakesFault i s (.uninitializedRead (.scalar rs1))

/-- Of two source scalars the first is checked first (R151). -/
def EmptyScalarsFault (i : Instr) (s : State) (rs1 rs2 : SReg) : Prop :=
  (sValued s rs1 = false → TakesFault i s (.uninitializedRead (.scalar rs1))) ∧
    (sValued s rs1 = true → sValued s rs2 = false → TakesFault i s (.uninitializedRead (.scalar rs2)))

/-- Of two source vectors the first is checked first, lanes in rising order (R180). -/
def EmptyVectorsFault (i : Instr) (s : State) (rs1 rs2 : VReg) : Prop :=
  ∀ k,
    (FirstEmptyLane s rs1 k → TakesFault i s (.uninitializedRead (.lane rs1 k))) ∧
    (VReadable s rs1 → FirstEmptyLane s rs2 k → TakesFault i s (.uninitializedRead (.lane rs2 k)))

/-- Of a vector and a scalar the vector is checked first, lanes in rising order (R220). -/
def EmptyVectorOrScalarFaults (i : Instr) (s : State) (rs1 : VReg) (rs2 : SReg) : Prop :=
  (∀ k, FirstEmptyLane s rs1 k → TakesFault i s (.uninitializedRead (.lane rs1 k))) ∧
    (VReadable s rs1 → sValued s rs2 = false → TakesFault i s (.uninitializedRead (.scalar rs2)))

/-- The place exists and holds no value (R29). -/
def HoldsNothing (s : State) : Place → Prop
  | .scalar r => sValued s r = false
  | .lane r k => k < s.params.vlen ∧ laneValued s r k = false
  | .element b r c => b < 4 ∧ r < side s.params ∧ c < side s.params ∧ elemValued s b r c = false

/-- `s'` is `s` but for places that hold a value in `s'` and none in `s`. -/
structure FillsIn (s s' : State) : Prop where
  params : s'.params = s.params
  prog : s'.prog = s.prog
  pc : s'.pc = s.pc
  fault : s'.fault = s.fault
  scalars : ∀ r c, sAt s r = some c → sAt s' r = some c
  lanes : ∀ r k c, laneAt s r k = some c → laneAt s' r k = some c
  bytes : ∀ a x, Memory.lookup s.mem a = some x → Memory.lookup s'.mem a = some x

/-! ### Vector accesses and the host's view, in the terms of the rules -/

/-- `L` is the length of a vector access, `len16` or `VLEN` where it is 0 (R93, R271), and `E k` its element `k`, as
(row, column): in row `idx16`, or in column `idx16` (R60). -/
def IsAccess (p : Params) (rc : Dir) (idx16 len16 : BitVec 16) (L : Nat) (E : Nat → Nat × Nat) : Prop :=
  L = (if len16 = 0#16 then p.vlen else len16.toNat) ∧
    ∀ k, E k = if rc = .row then (idx16.toNat, k) else (k, idx16.toNat)

/-- `BANK_LAYOUT` gives two elements no byte in common (R58). -/
def LayoutSeparates (p : Params) : Prop :=
  ∀ b r c b' r' c' a a', b < 4 → r < side p → c < side p → b' < 4 → r' < side p → c' < side p →
    (b, r, c) ≠ (b', r', c') → layoutAddr p b r c = some a → layoutAddr p b' r' c' = some a' →
      a + 16 ≤ a' ∨ a' + 16 ≤ a

/-- The state with another `BANK_LAYOUT`. -/
def withLayout (s : State) (l : BankLayout) : State := { s with params := { s.params with layout := l } }

/-! ### The invariant of the model's states -/

/-- Every byte is one of an element of a bank, and an element holds either all of its bytes or none (R50, R51). -/
def WholeElements (s : State) : Prop :=
  ∀ a, (Memory.lookup s.mem a).isSome →
    a < memoryEnd s.params ∧
      ∀ j, j < elementBytes → (Memory.lookup s.mem (elementBytes * (a / elementBytes) + j)).isSome

/-- What every state of a run satisfies: the bounds of the parameters (R5, R6), `VLEN` lanes in every vector register
(R33), the memory's canonical form, and whole elements inside the banks (R50, R51). -/
structure Inv (s : State) : Prop where
  params : s.params.wf
  lanes : ∀ r : VReg, (s.vregs[r]).length = s.params.vlen
  mem : Memory.wf s.mem
  whole : WholeElements s

/-! ### Which faults an instruction can raise (R301) -/

/-- The column "raised by" of R301, for the faults of an instruction that has been decoded. -/
def mayRaise (i : Instr) : FaultCause → Prop
  | .fetchFault => False
  | .illegalInstruction _ => WellFormed i = false
  | .vectorLengthFault _ => ∃ r b rc x l, i = .vld r b rc x l ∨ i = .vst r b rc x l
  | .laneIndexFault _ => ∃ d a k, i = .vsload d a k
  | .outOfBounds _ _ _ => reachesBanks i = true
  | .uninitializedRead (.element _ _ _) => (∃ r b rc x l, i = .vld r b rc x l) ∨ ∃ r b x y, i = .sldXy r b x y
  | .uninitializedRead (.scalar r) => .scalar r ∈ sources i
  | .uninitializedRead (.lane r _) => .vector r ∈ sources i

end Sys2Proof.Machine
end

