-- ==== Sys2Proof/Certificates/Slice0/Obligations.lean ====
section
/-! DEFINITION. Sys2Proof/Certificates/Slice0/Obligations.lean: the statements for the provers. Each says which rule
of spec/ it formalises; a clause that rests on a decision of the spec or of the model names it. -/

open Sys2Proof Sys2Proof.Machine

/-! ### Encoding -/

/-- 95_test_vectors.md section 2: one word of each family, written out there from the format tables, reads as the
instruction it stands for, and two words of section 3 read as none. -/
def Obligations.DecodeReadsSpecWords : Prop :=
  decode 0x01080000898000000000000000000000#128 = some (.cadd 4 2 3) ∧
  decode 0x01030001650000000000000000000000#128 = some (.vmac 3 1 2) ∧
  decode 0x01020002840000000000000000000000#128 = some (.iamax 4 1) ∧
  decode 0x011C0003E3FFFF800000000000000000#128 = some (.vsload 7 7 65535#16) ∧
  decode 0x0200000043FFFFFC0000000000C00000#128 = some (.cloadi 2 0xC00000#45 0x1FFFFFE00000#45) ∧
  decode 0x0300000007FFFFFFFA00000000000000#128 = some (.jrel (-3#33)) ∧
  decode 0x04008000440006000000000000000000#128 = some (.vld 2 1#3 .col 3#16 0#16) ∧
  decode 0x04020000880006000200000000000000#128 = some (.sldXy 4 2#3 3#16 1#16) ∧
  decode 0x01080000898000800000000000000000#128 = none ∧
  decode 0x04020000900006000200000000000000#128 = none

/-- R83 to R95, R112 (the positions are decisions D1 to D8): no bit of an encoding is dropped. -/
def Obligations.DecodeOfEncodeIsIdentity : Prop :=
  ∀ i : Instr, WellFormed i = true → decode (encode i) = some i

/-- R100, R107, R108: a legal word stands for one instruction, well formed, whose word it is. -/
def Obligations.EncodeOfDecodeIsIdentity : Prop :=
  ∀ (w : Word) (i : Instr), decode w = some i → WellFormed i = true ∧ encode i = w

/-- R108 (decision D10): a word is legal if and only if some row of the opcode table matches it. -/
def Obligations.LegalWordsAreTableRows : Prop :=
  ∀ w : Word, (decode w).isSome = true ↔ ∃ r ∈ opcodeTable, r.hits w

/-- R87, R108 (decision D7): with a bank number of 4 to 7 in its slot an S-type word is not legal. -/
def Obligations.IllFormedBankNumbersAreNotDecoded : Prop :=
  ∀ i : Instr, WellFormed i = false → decode (encode i) = none

/-- R55: byte `j` of the 16 bytes of a word is `w[8j+7 : 8j]`, the highest holds the opcode and the lowest `w[7:0]`,
and the decoder reads 16 such bytes as it reads the word, giving back the bytes that follow. -/
def Obligations.InstructionBytesAreLittleEndian : Prop :=
  ∀ (w : Word) (rest : List Byte),
    (wordBytes w).length = 16 ∧
    (∀ j, j < 16 → (wordBytes w)[j]? = some (w.extractLsb' (8 * j) 8)) ∧
    (wordBytes w)[15]? = some (Fields.ofWord w).opcode ∧ (wordBytes w)[0]? = some (w.extractLsb' 0 8) ∧
    decodeBytes (wordBytes w ++ rest) = (decode w).map fun i => (i, rest)

/-! ### Steps, faults, the whole machine -/

/-- R15: where the word at `pc` decodes, the step is that instruction's meaning at that state; the instruction itself
moves the pc. -/
def Obligations.StepRunsDecodedInstruction : Prop :=
  ∀ (s : State) (w : Word) (i : Instr) (rest : List Byte),
    s.fault = none → 0 ≤ s.pc → s.prog[s.pc.toNat]? = some w → decodeBytes (wordBytes w) = some (i, rest) →
      step s = exec i s

/-- R108, R301, R345 (decisions D10, D16): where there is no word at `pc`, or no legal one, the step records the
fault with the pc and changes nothing else. -/
def Obligations.StepFaultsWithoutLegalWord : Prop :=
  ∀ s : State, s.fault = none →
    ((s.pc < 0 ∨ (s.prog.length : Int) < s.pc) → step s = .next { s with fault := some ⟨s.pc, .fetchFault⟩ }) ∧
    (∀ w, 0 ≤ s.pc → s.prog[s.pc.toNat]? = some w → decode w = none →
      step s = .next { s with fault := some ⟨s.pc, .illegalInstruction w⟩ })

/-- R304, R307, R345 (decisions D11, D16; that a stopped machine is the host's outcome `fault` is log 13 and 14): no
step leaves the faulted state or the end of a run, and from every other state there is a next state. -/
def Obligations.StepStopsOnlyWhenFaultedOrFinished : Prop :=
  ∀ s : State,
    (s.fault ≠ none → step s = .fault .faulted) ∧
    (Finished s → step s = .fault .runOver) ∧
    (s.fault = none → s.pc ≠ s.prog.length → ∃ t, step s = .next t)

/-- R13, R304, R305 (decision D11): whatever the instruction, the state after it either bears the same fault record as
before, or bears a new one with the instruction's own pc and differs in nothing else. -/
def Obligations.FaultsArePrecise : Prop :=
  ∀ (i : Instr) (s t : State), exec i s = .next t →
    t.fault = s.fault ∨ ∃ c, t = { s with fault := some ⟨s.pc, c⟩ }

/-- R301, the column "raised by" (decisions D10, D17, D31, D34): an instruction records only the faults the table
gives it; no arithmetic instruction records any but `UninitializedRead` of a register it reads. -/
def Obligations.FaultsComeOnlyFromTheirInstructions : Prop :=
  ∀ (i : Instr) (s t : State) (c : FaultCause), s.fault = none → exec i s = .next t →
    t.fault = some ⟨s.pc, c⟩ → mayRaise i c

/-- R29, R301 (decision D17): a step records `UninitializedRead` only for a place that exists and holds no value, and
with the pc of the instruction. -/
def Obligations.UninitializedReadOnlyWhereNothingIsHeld : Prop :=
  ∀ (s t : State) (pc : Int) (p : Place), s.fault = none → step s = .next t →
    t.fault = some ⟨pc, .uninitializedRead p⟩ → pc = s.pc ∧ HoldsNothing s p

/-- R29, R340 (decision D17): an instruction that records no fault does not depend on the places that hold no value: in
a state that has values there as well it does the same, and those values stand, or are overwritten. So nothing a start
state leaves out, and none of the zeros of log 3 and log 4, can be seen by a program that runs without them. -/
def Obligations.FillingInValuesChangesNothing : Prop :=
  ∀ (i : Instr) (s s' t : State), FillsIn s s' → s.fault = none → exec i s = .next t → t.fault = none →
    ∃ t', exec i s' = .next t' ∧ FillsIn t t'

/-- R340, R342, R63 (decision D14): no step changes the parameters or the program. -/
def Obligations.ParametersAndProgramNeverChange : Prop :=
  ∀ s t : State, step s = .next t → t.params = s.params ∧ t.prog = s.prog

/-- R27 (decision D13) and R261: only `jrel` leaves the sequence; after every other instruction that records no fault
the pc is one more. -/
def Obligations.OnlyJrelLeavesTheSequence : Prop :=
  ∀ (i : Instr) (s t : State), (∀ off, i ≠ .jrel off) → s.fault = none → exec i s = .next t → t.fault = none →
    t.pc = s.pc + 1

/-- R59: an instruction other than the four S-type ones neither reads nor writes the banks: with any other contents of
them it does the same and leaves those contents. -/
def Obligations.OnlySTypeReachesTheBanks : Prop :=
  ∀ (i : Instr) (s t : State) (m : List Host.Cell), reachesBanks i = false → exec i s = .next t →
    t.mem = s.mem ∧ exec i { s with mem := m } = .next { t with mem := m }

/-- R21, R33, 42 to 47: the frame over all registers: an instruction changes no scalar register but its destination and
no vector register but its destination. -/
def Obligations.RegistersOtherThanTheDestinationAreUnchanged : Prop :=
  ∀ (i : Instr) (s t : State), exec i s = .next t →
    (∀ r, scalarDest i ≠ some r → SameScalar s t r) ∧ (∀ r, vectorDest i ≠ some r → SameVector s t r)

/-- R22, R23 (decision D33): an instruction whose destination is `s0` or `v0` and that records no fault changes
nothing but the pc. -/
def Obligations.ZeroDestinationDiscardsTheResult : Prop :=
  ∀ (i : Instr) (s t : State), scalarDest i = some 0 ∨ vectorDest i = some 0 → s.fault = none →
    exec i s = .next t → t.fault = none → t = { s with pc := s.pc + 1 }

/-- The model's invariant (R5, R6, R33, R50, R51; the canonical form is the model's own, log 7): every step keeps it. -/
def Obligations.InvariantIsKeptByEveryStep : Prop :=
  ∀ s t : State, Inv s → step s = .next t → Inv t

/-- The state after reset satisfies the invariant. -/
def Obligations.InvariantHoldsAtReset : Prop := Inv State.reset

/-- R22, R23, R32, R340, R341 (decisions D15, D17): a start state with nothing supplied has zero in `s0` and in every
lane of `v0`, no other place with a value, the host's parameters, program and entry, and no fault; so has the state
after reset, but that its registers and lanes hold zero (log 2 to log 4, DESIGN CHOICE), its program is empty (log 14)
and its entry is the default 0. -/
def Obligations.ResetStateHoldsWhatTheSpecGives : Prop :=
  (∀ p prog entry,
    let s := State.blank p prog entry
    sAt s 0 = some ⟨0#64, 0#64⟩ ∧ (∀ k, laneAt s 0 k = some ⟨0#64, 0#64⟩) ∧ (∀ r, r ≠ 0 → sAt s r = none) ∧
    (∀ r k, r ≠ 0 → laneAt s r k = none) ∧ (∀ b r c, elemAt s b r c = none) ∧
    s.params = p ∧ s.prog = prog ∧ s.pc = entry ∧ s.fault = none) ∧
  (∀ r, sAt State.reset r = some ⟨0#64, 0#64⟩) ∧
  (∀ r k, k < State.reset.params.vlen → laneAt State.reset r k = some ⟨0#64, 0#64⟩) ∧
  (∀ b r c, elemAt State.reset b r c = none) ∧
  State.reset.prog = [] ∧ State.reset.pc = 0 ∧ State.reset.fault = none

/-- R29, R151, R180, R200, R220, R240, R261, R303 (decision D17): an R-type, I-type or J-type
instruction other than `vsload` (which checks its index first) takes `UninitializedRead` at the first place it cannot
read, its source registers in their order, lanes in rising order. -/
def Obligations.FirstUnreadablePlaceIsReported : Prop :=
  ∀ (i : Instr) (s : State) (before after : List Source) (src : Source) (p : Place),
    reachesBanks i = false → (∀ d a k, i ≠ .vsload d a k) → sources i = before ++ src :: after →
    (∀ q ∈ before, SourceReadable s q) → FirstUnreadable s src p → TakesFault i s (.uninitializedRead p)

/-! ### Arithmetic laws -/

/-- R122, R123, R124 (decisions D20, D21): `wrap64` keeps the residue modulo 2^64 in the signed range, `sat64` pins at
the ends, and `trunc` and `satn` apply them to the floor of the exact rational. -/
def Obligations.NarrowingLaws : Prop :=
  (∀ z : Int, (wrap64 z).toInt = Int.bmod z (2 ^ 64)) ∧
  (∀ z : Int, (sat64 z).toInt = max (-2 ^ 63) (min (2 ^ 63 - 1) z)) ∧
  (∀ num den : Int, 0 < den → trunc num den = wrap64 ⌊(num : ℚ) / (den : ℚ)⌋ ∧
    satn num den = sat64 ⌊(num : ℚ) / (den : ℚ)⌋)

/-- R128 (decision D24): the division function gives zero for a zero divisor whichever function it is, the reference
gives the exact quotient through one `trunc` per half, and the reference of `a` by itself is exactly 1 (R163). -/
def Obligations.DivisionFunctionLaws : Prop :=
  (∀ (p : Params) (a : Cplx), cdivFn p a Cplx.zero = Cplx.zero) ∧
  (∀ (p : Params) (a b : Cplx), p.cdivFn = .reference → b ≠ Cplx.zero → cdivFn p a b =
    ⟨trunc (2 ^ 32 * (a.re.toInt * b.re.toInt + a.im.toInt * b.im.toInt))
        (b.re.toInt * b.re.toInt + b.im.toInt * b.im.toInt),
      trunc (2 ^ 32 * (a.im.toInt * b.re.toInt - a.re.toInt * b.im.toInt))
        (b.re.toInt * b.re.toInt + b.im.toInt * b.im.toInt)⟩) ∧
  (∀ a : Cplx, a ≠ Cplx.zero → cdivRef a a = ⟨0x100000000#64, 0#64⟩)

/-- R135 (decision D25): the reference root is the greatest integer whose square does not exceed its operand. -/
def Obligations.IntegerRootIsTheGreatest : Prop :=
  ∀ n : Nat, isqrtRef n * isqrtRef n ≤ n ∧ ∀ k : Nat, k * k ≤ n → k ≤ isqrtRef n

/-- R134 (decision D25; the integer computation is DEDUCED, log 30): the reference complex root is the floors of the
real numbers `Wr = sqrt(2^31 (m + Ar))` and `Wi = sg sqrt(2^31 (m - Ar))`, `m = sqrt(Ar^2 + Ai^2)`. -/
def Obligations.ComplexRootIsTheFloorOfThePrincipalRoot : Prop :=
  ∀ a : Cplx,
    (csqrtRef a).re.toInt = ⌊Real.sqrt (2 ^ 31 *
      (Real.sqrt ((a.re.toInt : ℝ) ^ 2 + (a.im.toInt : ℝ) ^ 2) + (a.re.toInt : ℝ)))⌋ ∧
    (csqrtRef a).im.toInt = ⌊(if 0 ≤ a.im.toInt then 1 else -1) * Real.sqrt (2 ^ 31 *
      (Real.sqrt ((a.re.toInt : ℝ) ^ 2 + (a.im.toInt : ℝ) ^ 2) - (a.re.toInt : ℝ)))⌋

/-- R131 (decision D26): an integer that a half can hold under `INT_ENC` is written as that raw half. -/
def Obligations.IntegersAreWrittenAsIntEncSays : Prop :=
  ∀ n : Int,
    (-2 ^ 63 ≤ n * 2 ^ 32 → n * 2 ^ 32 ≤ 2 ^ 63 - 1 → (intHalf .value n).toInt = n * 2 ^ 32) ∧
    (-2 ^ 63 ≤ n → n ≤ 2 ^ 63 - 1 → (intHalf .raw n).toInt = n)

/-! ### R-type scalar -/

/-- R152: both halves are negated in two's complement. -/
def Obligations.CnegResult : Prop :=
  ∀ (s : State) (rd rs1 : SReg),
    subopOf (.cneg rd rs1) = 0x00#8 ∧ EmptyScalarFaults (.cneg rd rs1) s rs1 ∧
    (sValued s rs1 = true → CompletesScalar (.cneg rd rs1) s rd
      ⟨wrap64 (-(sVal s rs1).re.toInt), wrap64 (-(sVal s rs1).im.toInt)⟩)

/-- R157, R158: the real, respectively the imaginary half lands in the real half, bit for bit; the imaginary half of
the result is zero. -/
def Obligations.CrealCimagResults : Prop :=
  ∀ (s : State) (rd rs1 : SReg),
    subopOf (.creal rd rs1) = 0x05#8 ∧ subopOf (.cimag rd rs1) = 0x06#8 ∧
    EmptyScalarFaults (.creal rd rs1) s rs1 ∧ EmptyScalarFaults (.cimag rd rs1) s rs1 ∧
    (sValued s rs1 = true →
      CompletesScalar (.creal rd rs1) s rd ⟨(sVal s rs1).re, 0#64⟩ ∧
      CompletesScalar (.cimag rd rs1) s rd ⟨(sVal s rs1).im, 0#64⟩)

/-- R153, R186 (decision D22 for an imaginary half of `MIN`): the real half is copied, the imaginary half negated. -/
def Obligations.ConjugateResults : Prop :=
  (∀ (s : State) (rd rs1 : SReg), SReadable s rs1 →
    CompletesScalar (.conj rd rs1) s rd ⟨(sVal s rs1).re, wrap64 (-(sVal s rs1).im.toInt)⟩) ∧
  (∀ (s : State) (rd rs1 : VReg), VReadable s rs1 →
    CompletesVector (.vconj rd rs1) s rd fun k =>
      ⟨(laneVal s rs1 k).re, wrap64 (-(laneVal s rs1 k).im.toInt)⟩)

/-- R154, R156 (decision D25; which function the root is, is a parameter, log 9), R155 (decision D20): the complex
root, the magnitude and its square. -/
def Obligations.RootAndMagnitudeResults : Prop :=
  ∀ (s : State) (rd rs1 : SReg), SReadable s rs1 →
    CompletesScalar (.csqrt rd rs1) s rd
      (if s.params.csqrtFn = .reference then csqrtRef (sVal s rs1) else Config.ownCsqrt (sVal s rs1)) ∧
    CompletesScalar (.cabs2 rd rs1) s rd
      ⟨wrap64 (((sVal s rs1).re.toInt ^ 2 + (sVal s rs1).im.toInt ^ 2) / 2 ^ 32), 0#64⟩ ∧
    CompletesScalar (.cabs rd rs1) s rd
      ⟨wrap64 ((if s.params.isqrtFn = .reference then isqrtRef else Config.ownIsqrt)
        ((sVal s rs1).re.toInt ^ 2 + (sVal s rs1).im.toInt ^ 2).toNat), 0#64⟩

/-- R160, R161: the sum and the difference of the raw halves, each wrapped to 64 bits on its own, with no carry
between the halves. -/
def Obligations.CaddCsubResults : Prop :=
  ∀ (s : State) (rd rs1 rs2 : SReg),
    subopOf (.cadd rd rs1 rs2) = 0x08#8 ∧ subopOf (.csub rd rs1 rs2) = 0x09#8 ∧
    EmptyScalarsFault (.cadd rd rs1 rs2) s rs1 rs2 ∧ EmptyScalarsFault (.csub rd rs1 rs2) s rs1 rs2 ∧
    (sValued s rs1 = true → sValued s rs2 = true →
      CompletesScalar (.cadd rd rs1 rs2) s rd
        ⟨wrap64 ((sVal s rs1).re.toInt + (sVal s rs2).re.toInt),
          wrap64 ((sVal s rs1).im.toInt + (sVal s rs2).im.toInt)⟩ ∧
      CompletesScalar (.csub rd rs1 rs2) s rd
        ⟨wrap64 ((sVal s rs1).re.toInt - (sVal s rs2).re.toInt),
          wrap64 ((sVal s rs1).im.toInt - (sVal s rs2).im.toInt)⟩)

/-- R162: the exact product, the low 32 bits dropped with floor once per half, the high bits wrapped. -/
def Obligations.CmulResult : Prop :=
  ∀ (s : State) (rd rs1 rs2 : SReg),
    subopOf (.cmul rd rs1 rs2) = 0x0A#8 ∧ EmptyScalarsFault (.cmul rd rs1 rs2) s rs1 rs2 ∧
    (sValued s rs1 = true → sValued s rs2 = true →
      CompletesScalar (.cmul rd rs1 rs2) s rd
        ⟨wrap64 (((sVal s rs1).re.toInt * (sVal s rs2).re.toInt - (sVal s rs1).im.toInt * (sVal s rs2).im.toInt)
            / 2 ^ 32),
          wrap64 (((sVal s rs1).re.toInt * (sVal s rs2).im.toInt + (sVal s rs1).im.toInt * (sVal s rs2).re.toInt)
            / 2 ^ 32)⟩)

/-- R159, R163, R246 (decisions D22, D24): the scalar divisions put the division function's value (its laws are
`DivisionFunctionLaws`) into the destination, for every operand, a zero divisor among them. -/
def Obligations.ScalarDivisionResults : Prop :=
  ∀ (s : State) (rd rs1 : SReg), SReadable s rs1 →
    CompletesScalar (.crecip rd rs1) s rd (cdivFn s.params ⟨0x100000000#64, 0#64⟩ (sVal s rs1)) ∧
    (∀ re45 im45, CompletesScalar (.cdivI rd rs1 re45 im45) s rd
      (cdivFn s.params (sVal s rs1) ⟨wrap64 (re45.toInt * 2 ^ 9), wrap64 (im45.toInt * 2 ^ 9)⟩)) ∧
    (∀ rs2, SReadable s rs2 →
      CompletesScalar (.cdiv rd rs1 rs2) s rd (cdivFn s.params (sVal s rs1) (sVal s rs2)))

/-- R164, R165: the operand of greater, respectively smaller magnitude, copied bit for bit; ties pick `a`. -/
def Obligations.CmaxabsCminabsResults : Prop :=
  ∀ (s : State) (rd rs1 rs2 : SReg),
    subopOf (.cmaxabs rd rs1 rs2) = 0x0C#8 ∧ subopOf (.cminabs rd rs1 rs2) = 0x0D#8 ∧
    EmptyScalarsFault (.cmaxabs rd rs1 rs2) s rs1 rs2 ∧ EmptyScalarsFault (.cminabs rd rs1 rs2) s rs1 rs2 ∧
    (sValued s rs1 = true → sValued s rs2 = true →
      let magA : Int := (sVal s rs1).re.toInt ^ 2 + (sVal s rs1).im.toInt ^ 2
      let magB : Int := (sVal s rs2).re.toInt ^ 2 + (sVal s rs2).im.toInt ^ 2
      CompletesScalar (.cmaxabs rd rs1 rs2) s rd (if magB > magA then sVal s rs2 else sVal s rs1) ∧
      CompletesScalar (.cminabs rd rs1 rs2) s rd (if magB < magA then sVal s rs2 else sVal s rs1))

/-- R166, R167, R168 (the half written for 1 is decision D26): the signed comparison of the real halves. -/
def Obligations.CompareResults : Prop :=
  ∀ (s : State) (rd rs1 rs2 : SReg), SReadable s rs1 → SReadable s rs2 →
    let one : Cplx := ⟨if s.params.intEnc = .value then 0x100000000#64 else 1#64, 0#64⟩
    CompletesScalar (.cmpltRe rd rs1 rs2) s rd
      (if (sVal s rs1).re.toInt < (sVal s rs2).re.toInt then one else Cplx.zero) ∧
    CompletesScalar (.cmpgtRe rd rs1 rs2) s rd
      (if (sVal s rs1).re.toInt > (sVal s rs2).re.toInt then one else Cplx.zero) ∧
    CompletesScalar (.cmpleRe rd rs1 rs2) s rd
      (if (sVal s rs1).re.toInt ≤ (sVal s rs2).re.toInt then one else Cplx.zero)

/-! ### R-type vector -/

/-- R181, R182: lane by lane, each half saturating on its own. -/
def Obligations.VaddVsubResults : Prop :=
  ∀ (s : State) (rd rs1 rs2 : VReg),
    subopOf (.vadd rd rs1 rs2) = 0x00#8 ∧ subopOf (.vsub rd rs1 rs2) = 0x01#8 ∧
    EmptyVectorsFault (.vadd rd rs1 rs2) s rs1 rs2 ∧ EmptyVectorsFault (.vsub rd rs1 rs2) s rs1 rs2 ∧
    (VReadable s rs1 → VReadable s rs2 →
      CompletesVector (.vadd rd rs1 rs2) s rd (fun k =>
        ⟨sat64 ((laneVal s rs1 k).re.toInt + (laneVal s rs2 k).re.toInt),
          sat64 ((laneVal s rs1 k).im.toInt + (laneVal s rs2 k).im.toInt)⟩) ∧
      CompletesVector (.vsub rd rs1 rs2) s rd (fun k =>
        ⟨sat64 ((laneVal s rs1 k).re.toInt - (laneVal s rs2 k).re.toInt),
          sat64 ((laneVal s rs1 k).im.toInt - (laneVal s rs2 k).im.toInt)⟩))

/-- R183 (decision D22): lane by lane, the exact product through one `trunc` per half. -/
def Obligations.VmulResult : Prop :=
  ∀ (s : State) (rd rs1 rs2 : VReg), VReadable s rs1 → VReadable s rs2 →
    CompletesVector (.vmul rd rs1 rs2) s rd (fun k =>
      ⟨wrap64 (((laneVal s rs1 k).re.toInt * (laneVal s rs2 k).re.toInt
          - (laneVal s rs1 k).im.toInt * (laneVal s rs2 k).im.toInt) / 2 ^ 32),
        wrap64 (((laneVal s rs1 k).re.toInt * (laneVal s rs2 k).im.toInt
          + (laneVal s rs1 k).im.toInt * (laneVal s rs2 k).re.toInt) / 2 ^ 32)⟩)

/-- R184 (decision D22), in the form of its corner case: fused or not, the result is the old lane plus the floor of
the product, wrapped. -/
def Obligations.VmacResult : Prop :=
  ∀ (s : State) (rd rs1 rs2 : VReg), VReadable s rs1 → VReadable s rs2 → VReadable s rd →
    CompletesVector (.vmac rd rs1 rs2) s rd (fun k =>
      ⟨wrap64 ((laneVal s rd k).re.toInt + ((laneVal s rs1 k).re.toInt * (laneVal s rs2 k).re.toInt
          - (laneVal s rs1 k).im.toInt * (laneVal s rs2 k).im.toInt) / 2 ^ 32),
        wrap64 ((laneVal s rd k).im.toInt + ((laneVal s rs1 k).re.toInt * (laneVal s rs2 k).im.toInt
          + (laneVal s rs1 k).im.toInt * (laneVal s rs2 k).re.toInt) / 2 ^ 32)⟩)

/-- R185, R224 (decisions D22, D24): lane by lane the division function's value (its laws are
`DivisionFunctionLaws`), a zero divisor among the operands. -/
def Obligations.VectorDivisionResults : Prop :=
  ∀ (s : State) (rd rs1 : VReg), VReadable s rs1 →
    (∀ rs2 : VReg, VReadable s rs2 →
      CompletesVector (.vdiv rd rs1 rs2) s rd fun k => cdivFn s.params (laneVal s rs1 k) (laneVal s rs2 k)) ∧
    (∀ rs2 : SReg, SReadable s rs2 →
      CompletesVector (.vsdiv rd rs1 rs2) s rd fun k => cdivFn s.params (laneVal s rs1 k) (sVal s rs2))

/-- R201, R202 (decisions D22, D23): the exact sums over all lanes, narrowed once; in `dotc` the first operand is the
conjugated one. -/
def Obligations.DotProductResults : Prop :=
  ∀ (s : State) (rd : SReg) (rs1 rs2 : VReg), VReadable s rs1 → VReadable s rs2 →
    CompletesScalar (.dotc rd rs1 rs2) s rd
      ⟨wrap64 ((∑ k ∈ Finset.range s.params.vlen, ((laneVal s rs1 k).re.toInt * (laneVal s rs2 k).re.toInt
          + (laneVal s rs1 k).im.toInt * (laneVal s rs2 k).im.toInt)) / 2 ^ 32),
        wrap64 ((∑ k ∈ Finset.range s.params.vlen, ((laneVal s rs1 k).re.toInt * (laneVal s rs2 k).im.toInt
          - (laneVal s rs1 k).im.toInt * (laneVal s rs2 k).re.toInt)) / 2 ^ 32)⟩ ∧
    CompletesScalar (.dotu rd rs1 rs2) s rd
      ⟨wrap64 ((∑ k ∈ Finset.range s.params.vlen, ((laneVal s rs1 k).re.toInt * (laneVal s rs2 k).re.toInt
          - (laneVal s rs1 k).im.toInt * (laneVal s rs2 k).im.toInt)) / 2 ^ 32),
        wrap64 ((∑ k ∈ Finset.range s.params.vlen, ((laneVal s rs1 k).re.toInt * (laneVal s rs2 k).im.toInt
          + (laneVal s rs1 k).im.toInt * (laneVal s rs2 k).re.toInt)) / 2 ^ 32)⟩

/-- R203 (decisions D28, D30): the index written is the least of a lane of greatest magnitude (how an index is written
is `IntegersAreWrittenAsIntEncSays`). The premise is the invariant's bound on `VLEN`. -/
def Obligations.IamaxResult : Prop :=
  ∀ (s : State) (rd : SReg) (rs1 : VReg), 1 ≤ s.params.vlen → VReadable s rs1 →
    ∃ j, j < s.params.vlen ∧
      (∀ m, m < s.params.vlen → mag2 (laneVal s rs1 m) ≤ mag2 (laneVal s rs1 j)) ∧
      (∀ m, m < j → mag2 (laneVal s rs1 m) < mag2 (laneVal s rs1 j)) ∧
      CompletesScalar (.iamax rd rs1) s rd ⟨intHalf s.params.intEnc j, 0#64⟩

/-- R204, R205 (decisions D22, D29; which function the root is, is a parameter, log 9): the wrapped sum of the lanes,
and of their magnitude roots. -/
def Obligations.SumAsumResults : Prop :=
  ∀ (s : State) (rd : SReg) (rs1 : VReg), VReadable s rs1 →
    CompletesScalar (.sum rd rs1) s rd
      ⟨wrap64 (∑ k ∈ Finset.range s.params.vlen, (laneVal s rs1 k).re.toInt),
        wrap64 (∑ k ∈ Finset.range s.params.vlen, (laneVal s rs1 k).im.toInt)⟩ ∧
    CompletesScalar (.asum rd rs1) s rd
      ⟨wrap64 (∑ k ∈ Finset.range s.params.vlen,
        ((if s.params.isqrtFn = .reference then isqrtRef else Config.ownIsqrt)
          ((laneVal s rs1 k).re.toInt ^ 2 + (laneVal s rs1 k).im.toInt ^ 2).toNat : Int)), 0#64⟩

/-- R221, R222, R223: every lane with the same scalar; sum and difference saturate per half, the product is narrowed
by one floor and wrap per half. -/
def Obligations.BroadcastResults : Prop :=
  ∀ (s : State) (rd rs1 : VReg) (rs2 : SReg),
    subopOf (.vsadd rd rs1 rs2) = 0x18#8 ∧ subopOf (.vssub rd rs1 rs2) = 0x19#8 ∧
    subopOf (.vsmul rd rs1 rs2) = 0x1A#8 ∧ EmptyVectorOrScalarFaults (.vsadd rd rs1 rs2) s rs1 rs2 ∧
    EmptyVectorOrScalarFaults (.vssub rd rs1 rs2) s rs1 rs2 ∧
    EmptyVectorOrScalarFaults (.vsmul rd rs1 rs2) s rs1 rs2 ∧
    (VReadable s rs1 → sValued s rs2 = true →
      CompletesVector (.vsadd rd rs1 rs2) s rd (fun k =>
        ⟨sat64 ((laneVal s rs1 k).re.toInt + (sVal s rs2).re.toInt),
          sat64 ((laneVal s rs1 k).im.toInt + (sVal s rs2).im.toInt)⟩) ∧
      CompletesVector (.vssub rd rs1 rs2) s rd (fun k =>
        ⟨sat64 ((laneVal s rs1 k).re.toInt - (sVal s rs2).re.toInt),
          sat64 ((laneVal s rs1 k).im.toInt - (sVal s rs2).im.toInt)⟩) ∧
      CompletesVector (.vsmul rd rs1 rs2) s rd (fun k =>
        ⟨wrap64 (((laneVal s rs1 k).re.toInt * (sVal s rs2).re.toInt
            - (laneVal s rs1 k).im.toInt * (sVal s rs2).im.toInt) / 2 ^ 32),
          wrap64 (((laneVal s rs1 k).re.toInt * (sVal s rs2).im.toInt
            + (laneVal s rs1 k).im.toInt * (sVal s rs2).re.toInt) / 2 ^ 32)⟩))

/-- R226, R30 (decision D34): one lane gets the scalar and every other lane of the register keeps what it had, a value
or none; an index not below `VLEN` takes `LaneIndexFault`, before the scalar is read; an unreadable scalar takes
`UninitializedRead`. -/
def Obligations.VsloadResult : Prop :=
  ∀ (s : State) (rd : VReg) (rs2 : SReg) (idx : BitVec 16),
    (idx.toNat < s.params.vlen → SReadable s rs2 →
      ∃ t, exec (.vsload rd rs2 idx) s = .next t ∧ t.pc = s.pc + 1 ∧
        laneAt t rd idx.toNat = some (if rd = 0 then Cplx.zero else sVal s rs2) ∧
        (∀ k, k < s.params.vlen → k ≠ idx.toNat → laneAt t rd k = laneAt s rd k) ∧
        (∀ r, r ≠ rd → SameVector s t r) ∧ (∀ r, SameScalar s t r) ∧ SameBytes s t ∧ SameRest s t) ∧
    (s.params.vlen ≤ idx.toNat → TakesFault (.vsload rd rs2 idx) s (.laneIndexFault idx.toNat)) ∧
    (idx.toNat < s.params.vlen → sValued s rs2 = false →
      TakesFault (.vsload rd rs2 idx) s (.uninitializedRead (.scalar rs2)))

/-! ### I-type -/

/-- R241, R242: the immediate's halves are the signed fields `w[44:0]` and `w[89:45]` times 2^9, exactly; `rs1` must
be zero; no register is read, and no state makes the instruction fault. -/
def Obligations.CloadiResult : Prop :=
  (∀ (rd : SReg) (re45 im45 : BitVec 45),
    subopOf (.cloadi rd re45 im45) = 0x00#8 ∧ (encode (.cloadi rd re45 im45)).extractLsb' 0 45 = re45 ∧
    (encode (.cloadi rd re45 im45)).extractLsb' 45 45 = im45 ∧
    (encode (.cloadi rd re45 im45)).extractLsb' 90 3 = 0#3 ∧
    ∃ c : Cplx, c.re.toInt = re45.toInt * 2 ^ 9 ∧ c.im.toInt = im45.toInt * 2 ^ 9 ∧
      ∀ s : State, CompletesScalar (.cloadi rd re45 im45) s rd c) ∧
  (∀ w : Word, w.extractLsb' 112 16 = 0x0200#16 → w.extractLsb' 90 3 ≠ 0#3 → decode w = none)

/-- R243, R245: sum and difference with the immediate, each half saturating on its own; the register is the
minuend. -/
def Obligations.CaddICsubIResults : Prop :=
  ∀ (s : State) (rd rs1 : SReg) (re45 im45 : BitVec 45),
    subopOf (.caddI rd rs1 re45 im45) = 0x01#8 ∧ subopOf (.csubI rd rs1 re45 im45) = 0x03#8 ∧
    EmptyScalarFaults (.caddI rd rs1 re45 im45) s rs1 ∧ EmptyScalarFaults (.csubI rd rs1 re45 im45) s rs1 ∧
    (sValued s rs1 = true →
      CompletesScalar (.caddI rd rs1 re45 im45) s rd
        ⟨sat64 ((sVal s rs1).re.toInt + re45.toInt * 2 ^ 9), sat64 ((sVal s rs1).im.toInt + im45.toInt * 2 ^ 9)⟩ ∧
      CompletesScalar (.csubI rd rs1 re45 im45) s rd
        ⟨sat64 ((sVal s rs1).re.toInt - re45.toInt * 2 ^ 9), sat64 ((sVal s rs1).im.toInt - im45.toInt * 2 ^ 9)⟩)

/-- R244: the exact product with the immediate, floor at the low end, saturation per half at the high end. -/
def Obligations.CmulIResult : Prop :=
  ∀ (s : State) (rd rs1 : SReg) (re45 im45 : BitVec 45),
    subopOf (.cmulI rd rs1 re45 im45) = 0x02#8 ∧ EmptyScalarFaults (.cmulI rd rs1 re45 im45) s rs1 ∧
    (sValued s rs1 = true → CompletesScalar (.cmulI rd rs1 re45 im45) s rd
      ⟨sat64 (((sVal s rs1).re.toInt * (re45.toInt * 2 ^ 9) - (sVal s rs1).im.toInt * (im45.toInt * 2 ^ 9)) / 2 ^ 32),
        sat64 (((sVal s rs1).re.toInt * (im45.toInt * 2 ^ 9) + (sVal s rs1).im.toInt * (re45.toInt * 2 ^ 9))
          / 2 ^ 32)⟩)

/-- R249 (decision D22 for the saturation): both halves times the real immediate. -/
def Obligations.CscaleIResult : Prop :=
  ∀ (s : State) (rd rs1 : SReg) (re45 : BitVec 45), SReadable s rs1 →
    CompletesScalar (.cscaleI rd rs1 re45) s rd
      ⟨sat64 ((sVal s rs1).re.toInt * (re45.toInt * 2 ^ 9) / 2 ^ 32),
        sat64 ((sVal s rs1).im.toInt * (re45.toInt * 2 ^ 9) / 2 ^ 32)⟩

/-- R247, R248: the register or the converted immediate, whichever has the greater, respectively smaller magnitude;
ties pick the register. -/
def Obligations.CmaxabsICminabsIResults : Prop :=
  ∀ (s : State) (rd rs1 : SReg) (re45 im45 : BitVec 45),
    subopOf (.cmaxabsI rd rs1 re45 im45) = 0x05#8 ∧ subopOf (.cminabsI rd rs1 re45 im45) = 0x06#8 ∧
    EmptyScalarFaults (.cmaxabsI rd rs1 re45 im45) s rs1 ∧ EmptyScalarFaults (.cminabsI rd rs1 re45 im45) s rs1 ∧
    (sValued s rs1 = true →
      let c : Cplx := ⟨wrap64 (re45.toInt * 2 ^ 9), wrap64 (im45.toInt * 2 ^ 9)⟩
      let magC : Int := (re45.toInt * 2 ^ 9) ^ 2 + (im45.toInt * 2 ^ 9) ^ 2
      let magA : Int := (sVal s rs1).re.toInt ^ 2 + (sVal s rs1).im.toInt ^ 2
      CompletesScalar (.cmaxabsI rd rs1 re45 im45) s rd (if magC > magA then c else sVal s rs1) ∧
      CompletesScalar (.cminabsI rd rs1 re45 im45) s rd (if magC < magA then c else sVal s rs1))

/-! ### J-type -/

/-- R261 (decision D27: any of the 128 bits; decision D13: the case not taken): `jrel` changes the pc and nothing
else, from its own number by the signed offset, or on by one word. -/
def Obligations.JrelResult : Prop :=
  ∀ (s : State) (off : BitVec 33), SReadable s 1 →
    exec (.jrel off) s =
      .next { s with pc := if (sVal s 1).re ≠ 0#64 ∨ (sVal s 1).im ≠ 0#64 then s.pc + off.toInt else s.pc + 1 }

/-! ### S-type -/

/-- R276, R277, R52 (decision D11 for what a trap is): the element at row `y16`, column `x16` goes to the register bit
for bit; a coordinate not below `SIDE` takes `OutOfBounds`, an unreadable element `UninitializedRead`. -/
def Obligations.SldXyResult : Prop :=
  ∀ (s : State) (rd : SReg) (mbid : BitVec 3) (x16 y16 : BitVec 16), mbid.toNat < 4 →
    (y16.toNat < s.params.n * s.params.vlen → x16.toNat < s.params.n * s.params.vlen →
      ElemReadable s mbid.toNat y16.toNat x16.toNat →
        CompletesScalar (.sldXy rd mbid x16 y16) s rd (elemVal s mbid.toNat y16.toNat x16.toNat)) ∧
    (s.params.n * s.params.vlen ≤ y16.toNat ∨ s.params.n * s.params.vlen ≤ x16.toNat →
      TakesFault (.sldXy rd mbid x16 y16) s (.outOfBounds mbid.toNat y16.toNat x16.toNat)) ∧
    (y16.toNat < s.params.n * s.params.vlen → x16.toNat < s.params.n * s.params.vlen →
      elemValued s mbid.toNat y16.toNat x16.toNat = false →
        TakesFault (.sldXy rd mbid x16 y16) s (.uninitializedRead (.element mbid.toNat y16.toNat x16.toNat)))

/-- R278, R53 (decision D11 for what a trap is): the register goes to the element at row `y16`, column `x16`; every
byte outside that element's sixteen, every register and everything else is unchanged; the bounds are checked before
the register is read. -/
def Obligations.SstXyResult : Prop :=
  ∀ (s : State) (rs : SReg) (mbid : BitVec 3) (x16 y16 : BitVec 16), mbid.toNat < 4 →
    (y16.toNat < s.params.n * s.params.vlen → x16.toNat < s.params.n * s.params.vlen → SReadable s rs →
      ∃ t, exec (.sstXy rs mbid x16 y16) s = .next t ∧ t.pc = s.pc + 1 ∧
        elemAt t mbid.toNat y16.toNat x16.toNat = some (sVal s rs) ∧
        (∀ a, a < elemCell s.params mbid.toNat y16.toNat x16.toNat ∨
            elemCell s.params mbid.toNat y16.toNat x16.toNat + 16 ≤ a →
          Memory.lookup t.mem a = Memory.lookup s.mem a) ∧
        (∀ r, SameScalar s t r) ∧ (∀ r, SameVector s t r) ∧ SameRest s t) ∧
    (s.params.n * s.params.vlen ≤ y16.toNat ∨ s.params.n * s.params.vlen ≤ x16.toNat →
      TakesFault (.sstXy rs mbid x16 y16) s (.outOfBounds mbid.toNat y16.toNat x16.toNat)) ∧
    (y16.toNat < s.params.n * s.params.vlen → x16.toNat < s.params.n * s.params.vlen → sValued s rs = false →
      TakesFault (.sstXy rs mbid x16 y16) s (.uninitializedRead (.scalar rs)))

/-- R60, R93, R271, R272, R30 (decision D31 for the lanes from `L` on, log 8): lanes `0 .. L-1` get the elements of the
row or column, and the lanes from `L` on lose their value. The premise on the parameters is the invariant's. -/
def Obligations.VldResult : Prop :=
  ∀ (s : State) (rd : VReg) (mbid : BitVec 3) (rc : Dir) (idx16 len16 : BitVec 16) (L : Nat) (E : Nat → Nat × Nat),
    IsAccess s.params rc idx16 len16 L E → s.params.wf → mbid.toNat < 4 → L ≤ s.params.vlen →
    idx16.toNat < s.params.n * s.params.vlen → (∀ k, k < L → ElemReadable s mbid.toNat (E k).1 (E k).2) →
    ∃ t, exec (.vld rd mbid rc idx16 len16) s = .next t ∧ t.pc = s.pc + 1 ∧
      (∀ k, k < L →
        laneAt t rd k = some (if rd = 0 then Cplx.zero else elemVal s mbid.toNat (E k).1 (E k).2)) ∧
      (∀ k, L ≤ k → k < s.params.vlen → rd ≠ 0 → laneAt t rd k = none) ∧
      (∀ r, r ≠ rd → SameVector s t r) ∧ (∀ r, SameScalar s t r) ∧ SameBytes s t ∧ SameRest s t

/-- R60, R93, R271, R274: lanes `0 .. L-1` go to the elements of the row or column; every byte outside those elements,
every register and everything else is unchanged. The premise on the parameters is the invariant's. -/
def Obligations.VstResult : Prop :=
  ∀ (s : State) (rs : VReg) (mbid : BitVec 3) (rc : Dir) (idx16 len16 : BitVec 16) (L : Nat) (E : Nat → Nat × Nat),
    IsAccess s.params rc idx16 len16 L E → s.params.wf → mbid.toNat < 4 → L ≤ s.params.vlen →
    idx16.toNat < s.params.n * s.params.vlen → LanesReadable s rs L →
    ∃ t, exec (.vst rs mbid rc idx16 len16) s = .next t ∧ t.pc = s.pc + 1 ∧
      (∀ k, k < L → elemAt t mbid.toNat (E k).1 (E k).2 = some (laneVal s rs k)) ∧
      (∀ a, (∀ k, k < L →
          a < elemCell s.params mbid.toNat (E k).1 (E k).2 ∨ elemCell s.params mbid.toNat (E k).1 (E k).2 + 16 ≤ a) →
        Memory.lookup t.mem a = Memory.lookup s.mem a) ∧
      (∀ r, SameScalar s t r) ∧ (∀ r, SameVector s t r) ∧ SameRest s t

/-- R272, R274, R301, R303 (decisions D10, D11, D17, D31): the checks of `vld` and `vst` in their order: the bank number
(an ill-formed one, which no legal word holds, log 28), the length, the fixed coordinate; then, in `vld`, the first
element that holds no value, in rising `k`, and in `vst` the first lane that holds none. The fault taken changes
nothing but the record. -/
def Obligations.VectorAccessFaults : Prop :=
  ∀ (s : State) (r : VReg) (mbid : BitVec 3) (rc : Dir) (idx16 len16 : BitVec 16) (L : Nat) (E : Nat → Nat × Nat),
    IsAccess s.params rc idx16 len16 L E →
    (4 ≤ mbid.toNat →
      TakesFault (.vld r mbid rc idx16 len16) s (.illegalInstruction (encode (.vld r mbid rc idx16 len16))) ∧
      TakesFault (.vst r mbid rc idx16 len16) s (.illegalInstruction (encode (.vst r mbid rc idx16 len16)))) ∧
    (mbid.toNat < 4 → s.params.vlen < L →
      TakesFault (.vld r mbid rc idx16 len16) s (.vectorLengthFault L) ∧
      TakesFault (.vst r mbid rc idx16 len16) s (.vectorLengthFault L)) ∧
    (mbid.toNat < 4 → L ≤ s.params.vlen → s.params.n * s.params.vlen ≤ idx16.toNat →
      TakesFault (.vld r mbid rc idx16 len16) s (.outOfBounds mbid.toNat (E 0).1 (E 0).2) ∧
      TakesFault (.vst r mbid rc idx16 len16) s (.outOfBounds mbid.toNat (E 0).1 (E 0).2)) ∧
    (s.params.wf → mbid.toNat < 4 → L ≤ s.params.vlen → idx16.toNat < s.params.n * s.params.vlen →
      ∀ k, k < L →
        (elemValued s mbid.toNat (E k).1 (E k).2 = false → (∀ j, j < k → ElemReadable s mbid.toNat (E j).1 (E j).2) →
          TakesFault (.vld r mbid rc idx16 len16) s (.uninitializedRead (.element mbid.toNat (E k).1 (E k).2))) ∧
        (laneValued s r k = false → LanesReadable s r k →
          TakesFault (.vst r mbid rc idx16 len16) s (.uninitializedRead (.lane r k))))

/-- R50, R53: the banks' elements do not overlap: an `sst.xy` leaves every other element of every bank alone, its
value and whether it holds one. -/
def Obligations.StoreLeavesOtherElementsAlone : Prop :=
  ∀ (s t : State) (rs : SReg) (mbid : BitVec 3) (x16 y16 : BitVec 16) (b r c : Nat),
    exec (.sstXy rs mbid x16 y16) s = .next t → r < s.params.n * s.params.vlen → c < s.params.n * s.params.vlen →
    (b, r, c) ≠ (mbid.toNat, y16.toNat, x16.toNat) →
      elemAt t b r c = elemAt s b r c

/-- R62: a load sees the latest store to the same element: what `sst.xy` puts into an element `sld.xy` brings back,
and what `vst` puts along a row or column `vld` brings back lane by lane. -/
def Obligations.LoadSeesTheLatestStore : Prop :=
  (∀ (s : State) (rs rd : SReg) (mbid : BitVec 3) (x16 y16 : BitVec 16), mbid.toNat < 4 →
    y16.toNat < s.params.n * s.params.vlen → x16.toNat < s.params.n * s.params.vlen → SReadable s rs →
    ∃ t u, exec (.sstXy rs mbid x16 y16) s = .next t ∧ exec (.sldXy rd mbid x16 y16) t = .next u ∧
      u.fault = s.fault ∧ sAt u rd = some (if rd = 0 then Cplx.zero else sVal s rs)) ∧
  (∀ (s : State) (rs rd : VReg) (mbid : BitVec 3) (rc : Dir) (idx16 len16 : BitVec 16) (L : Nat)
      (E : Nat → Nat × Nat), IsAccess s.params rc idx16 len16 L E → s.params.wf →
    mbid.toNat < 4 → L ≤ s.params.vlen → idx16.toNat < s.params.n * s.params.vlen → LanesReadable s rs L →
    ∃ t u, exec (.vst rs mbid rc idx16 len16) s = .next t ∧ exec (.vld rd mbid rc idx16 len16) t = .next u ∧
      u.fault = s.fault ∧
      ∀ k, k < L → laneAt u rd k = some (if rd = 0 then Cplx.zero else laneVal s rs k))

/-- R54: an element occupies sixteen bytes: Re at the lower address and Im at the higher, each little-endian, so that
byte `j` is bits `[8j+7 : 8j]` of `Im ++ Re`: in every element that holds a value, in what an `sst.xy` leaves, and in
what an element reads as. -/
def Obligations.ElementBytesAreLittleEndian : Prop :=
  (∀ (s : State) (b r c : Nat) (x : Cplx), elemAt s b r c = some x ↔
    ∀ j, j < 16 → Memory.lookup s.mem (elemCell s.params b r c + j) = some ((x.im ++ x.re).extractLsb' (8 * j) 8)) ∧
  (∀ (s t : State) (rs : SReg) (mbid : BitVec 3) (x16 y16 : BitVec 16), mbid.toNat < 4 → s.fault = none →
    exec (.sstXy rs mbid x16 y16) s = .next t → t.fault = none →
    ∀ j, j < 16 → Memory.lookup t.mem (elemCell s.params mbid.toNat y16.toNat x16.toNat + j) =
      some (((sVal s rs).im ++ (sVal s rs).re).extractLsb' (8 * j) 8))

/-- R58, R344 (decisions D32, D35; the `BANK_BASE`s at reset are log 7): `BANK_LAYOUT` places the elements for the host
and for nobody else: whatever it is, an instruction does the same; its recommended value is row-major; the host reads
byte `j` of an element, and supplies it, at the address given plus `j`. -/
def Obligations.BankLayoutPlacesElementsForTheHostOnly : Prop :=
  (∀ (i : Instr) (s t : State) (l : BankLayout), exec i s = .next t →
    exec i (withLayout s l) = .next (withLayout t l)) ∧
  (∀ (p : Params) (base : Vector Nat 4) (b r c : Nat) (hb : b < 4), p.layout = .rowMajor base →
    layoutAddr p b r c = some (base[b] + 16 * (r * (p.n * p.vlen) + c))) ∧
  (∀ (s : State) (b r c a j : Nat) (x : Cplx), LayoutSeparates s.params → b < 4 → r < s.params.n * s.params.vlen →
    c < s.params.n * s.params.vlen → layoutAddr s.params b r c = some a → elemAt s b r c = some x → j < 16 →
      hostRead s (a + j) = some ((x.im ++ x.re).extractLsb' (8 * j) 8)) ∧
  (∀ (s : State) (image : List Host.Cell) (b r c a : Nat) (x : Cplx), b < 4 → r < s.params.n * s.params.vlen →
    c < s.params.n * s.params.vlen → layoutAddr s.params b r c = some a →
    (∀ j, j < 16 → Memory.lookup image (a + j) = some ((x.im ++ x.re).extractLsb' (8 * j) 8)) →
      elemAt (loadImage s image) b r c = some x)
end

