-- ==== Sys2Proof/Laws/Memory.lean ====
section
/-! SUPPORT. Sys2Proof/Laws/Memory.lean: what the operations over the list of cells do: reading back, leaving other
bytes alone, keeping the canonical form. -/

namespace Sys2Proof.Machine

/-- Reading after a write: the byte written at its address, every other address as before. -/
theorem Memory.lookup_store (m : List Host.Cell) (a : Nat) (b : Byte) (x : Nat) :
    Memory.lookup (Memory.store m a b) x = if x = a then some b else Memory.lookup m x := by
  induction m with
  | nil => simp [Memory.store, Memory.lookup, eq_comm]
  | cons hd m ih =>
    obtain ⟨k, c⟩ := hd
    simp only [Memory.store]
    split
    · simp only [Memory.lookup]; split <;> simp_all [eq_comm]
    · split
      · subst_vars; simp only [Memory.lookup]; split <;> simp_all [eq_comm]
      · simp only [Memory.lookup, ih]
        split <;> split <;> simp_all

/-- The addresses a write leaves in the list: the old ones and its own. -/
theorem Memory.mem_store {m : List Host.Cell} {a : Nat} {b : Byte} {x : Host.Cell} (h : x ∈ Memory.store m a b) :
    x.1 = a ∨ x ∈ m := by
  induction m with
  | nil => simp_all [Memory.store]
  | cons hd m ih =>
    obtain ⟨k, c⟩ := hd
    simp only [Memory.store] at h
    split at h
    · rcases List.mem_cons.1 h with rfl | h
      · exact .inl rfl
      · exact .inr h
    · split at h
      · rcases List.mem_cons.1 h with rfl | h
        · exact .inl rfl
        · exact .inr (List.mem_cons_of_mem _ h)
      · simp only [List.mem_cons] at h ⊢
        rcases h with h | h
        · exact .inr (.inl h)
        · rcases ih h with h | h
          · exact .inl h
          · exact .inr (.inr h)

/-- A write keeps the canonical form. -/
theorem Memory.store_wf {m : List Host.Cell} (h : Memory.wf m) (a : Nat) (b : Byte) :
    Memory.wf (Memory.store m a b) := by
  induction m with
  | nil => simp [Memory.store, Memory.wf]
  | cons hd m ih =>
    obtain ⟨k, c⟩ := hd
    rw [Memory.wf, List.pairwise_cons] at h
    simp only [Memory.store]
    split
    · rename_i hak
      refine List.pairwise_cons.2 ⟨fun y hy => ?_, List.pairwise_cons.2 h⟩
      rcases List.mem_cons.1 hy with rfl | hy
      · exact hak
      · exact lt_trans hak (h.1 y hy)
    · split
      · subst_vars; exact List.pairwise_cons.2 h
      · refine List.pairwise_cons.2 ⟨fun y hy => ?_, ih h.2⟩
        rcases Memory.mem_store hy with hy | hy
        · simp only at *; omega
        · exact h.1 y hy

/-- Reading after a run of writes. -/
theorem Memory.lookup_storeBytes (m : List Host.Cell) (a : Nat) (f : Nat → Byte) (n x : Nat) :
    Memory.lookup (Memory.storeBytes m a f n) x =
      if a ≤ x ∧ x < a + n then some (f (x - a)) else Memory.lookup m x := by
  induction n with
  | zero => simp only [Memory.storeBytes]; rw [if_neg (by omega)]
  | succ n ih =>
    rw [Memory.storeBytes, Memory.lookup_store, ih]
    by_cases h : x = a + n
    · subst h; rw [if_pos rfl, if_pos (by omega), Nat.add_sub_cancel_left]
    · rw [if_neg h]
      by_cases h2 : a ≤ x ∧ x < a + n
      · rw [if_pos h2, if_pos (by omega)]
      · rw [if_neg h2, if_neg (by omega)]

/-- A run of writes keeps the canonical form. -/
theorem Memory.storeBytes_wf {m : List Host.Cell} (h : Memory.wf m) (a : Nat) (f : Nat → Byte) (n : Nat) :
    Memory.wf (Memory.storeBytes m a f n) := by
  induction n with
  | zero => exact h
  | succ n ih => exact Memory.store_wf ih _ _

/-- Replacing an element keeps the canonical form. -/
theorem Memory.storeElem_wf {m : List Host.Cell} (h : Memory.wf m) (a : Nat) (c : Cplx) :
    Memory.wf (Memory.storeElem m a c) := Memory.storeBytes_wf h a _ _

/-- Reading one byte after an element has been replaced. -/
theorem Memory.lookup_storeElem (m : List Host.Cell) (a : Nat) (c : Cplx) (x : Nat) :
    Memory.lookup (Memory.storeElem m a c) x =
      if a ≤ x ∧ x < a + 16 then some (elementByte c (x - a)) else Memory.lookup m x :=
  Memory.lookup_storeBytes ..

/-- The bytes of a half, put together again, are the half (R54). -/
theorem halfOfBytes_bytes (h : Half) : (halfOfBytes fun j => h.extractLsb' (8 * j) 8) = h := by
  apply BitVec.eq_of_getLsbD_eq
  intro i hi
  simp only [halfOfBytes, BitVec.getLsbD_append, BitVec.getLsbD_extractLsb']
  repeat' split
  all_goals (rw [decide_eq_true (by omega), Bool.true_and]; congr 1; omega)

/-- Byte `j` of the half put together from bytes is the `j`-th of them (R54). -/
theorem extract_halfOfBytes (f : Nat → Byte) {j : Nat} (hj : j < 8) :
    (halfOfBytes f).extractLsb' (8 * j) 8 = f j := by
  apply BitVec.eq_of_getLsbD_eq
  intro i hi
  simp only [halfOfBytes, BitVec.getLsbD_append, BitVec.getLsbD_extractLsb', hi, decide_true, Bool.true_and]
  interval_cases j <;> repeat' split
  all_goals first | omega | (congr 1; omega)

/-- The state after reset has a memory in canonical form. -/
theorem Memory.wf_reset : Memory.wf State.reset.mem := List.Pairwise.nil

end Sys2Proof.Machine
end

