-- ==== Sys2Proof/Laws/State.lean ====
section
/-! SUPPORT. Sys2Proof/Laws/State.lean: one lemma per field per update of the state, so that no proof unfolds a
record update. -/

namespace Sys2Proof.Machine

/-! #### nextPc -/

@[simp] theorem nextPc_params (s : State) :
    (nextPc s).params = s.params := rfl
@[simp] theorem nextPc_prog (s : State) :
    (nextPc s).prog = s.prog := rfl
@[simp] theorem nextPc_pc (s : State) :
    (nextPc s).pc = s.pc + 1 := rfl
@[simp] theorem nextPc_sregs (s : State) :
    (nextPc s).sregs = s.sregs := rfl
@[simp] theorem nextPc_vregs (s : State) :
    (nextPc s).vregs = s.vregs := rfl
@[simp] theorem nextPc_mem (s : State) :
    (nextPc s).mem = s.mem := rfl
@[simp] theorem nextPc_fault (s : State) :
    (nextPc s).fault = s.fault := rfl

/-! #### jumpBy -/

@[simp] theorem jumpBy_params (off : Int) (s : State) :
    (jumpBy off s).params = s.params := rfl
@[simp] theorem jumpBy_prog (off : Int) (s : State) :
    (jumpBy off s).prog = s.prog := rfl
@[simp] theorem jumpBy_pc (off : Int) (s : State) :
    (jumpBy off s).pc = s.pc + off := rfl
@[simp] theorem jumpBy_sregs (off : Int) (s : State) :
    (jumpBy off s).sregs = s.sregs := rfl
@[simp] theorem jumpBy_vregs (off : Int) (s : State) :
    (jumpBy off s).vregs = s.vregs := rfl
@[simp] theorem jumpBy_mem (off : Int) (s : State) :
    (jumpBy off s).mem = s.mem := rfl
@[simp] theorem jumpBy_fault (off : Int) (s : State) :
    (jumpBy off s).fault = s.fault := rfl

/-! #### writeS -/

@[simp] theorem writeS_params (s : State) (r : SReg) (c : Cplx) :
    (writeS s r c).params = s.params := rfl
@[simp] theorem writeS_prog (s : State) (r : SReg) (c : Cplx) :
    (writeS s r c).prog = s.prog := rfl
@[simp] theorem writeS_pc (s : State) (r : SReg) (c : Cplx) :
    (writeS s r c).pc = s.pc := rfl
@[simp] theorem writeS_sregs (s : State) (r : SReg) (c : Cplx) :
    (writeS s r c).sregs = if r = 0 then s.sregs else s.sregs.set r (some c) := by
  simp only [writeS]
@[simp] theorem writeS_vregs (s : State) (r : SReg) (c : Cplx) :
    (writeS s r c).vregs = s.vregs := rfl
@[simp] theorem writeS_mem (s : State) (r : SReg) (c : Cplx) :
    (writeS s r c).mem = s.mem := rfl
@[simp] theorem writeS_fault (s : State) (r : SReg) (c : Cplx) :
    (writeS s r c).fault = s.fault := rfl

/-! #### setLanes -/

@[simp] theorem setLanes_params (s : State) (r : VReg) (f : Nat → Reg) :
    (setLanes s r f).params = s.params := rfl
@[simp] theorem setLanes_prog (s : State) (r : VReg) (f : Nat → Reg) :
    (setLanes s r f).prog = s.prog := rfl
@[simp] theorem setLanes_pc (s : State) (r : VReg) (f : Nat → Reg) :
    (setLanes s r f).pc = s.pc := rfl
@[simp] theorem setLanes_sregs (s : State) (r : VReg) (f : Nat → Reg) :
    (setLanes s r f).sregs = s.sregs := rfl
@[simp] theorem setLanes_vregs (s : State) (r : VReg) (f : Nat → Reg) :
    (setLanes s r f).vregs = if r = 0 then s.vregs else s.vregs.set r ((List.range s.params.vlen).map f) := by
  simp only [setLanes]
@[simp] theorem setLanes_mem (s : State) (r : VReg) (f : Nat → Reg) :
    (setLanes s r f).mem = s.mem := rfl
@[simp] theorem setLanes_fault (s : State) (r : VReg) (f : Nat → Reg) :
    (setLanes s r f).fault = s.fault := rfl

/-! #### writeV -/

@[simp] theorem writeV_params (s : State) (r : VReg) (f : Nat → Cplx) :
    (writeV s r f).params = s.params := rfl
@[simp] theorem writeV_prog (s : State) (r : VReg) (f : Nat → Cplx) :
    (writeV s r f).prog = s.prog := rfl
@[simp] theorem writeV_pc (s : State) (r : VReg) (f : Nat → Cplx) :
    (writeV s r f).pc = s.pc := rfl
@[simp] theorem writeV_sregs (s : State) (r : VReg) (f : Nat → Cplx) :
    (writeV s r f).sregs = s.sregs := rfl
theorem writeV_vregs (s : State) (r : VReg) (f : Nat → Cplx) :
    (writeV s r f).vregs = (setLanes s r fun k => some (f k)).vregs := rfl
@[simp] theorem writeV_mem (s : State) (r : VReg) (f : Nat → Cplx) :
    (writeV s r f).mem = s.mem := rfl
@[simp] theorem writeV_fault (s : State) (r : VReg) (f : Nat → Cplx) :
    (writeV s r f).fault = s.fault := rfl

/-! #### writeLane -/

@[simp] theorem writeLane_params (s : State) (r : VReg) (i : Nat) (c : Cplx) :
    (writeLane s r i c).params = s.params := rfl
@[simp] theorem writeLane_prog (s : State) (r : VReg) (i : Nat) (c : Cplx) :
    (writeLane s r i c).prog = s.prog := rfl
@[simp] theorem writeLane_pc (s : State) (r : VReg) (i : Nat) (c : Cplx) :
    (writeLane s r i c).pc = s.pc := rfl
@[simp] theorem writeLane_sregs (s : State) (r : VReg) (i : Nat) (c : Cplx) :
    (writeLane s r i c).sregs = s.sregs := rfl
theorem writeLane_vregs (s : State) (r : VReg) (i : Nat) (c : Cplx) :
    (writeLane s r i c).vregs = (setLanes s r fun k => if k = i then some c else laneAt s r k).vregs := rfl
@[simp] theorem writeLane_mem (s : State) (r : VReg) (i : Nat) (c : Cplx) :
    (writeLane s r i c).mem = s.mem := rfl
@[simp] theorem writeLane_fault (s : State) (r : VReg) (i : Nat) (c : Cplx) :
    (writeLane s r i c).fault = s.fault := rfl

/-! #### writePrefix -/

@[simp] theorem writePrefix_params (s : State) (r : VReg) (n : Nat) (f : Nat → Cplx) :
    (writePrefix s r n f).params = s.params := rfl
@[simp] theorem writePrefix_prog (s : State) (r : VReg) (n : Nat) (f : Nat → Cplx) :
    (writePrefix s r n f).prog = s.prog := rfl
@[simp] theorem writePrefix_pc (s : State) (r : VReg) (n : Nat) (f : Nat → Cplx) :
    (writePrefix s r n f).pc = s.pc := rfl
@[simp] theorem writePrefix_sregs (s : State) (r : VReg) (n : Nat) (f : Nat → Cplx) :
    (writePrefix s r n f).sregs = s.sregs := rfl
theorem writePrefix_vregs (s : State) (r : VReg) (n : Nat) (f : Nat → Cplx) :
    (writePrefix s r n f).vregs = (setLanes s r fun k => if k < n then some (f k) else none).vregs := rfl
@[simp] theorem writePrefix_mem (s : State) (r : VReg) (n : Nat) (f : Nat → Cplx) :
    (writePrefix s r n f).mem = s.mem := rfl
@[simp] theorem writePrefix_fault (s : State) (r : VReg) (n : Nat) (f : Nat → Cplx) :
    (writePrefix s r n f).fault = s.fault := rfl

/-! #### setElem -/

@[simp] theorem setElem_params (s : State) (b r c : Nat) (x : Cplx) :
    (setElem s b r c x).params = s.params := by
  simp only [setElem]
@[simp] theorem setElem_prog (s : State) (b r c : Nat) (x : Cplx) :
    (setElem s b r c x).prog = s.prog := by
  simp only [setElem]
@[simp] theorem setElem_pc (s : State) (b r c : Nat) (x : Cplx) :
    (setElem s b r c x).pc = s.pc := by
  simp only [setElem]
@[simp] theorem setElem_sregs (s : State) (b r c : Nat) (x : Cplx) :
    (setElem s b r c x).sregs = s.sregs := by
  simp only [setElem]
@[simp] theorem setElem_vregs (s : State) (b r c : Nat) (x : Cplx) :
    (setElem s b r c x).vregs = s.vregs := by
  simp only [setElem]
@[simp] theorem setElem_mem (s : State) (b r c : Nat) (x : Cplx) :
    (setElem s b r c x).mem = Memory.storeElem s.mem (elemCell s.params b r c) x := by
  simp only [setElem]
@[simp] theorem setElem_fault (s : State) (b r c : Nat) (x : Cplx) :
    (setElem s b r c x).fault = s.fault := by
  simp only [setElem]

end Sys2Proof.Machine
end

