-- ==== Sys2Proof/Laws/Ops.lean ====
section
/-! SUPPORT. Sys2Proof/Laws/Ops.lean: for each shared operation, what it can do, said once. -/

namespace Sys2Proof.Machine

/-! ### Ending an instruction -/

@[simp] theorem commit_ok (s t : State) : commit s (.ok t) = .next t := rfl
@[simp] theorem commit_error (s : State) (c : FaultCause) :
    commit s (.error c) = .next { s with fault := some ⟨s.pc, c⟩ } := rfl
@[simp] theorem ok_bind {α β : Type} (a : α) (f : α → Res β) : (Except.ok a >>= f : Res β) = f a := rfl
@[simp] theorem error_bind {α β : Type} (c : FaultCause) (f : α → Res β) :
    (Except.error c >>= f : Res β) = .error c := rfl

/-- A step of a meaning that answers a value, inverted. -/
theorem bind_eq_ok {α β : Type} {x : Res α} {f : α → Res β} {b : β} (h : (x >>= f) = .ok b) :
    ∃ a, x = .ok a ∧ f a = .ok b := by
  cases x with
  | error c => simp at h
  | ok a => exact ⟨a, rfl, h⟩

/-- A step of a meaning that raises a fault, inverted. -/
theorem bind_eq_error {α β : Type} {x : Res α} {f : α → Res β} {c : FaultCause} (h : (x >>= f) = .error c) :
    x = .error c ∨ ∃ a, x = .ok a ∧ f a = .error c := by
  cases x with
  | error c => left; simpa using h
  | ok a => exact .inr ⟨a, rfl, h⟩

/-- An instruction's end: the state it computed, or its fault recorded and nothing else changed. -/
theorem commit_eq_next {s t : State} {r : Res State} (h : commit s r = .next t) :
    r = .ok t ∨ ∃ c, r = .error c ∧ t = { s with fault := some ⟨s.pc, c⟩ } := by
  cases r with
  | error c => right; simp at h; exact ⟨c, rfl, h.symm⟩
  | ok a => left; simp at h; rw [h]

/-- An instruction's end is always a next state. -/
theorem commit_total (s : State) (r : Res State) : ∃ t, commit s r = .next t := by
  cases r with
  | error c => exact ⟨_, rfl⟩
  | ok a => exact ⟨a, rfl⟩

/-! ### The first fault of a sequence -/

theorem firstError_eq_none {α : Type} {f : Nat → Res α} {n : Nat} :
    firstError f n = none ↔ ∀ k, k < n → ∃ a, f k = .ok a := by
  induction n with
  | zero => simp [firstError]
  | succ n ih =>
    simp only [firstError]
    constructor
    · intro h k hk
      cases e : firstError f n with
      | some c => simp [e] at h
      | none =>
        rcases Nat.lt_succ_iff_lt_or_eq.1 hk with hk | rfl
        · exact ih.1 e k hk
        · cases e2 : f k with
          | ok a => exact ⟨a, rfl⟩
          | error c => simp [e, e2] at h
    · intro h
      rw [ih.2 fun k hk => h k (by omega)]
      obtain ⟨a, ha⟩ := h n (by omega)
      simp [ha]

/-- The fault found is that of the least index that raises one. -/
theorem firstError_eq_some {α : Type} {f : Nat → Res α} {n : Nat} {c : FaultCause} :
    firstError f n = some c ↔ ∃ k, k < n ∧ f k = .error c ∧ ∀ j, j < k → ∃ a, f j = .ok a := by
  induction n generalizing c with
  | zero => simp [firstError]
  | succ n ih =>
    simp only [firstError]
    cases e : firstError f n with
    | some d =>
      obtain ⟨k, hk, hf, hl⟩ := ih.1 e
      constructor
      · intro h
        obtain rfl : d = c := Option.some.inj h
        exact ⟨k, by omega, hf, hl⟩
      · rintro ⟨k', hk', hf', hl'⟩
        rcases lt_trichotomy k k' with h | rfl | h
        · obtain ⟨a, ha⟩ := hl' k h; rw [hf] at ha; cases ha
        · rw [hf] at hf'; cases hf'; rfl
        · obtain ⟨a, ha⟩ := hl k' h; rw [hf'] at ha; cases ha
    | none =>
      have hall := firstError_eq_none.1 e
      constructor
      · intro h
        cases e2 : f n with
        | ok a => simp [e2] at h
        | error d =>
          simp [e2] at h; subst h
          exact ⟨n, by omega, e2, hall⟩
      · rintro ⟨k, hk, hf, hl⟩
        rcases Nat.lt_succ_iff_lt_or_eq.1 hk with hk | rfl
        · obtain ⟨a, ha⟩ := hall k hk; rw [hf] at ha; cases ha
        · simp [hf]

/-! ### Reading a place -/

@[simp] theorem readPlace_some (p : Place) (c : Cplx) : readPlace p (some c) = .ok c := rfl
@[simp] theorem readPlace_none (p : Place) : readPlace p none = .error (.uninitializedRead p) := rfl

/-- Reading a place that holds a value yields it. -/
theorem readPlace_ok {o : Option Cplx} (h : o.isSome = true) (p : Place) :
    readPlace p o = .ok (o.getD Cplx.zero) := by
  cases o with
  | none => cases h
  | some c => rfl

/-- Reading a place without a value raises `UninitializedRead`. -/
theorem readPlace_error {o : Option Cplx} (h : o.isSome = false) (p : Place) :
    readPlace p o = .error (.uninitializedRead p) := by
  cases o with
  | none => rfl
  | some c => cases h

theorem readS_ok {s : State} {r : SReg} (h : SReadable s r) : readS s r = .ok (sVal s r) := readPlace_ok h _

theorem readS_error {s : State} {r : SReg} (h : sValued s r = false) :
    readS s r = .error (.uninitializedRead (.scalar r)) := readPlace_error h _

theorem readS_cases (s : State) (r : SReg) :
    (SReadable s r ∧ readS s r = .ok (sVal s r)) ∨
      (sValued s r = false ∧ readS s r = .error (.uninitializedRead (.scalar r))) := by
  cases h : sValued s r with
  | true => exact .inl ⟨h, readS_ok h⟩
  | false => exact .inr ⟨rfl, readS_error h⟩

theorem readLanes_ok {s : State} {r : VReg} {n : Nat} (h : LanesReadable s r n) :
    readLanes s r n = .ok (laneVal s r) := by
  have : firstError (readLane s r) n = none :=
    firstError_eq_none.2 fun k hk => ⟨_, readPlace_ok (h k hk) _⟩
  simp [readLanes, this]

/-- The lanes' read raises at the first lane without a value. -/
theorem readLanes_error {s : State} {r : VReg} {n k : Nat} (hk : k < n) (h : laneValued s r k = false)
    (hl : LanesReadable s r k) : readLanes s r n = .error (.uninitializedRead (.lane r k)) := by
  have : firstError (readLane s r) n = some (.uninitializedRead (.lane r k)) :=
    firstError_eq_some.2 ⟨k, hk, readPlace_error h _, fun j hj => ⟨_, readPlace_ok (hl j hj) _⟩⟩
  simp [readLanes, this]

/-- Where not all of the first `n` are true there is a first that is false. -/
theorem first_false (v : Nat → Bool) (n : Nat) :
    (∀ k, k < n → v k = true) ∨ ∃ k, k < n ∧ v k = false ∧ ∀ j, j < k → v j = true := by
  by_cases h : ∀ k, k < n → v k = true
  · exact .inl h
  · right
    have hex : ∃ k, k < n ∧ v k = false := by simpa using h
    obtain ⟨hk, hn⟩ := Nat.find_spec hex
    refine ⟨_, hk, hn, fun j hj => ?_⟩
    by_contra hc
    exact Nat.find_min hex hj ⟨by omega, by simpa using hc⟩

theorem readLanes_cases (s : State) (r : VReg) (n : Nat) :
    (LanesReadable s r n ∧ readLanes s r n = .ok (laneVal s r)) ∨
      ∃ k, k < n ∧ laneValued s r k = false ∧ LanesReadable s r k ∧
        readLanes s r n = .error (.uninitializedRead (.lane r k)) := by
  rcases first_false (laneValued s r) n with h | ⟨k, hk, hn, hl⟩
  · exact .inl ⟨h, readLanes_ok h⟩
  · exact .inr ⟨k, hk, hn, hl, readLanes_error hk hn hl⟩

theorem readV_ok {s : State} {r : VReg} (h : VReadable s r) : readV s r = .ok (laneVal s r) := readLanes_ok h

theorem readV_cases (s : State) (r : VReg) :
    (VReadable s r ∧ readV s r = .ok (laneVal s r)) ∨
      ∃ k, k < s.params.vlen ∧ laneValued s r k = false ∧ LanesReadable s r k ∧
        readV s r = .error (.uninitializedRead (.lane r k)) := readLanes_cases ..

/-! ### What the accessors read -/

@[simp] theorem sAt_zero (s : State) : sAt s 0 = some Cplx.zero := rfl
@[simp] theorem laneAt_zero (s : State) (k : Nat) : laneAt s 0 k = some Cplx.zero := rfl

theorem sVal_of_sAt {s : State} {r : SReg} {c : Cplx} (h : sAt s r = some c) : sVal s r = c := by simp [sVal, h]
theorem sValued_of_sAt {s : State} {r : SReg} {c : Cplx} (h : sAt s r = some c) : sValued s r = true := by
  simp [sValued, h]
theorem laneVal_of_laneAt {s : State} {r : VReg} {k : Nat} {c : Cplx} (h : laneAt s r k = some c) :
    laneVal s r k = c := by simp [laneVal, h]
theorem laneValued_of_laneAt {s : State} {r : VReg} {k : Nat} {c : Cplx} (h : laneAt s r k = some c) :
    laneValued s r k = true := by simp [laneValued, h]

/-- A register that can be read holds the value read. -/
theorem sAt_of_readable {s : State} {r : SReg} (h : SReadable s r) : sAt s r = some (sVal s r) := by
  simp only [SReadable, sValued, Option.isSome_iff_exists] at h
  obtain ⟨c, h⟩ := h
  rw [h, sVal_of_sAt h]

/-- A lane that can be read holds the value read. -/
theorem laneAt_of_readable {s : State} {r : VReg} {k : Nat} (h : laneValued s r k = true) :
    laneAt s r k = some (laneVal s r k) := by
  simp only [laneValued, Option.isSome_iff_exists] at h
  obtain ⟨c, h⟩ := h
  rw [h, laneVal_of_laneAt h]

@[simp] theorem sAt_nextPc (s : State) (r : SReg) : sAt (nextPc s) r = sAt s r := rfl
@[simp] theorem laneAt_nextPc (s : State) (r : VReg) (k : Nat) : laneAt (nextPc s) r k = laneAt s r k := rfl
@[simp] theorem elemAt_nextPc (s : State) (b r c : Nat) : elemAt (nextPc s) b r c = elemAt s b r c := by
  simp only [elemAt, nextPc_params, nextPc_mem]

/-- States with the same scalar registers agree on every scalar register. -/
theorem sameScalar_of_sregs {s t : State} (h : t.sregs = s.sregs) (r : SReg) : SameScalar s t r := by
  simp only [SameScalar, sAt, h]

/-- States with the same vector registers agree on every lane. -/
theorem sameVector_of_vregs {s t : State} (h : t.vregs = s.vregs) (r : VReg) : SameVector s t r := fun k => by
  simp only [laneAt, h]

/-! ### Writing registers -/

theorem sAt_writeS (s : State) (rd : SReg) (c : Cplx) (r : SReg) :
    sAt (writeS s rd c) r = if r = rd then some (if rd = 0 then Cplx.zero else c) else sAt s r := by
  by_cases hd : rd = 0
  · subst hd
    by_cases h : r = 0
    · simp [h]
    · simp [sAt, h]
  · by_cases h : r = rd
    · subst h; simp [sAt, hd]
    · have h' : rd.val ≠ r.val := fun e => h (Fin.ext e.symm)
      simp [sAt, hd, h, h']

theorem laneAt_setLanes {s : State} {rd : VReg} {f : Nat → Reg} {k : Nat} (hk : k < s.params.vlen) :
    laneAt (setLanes s rd f) rd k = if rd = 0 then some Cplx.zero else f k := by
  by_cases h0 : rd = 0
  · simp [h0]
  · simp [laneAt, h0, hk, List.getD_eq_getElem?_getD]

/-- There is no lane from `VLEN` on. -/
theorem laneAt_setLanes_of_le {s : State} {rd : VReg} {f : Nat → Reg} {k : Nat} (h0 : rd ≠ 0)
    (hk : s.params.vlen ≤ k) : laneAt (setLanes s rd f) rd k = none := by
  simp [laneAt, h0, List.getD_eq_getElem?_getD, hk]

theorem sameVector_setLanes {s : State} {rd r : VReg} {f : Nat → Reg} (h : r ≠ rd) :
    SameVector s (setLanes s rd f) r := fun k => by
  by_cases hd : rd = 0
  · simp [laneAt, hd]
  · have h' : rd.val ≠ r.val := fun e => h (Fin.ext e.symm)
    simp [laneAt, hd, h']

/-- Writing lanes keeps the number of lanes of every vector register. -/
theorem setLanes_length {s : State} (h : ∀ r : VReg, (s.vregs[r]).length = s.params.vlen) (d : VReg) (f : Nat → Reg)
    (r : VReg) : ((setLanes s d f).vregs[r]).length = s.params.vlen := by
  rw [setLanes_vregs]
  split
  · exact h r
  · by_cases hr : d.val = r.val
    · simp [Fin.getElem_fin, hr]
    · simpa [Fin.getElem_fin, Vector.getElem_set_ne _ _ hr] using h r

end Sys2Proof.Machine
end

