-- ==== Sys2Proof/Laws/Shapes.lean ====
section
/-! SUPPORT. Sys2Proof/Laws/Shapes.lean: for each shape of instruction, what it answers: where its operands can be
read the state it computes, else the fault of the first operand that cannot be. The provers cite these and unfold no
meaning. -/

namespace Sys2Proof.Machine

/-- The outcome of taking `UninitializedRead` at a place. -/
abbrev raisesAt (s : State) (p : Place) : Out := takeFault (.uninitializedRead p) s

theorem scalarUnary_ok {f : Params → Cplx → Cplx} {rd rs1 : SReg} {s : State} (h : SReadable s rs1) :
    scalarUnary f rd rs1 s = .next (nextPc (writeS s rd (f s.params (sVal s rs1)))) := by
  simp [scalarUnary, readS_ok h]

theorem scalarUnary_cases (f : Params → Cplx → Cplx) (rd rs1 : SReg) (s : State) :
    (SReadable s rs1 ∧ scalarUnary f rd rs1 s = .next (nextPc (writeS s rd (f s.params (sVal s rs1))))) ∨
      (sValued s rs1 = false ∧ scalarUnary f rd rs1 s = raisesAt s (.scalar rs1)) := by
  rcases readS_cases s rs1 with ⟨h, e⟩ | ⟨h, e⟩ <;> simp [scalarUnary, e, h, takeFault, SReadable]

theorem scalarBinary_ok {f : Params → Cplx → Cplx → Cplx} {rd rs1 rs2 : SReg} {s : State} (h1 : SReadable s rs1)
    (h2 : SReadable s rs2) :
    scalarBinary f rd rs1 rs2 s = .next (nextPc (writeS s rd (f s.params (sVal s rs1) (sVal s rs2)))) := by
  simp [scalarBinary, readS_ok h1, readS_ok h2]

theorem scalarBinary_cases (f : Params → Cplx → Cplx → Cplx) (rd rs1 rs2 : SReg) (s : State) :
    (SReadable s rs1 ∧ SReadable s rs2 ∧
        scalarBinary f rd rs1 rs2 s = .next (nextPc (writeS s rd (f s.params (sVal s rs1) (sVal s rs2))))) ∨
      (sValued s rs1 = false ∧ scalarBinary f rd rs1 rs2 s = raisesAt s (.scalar rs1)) ∨
      (SReadable s rs1 ∧ sValued s rs2 = false ∧ scalarBinary f rd rs1 rs2 s = raisesAt s (.scalar rs2)) := by
  rcases readS_cases s rs1 with ⟨h, e⟩ | ⟨h, e⟩ <;> rcases readS_cases s rs2 with ⟨h2, e2⟩ | ⟨h2, e2⟩ <;>
    simp [scalarBinary, e, e2, h, h2, takeFault, SReadable]

theorem laneUnary_ok {f : Params → Cplx → Cplx} {rd rs1 : VReg} {s : State} (h : VReadable s rs1) :
    laneUnary f rd rs1 s = .next (nextPc (writeV s rd fun k => f s.params (laneVal s rs1 k))) := by
  simp [laneUnary, readV_ok h]

theorem laneBinary_ok {f : Params → Cplx → Cplx → Cplx} {rd rs1 rs2 : VReg} {s : State} (h1 : VReadable s rs1)
    (h2 : VReadable s rs2) :
    laneBinary f rd rs1 rs2 s =
      .next (nextPc (writeV s rd fun k => f s.params (laneVal s rs1 k) (laneVal s rs2 k))) := by
  simp [laneBinary, readV_ok h1, readV_ok h2]

theorem laneTernary_ok {f : Cplx → Cplx → Cplx → Cplx} {rd rs1 rs2 : VReg} {s : State} (h1 : VReadable s rs1)
    (h2 : VReadable s rs2) (hd : VReadable s rd) :
    laneTernary f rd rs1 rs2 s =
      .next (nextPc (writeV s rd fun k => f (laneVal s rd k) (laneVal s rs1 k) (laneVal s rs2 k))) := by
  simp [laneTernary, readV_ok h1, readV_ok h2, readV_ok hd]

theorem reduceUnary_ok {f : Params → (Nat → Cplx) → Cplx} {rd : SReg} {rs1 : VReg} {s : State}
    (h : VReadable s rs1) :
    reduceUnary f rd rs1 s = .next (nextPc (writeS s rd (f s.params (laneVal s rs1)))) := by
  simp [reduceUnary, readV_ok h]

theorem reduceBinary_ok {f : Params → (Nat → Cplx) → (Nat → Cplx) → Cplx} {rd : SReg} {rs1 rs2 : VReg} {s : State}
    (h1 : VReadable s rs1) (h2 : VReadable s rs2) :
    reduceBinary f rd rs1 rs2 s =
      .next (nextPc (writeS s rd (f s.params (laneVal s rs1) (laneVal s rs2)))) := by
  simp [reduceBinary, readV_ok h1, readV_ok h2]

theorem broadcast_ok {f : Params → Cplx → Cplx → Cplx} {rd rs1 : VReg} {rs2 : SReg} {s : State}
    (h1 : VReadable s rs1) (h2 : SReadable s rs2) :
    broadcast f rd rs1 rs2 s =
      .next (nextPc (writeV s rd fun k => f s.params (laneVal s rs1 k) (sVal s rs2))) := by
  simp [broadcast, readV_ok h1, readS_ok h2]

/-! ### What a shape can answer, whatever its operands

Each shape answers either the state of its write, moved on by one word, or `UninitializedRead` at one of its
operands, recorded. -/

/-- `t` is `s` with `UninitializedRead` recorded for a place that holds no value. -/
abbrev RaisedAt (s t : State) (p : Place) : Prop :=
  HoldsNothing s p ∧ t = { s with fault := some ⟨s.pc, .uninitializedRead p⟩ }

theorem scalarUnary_next {f : Params → Cplx → Cplx} {rd rs1 : SReg} {s t : State}
    (h : scalarUnary f rd rs1 s = .next t) :
    (∃ c, t = nextPc (writeS s rd c)) ∨ RaisedAt s t (.scalar rs1) := by
  rcases scalarUnary_cases f rd rs1 s with ⟨-, e⟩ | ⟨n, e⟩ <;> rw [e] at h <;> cases h
  · exact .inl ⟨_, rfl⟩
  · exact .inr ⟨n, rfl⟩

theorem scalarBinary_next {f : Params → Cplx → Cplx → Cplx} {rd rs1 rs2 : SReg} {s t : State}
    (h : scalarBinary f rd rs1 rs2 s = .next t) :
    (∃ c, t = nextPc (writeS s rd c)) ∨ ∃ r, (r = rs1 ∨ r = rs2) ∧ RaisedAt s t (.scalar r) := by
  rcases scalarBinary_cases f rd rs1 rs2 s with ⟨-, -, e⟩ | ⟨n, e⟩ | ⟨-, n, e⟩ <;> rw [e] at h <;> cases h
  · exact .inl ⟨_, rfl⟩
  · exact .inr ⟨_, .inl rfl, n, rfl⟩
  · exact .inr ⟨_, .inr rfl, n, rfl⟩

theorem laneUnary_next {f : Params → Cplx → Cplx} {rd rs1 : VReg} {s t : State} (h : laneUnary f rd rs1 s = .next t) :
    (∃ g, t = nextPc (writeV s rd g)) ∨ ∃ k, RaisedAt s t (.lane rs1 k) := by
  rcases readV_cases s rs1 with ⟨-, e⟩ | ⟨k, hk, n, -, e⟩ <;> simp [laneUnary, e] at h <;> subst h
  · exact .inl ⟨_, rfl⟩
  · exact .inr ⟨_, ⟨hk, n⟩, rfl⟩

theorem laneBinary_next {f : Params → Cplx → Cplx → Cplx} {rd rs1 rs2 : VReg} {s t : State}
    (h : laneBinary f rd rs1 rs2 s = .next t) :
    (∃ g, t = nextPc (writeV s rd g)) ∨ ∃ r k, (r = rs1 ∨ r = rs2) ∧ RaisedAt s t (.lane r k) := by
  rcases readV_cases s rs1 with ⟨-, e⟩ | ⟨k, hk, n, -, e⟩
  · rcases readV_cases s rs2 with ⟨-, e2⟩ | ⟨k2, hk, n, -, e2⟩ <;> simp [laneBinary, e, e2] at h <;> subst h
    · exact .inl ⟨_, rfl⟩
    · exact .inr ⟨_, _, .inr rfl, ⟨hk, n⟩, rfl⟩
  · simp [laneBinary, e] at h; subst h
    exact .inr ⟨_, _, .inl rfl, ⟨hk, n⟩, rfl⟩

theorem laneTernary_next {f : Cplx → Cplx → Cplx → Cplx} {rd rs1 rs2 : VReg} {s t : State}
    (h : laneTernary f rd rs1 rs2 s = .next t) :
    (∃ g, t = nextPc (writeV s rd g)) ∨
      ∃ r k, (r = rs1 ∨ r = rs2 ∨ r = rd) ∧ RaisedAt s t (.lane r k) := by
  rcases readV_cases s rs1 with ⟨-, e⟩ | ⟨k, hk, n, -, e⟩
  · rcases readV_cases s rs2 with ⟨-, e2⟩ | ⟨k2, hk, n, -, e2⟩
    · rcases readV_cases s rd with ⟨-, e3⟩ | ⟨k3, hk, n, -, e3⟩ <;> simp [laneTernary, e, e2, e3] at h <;> subst h
      · exact .inl ⟨_, rfl⟩
      · exact .inr ⟨_, _, .inr (.inr rfl), ⟨hk, n⟩, rfl⟩
    · simp [laneTernary, e, e2] at h; subst h
      exact .inr ⟨_, _, .inr (.inl rfl), ⟨hk, n⟩, rfl⟩
  · simp [laneTernary, e] at h; subst h
    exact .inr ⟨_, _, .inl rfl, ⟨hk, n⟩, rfl⟩

theorem reduceUnary_next {f : Params → (Nat → Cplx) → Cplx} {rd : SReg} {rs1 : VReg} {s t : State}
    (h : reduceUnary f rd rs1 s = .next t) :
    (∃ c, t = nextPc (writeS s rd c)) ∨ ∃ k, RaisedAt s t (.lane rs1 k) := by
  rcases readV_cases s rs1 with ⟨-, e⟩ | ⟨k, hk, n, -, e⟩ <;> simp [reduceUnary, e] at h <;> subst h
  · exact .inl ⟨_, rfl⟩
  · exact .inr ⟨_, ⟨hk, n⟩, rfl⟩

theorem reduceBinary_next {f : Params → (Nat → Cplx) → (Nat → Cplx) → Cplx} {rd : SReg} {rs1 rs2 : VReg} {s t : State}
    (h : reduceBinary f rd rs1 rs2 s = .next t) :
    (∃ c, t = nextPc (writeS s rd c)) ∨ ∃ r k, (r = rs1 ∨ r = rs2) ∧ RaisedAt s t (.lane r k) := by
  rcases readV_cases s rs1 with ⟨-, e⟩ | ⟨k, hk, n, -, e⟩
  · rcases readV_cases s rs2 with ⟨-, e2⟩ | ⟨k2, hk, n, -, e2⟩ <;> simp [reduceBinary, e, e2] at h <;> subst h
    · exact .inl ⟨_, rfl⟩
    · exact .inr ⟨_, _, .inr rfl, ⟨hk, n⟩, rfl⟩
  · simp [reduceBinary, e] at h; subst h
    exact .inr ⟨_, _, .inl rfl, ⟨hk, n⟩, rfl⟩

theorem broadcast_next {f : Params → Cplx → Cplx → Cplx} {rd rs1 : VReg} {rs2 : SReg} {s t : State}
    (h : broadcast f rd rs1 rs2 s = .next t) :
    (∃ g, t = nextPc (writeV s rd g)) ∨ (∃ k, RaisedAt s t (.lane rs1 k)) ∨ RaisedAt s t (.scalar rs2) := by
  rcases readV_cases s rs1 with ⟨-, e⟩ | ⟨k, hk, n, -, e⟩
  · rcases readS_cases s rs2 with ⟨-, e2⟩ | ⟨n, e2⟩ <;> simp [broadcast, e, e2] at h <;> subst h
    · exact .inl ⟨_, rfl⟩
    · exact .inr (.inr ⟨n, rfl⟩)
  · simp [broadcast, e] at h; subst h
    exact .inr (.inl ⟨_, ⟨hk, n⟩, rfl⟩)

end Sys2Proof.Machine
end

