-- ==== Sys2Proof/Laws/Banks.lean ====
section
/-! SUPPORT. Sys2Proof/Laws/Banks.lean: what the operations on the matrix banks and the checks of the S-type can do. -/

namespace Sys2Proof.Machine

/-! ### One element as bytes -/

/-- Reading back the element just stored (R54). -/
theorem Memory.elemAt_storeElem (m : List Host.Cell) (a : Nat) (c : Cplx) :
    Memory.elemAt (Memory.storeElem m a c) a = some c := by
  have h : ((List.range elementBytes).all fun j => (Memory.lookup (Memory.storeElem m a c) (a + j)).isSome) = true := by
    simp only [elementBytes, List.all_eq_true, List.mem_range, Memory.lookup_storeElem]
    intro j hj
    rw [if_pos (by omega)]; rfl
  have hre : (halfOfBytes fun j => (Memory.lookup (Memory.storeElem m a c) (a + j)).getD 0#8) = c.re := by
    rw [← halfOfBytes_bytes c.re]
    simp only [halfOfBytes, Memory.lookup_storeElem]
    simp [elementByte]
  have him : (halfOfBytes fun j => (Memory.lookup (Memory.storeElem m a c) (a + 8 + j)).getD 0#8) = c.im := by
    rw [← halfOfBytes_bytes c.im]
    simp only [halfOfBytes, Memory.lookup_storeElem]
    simp [elementByte, Nat.add_assoc]
  rw [Memory.elemAt, if_pos h, hre, him]

/-- An element is what its sixteen bytes are: memories that agree on them agree on it. -/
theorem Memory.elemAt_congr {m m' : List Host.Cell} {a a' : Nat}
    (h : ∀ j, j < 16 → Memory.lookup m (a + j) = Memory.lookup m' (a' + j)) :
    Memory.elemAt m a = Memory.elemAt m' a' := by
  have e : ((List.range elementBytes).all fun j => (Memory.lookup m (a + j)).isSome) =
      (List.range elementBytes).all fun j => (Memory.lookup m' (a' + j)).isSome := by
    rw [Bool.eq_iff_iff]
    simp only [elementBytes, List.all_eq_true, List.mem_range]
    exact forall_congr' fun j => forall_congr' fun hj => by rw [h j hj]
  simp only [Memory.elemAt, e, halfOfBytes, Nat.add_assoc, Nat.reduceAdd]
  simp only [h, Nat.reduceLT]

/-- Byte `j` of an element is bits `[8j+7 : 8j]` of `Im ++ Re` (R54). -/
theorem elementByte_eq (x : Cplx) {j : Nat} (hj : j < 16) : elementByte x j = (x.im ++ x.re).extractLsb' (8 * j) 8 := by
  apply BitVec.eq_of_getLsbD_eq
  intro i hi
  simp only [elementByte]
  split
  · simp only [BitVec.getLsbD_extractLsb', BitVec.getLsbD_append]
    rw [if_pos (by omega)]
  · simp only [BitVec.getLsbD_extractLsb', BitVec.getLsbD_append]
    rw [if_neg (by omega)]
    congr 2; omega

/-- What the sixteen bytes from an address on are where an element is read from them. -/
theorem Memory.lookup_of_elemAt {m : List Host.Cell} {a : Nat} {x : Cplx} (h : Memory.elemAt m a = some x) {j : Nat}
    (hj : j < 16) : Memory.lookup m (a + j) = some (elementByte x j) := by
  unfold Memory.elemAt at h
  split at h
  · rename_i hall
    obtain ⟨y, hy⟩ := Option.isSome_iff_exists.1 (List.all_eq_true.1 hall j (List.mem_range.2 hj))
    cases h
    rw [hy, elementByte]
    split
    · rw [extract_halfOfBytes _ ‹_›, hy]; rfl
    · rw [extract_halfOfBytes _ (by omega), show a + 8 + (j - 8) = a + j by omega, hy]; rfl
  · cases h

/-- Sixteen bytes that are those of `x` are read as `x`. -/
theorem Memory.elemAt_of_lookup {m : List Host.Cell} {a : Nat} {x : Cplx}
    (h : ∀ j, j < 16 → Memory.lookup m (a + j) = some (elementByte x j)) : Memory.elemAt m a = some x := by
  rw [← Memory.elemAt_storeElem m a x]
  exact Memory.elemAt_congr fun j hj => by rw [h j hj, Memory.lookup_storeElem, if_pos (by omega)]; simp

/-- An element at another, disjoint address is left alone. -/
theorem Memory.elemAt_storeElem_of_disjoint {m : List Host.Cell} {a x : Nat} {c : Cplx}
    (h : x + 16 ≤ a ∨ a + 16 ≤ x) : Memory.elemAt (Memory.storeElem m a c) x = Memory.elemAt m x :=
  Memory.elemAt_congr fun j hj => by rw [Memory.lookup_storeElem, if_neg (by omega)]

/-! ### The cells of the elements (R50) -/

/-- The cells of an element of a bank are below the end. -/
theorem elemCell_end {p : Params} {b r c : Nat} (hb : b < 4) (hr : r < side p) (hc : c < side p) :
    elemCell p b r c + 16 ≤ memoryEnd p := by
  simp only [memoryEnd, elemCell, elementBytes]
  generalize side p = n at *
  have h1 : (b * n + r) * n + c + 1 ≤ (b * n + r + 1) * n := by nlinarith
  have h2 : b * n + r + 1 ≤ 4 * n := by nlinarith
  have h3 : (b * n + r + 1) * n ≤ 4 * n * n := Nat.mul_le_mul_right _ h2
  have h4 : (4 * n + 0) * n + 0 = 4 * n * n := by ring
  rw [h4]; omega

/-- Two elements that differ in bank, row or column do not overlap. -/
theorem elemCell_disjoint {p : Params} {b r c b' r' c' : Nat} (hr : r < side p) (hc : c < side p) (hr' : r' < side p)
    (hc' : c' < side p) (h : (b, r, c) ≠ (b', r', c')) :
    elemCell p b r c + 16 ≤ elemCell p b' r' c' ∨ elemCell p b' r' c' + 16 ≤ elemCell p b r c := by
  have key : (b * side p + r) * side p + c ≠ (b' * side p + r') * side p + c' := by
    intro e
    apply h
    generalize side p = n at *
    have e1 : b * n + r = b' * n + r' := by
      have := congrArg (· / n) e
      simpa [Nat.add_comm, Nat.add_mul_div_right _ _ (by omega : 0 < n), Nat.div_eq_of_lt hc,
        Nat.div_eq_of_lt hc'] using this
    have e2 : c = c' := by rw [e1] at e; omega
    have e3 : b = b' := by
      have := congrArg (· / n) e1
      simpa [Nat.add_comm, Nat.add_mul_div_right _ _ (by omega : 0 < n), Nat.div_eq_of_lt hr,
        Nat.div_eq_of_lt hr'] using this
    have e4 : r = r' := by rw [e3] at e1; omega
    simp [e2, e3, e4]
  unfold elemCell elementBytes
  omega

theorem inBounds_of_lt {p : Params} {r c : Nat} (hr : r < side p) (hc : c < side p) : inBounds p r c = true := by
  simp [inBounds, hr, hc]

theorem lt_of_inBounds {p : Params} {r c : Nat} (h : inBounds p r c = true) : r < side p ∧ c < side p := by
  simpa [inBounds] using h

theorem inBounds_of_le {p : Params} {r c : Nat} (h : side p ≤ r ∨ side p ≤ c) : inBounds p r c = false := by
  simp [inBounds]; omega

theorem bankOk_of_lt {mbid : BitVec 3} (h : mbid.toNat < 4) : bankOk mbid = true := by simpa [bankOk] using h

theorem lt_of_bankOk {mbid : BitVec 3} (h : bankOk mbid = true) : mbid.toNat < 4 := by simpa [bankOk] using h

/-- The coordinates an access goes through are different ones. -/
theorem accessElem_injective {rc : Dir} {idx16 : BitVec 16} {j k : Nat}
    (h : accessElem rc idx16 j = accessElem rc idx16 k) : j = k := by
  cases rc <;> simpa [accessElem] using h

/-! ### MemRead and MemWrite -/

/-- The byte at an address after `BANK[b][r][c] <- x`. -/
theorem lookup_setElem (s : State) (b r c : Nat) (x : Cplx) (a : Nat) :
    Memory.lookup (setElem s b r c x).mem a =
      if elemCell s.params b r c ≤ a ∧ a < elemCell s.params b r c + 16 then
        some (elementByte x (a - elemCell s.params b r c))
      else Memory.lookup s.mem a := by
  rw [setElem_mem, Memory.lookup_storeElem]

theorem elemAt_setElem (s : State) (b r c : Nat) (x : Cplx) : elemAt (setElem s b r c x) b r c = some x := by
  rw [elemAt, setElem_mem, setElem_params, Memory.elemAt_storeElem]

/-- An element that can be read holds the value read. -/
theorem elemAt_of_readable {s : State} {b r c : Nat} (h : ElemReadable s b r c) :
    elemAt s b r c = some (elemVal s b r c) := by
  simp only [ElemReadable, elemValued, Option.isSome_iff_exists] at h
  obtain ⟨x, h⟩ := h
  simp [elemVal, h]

/-- `MemRead` in bounds yields the element where it holds a value (R52). -/
theorem memRead_ok {s : State} {b r c : Nat} (hb : inBounds s.params r c = true) (h : ElemReadable s b r c) :
    memRead s b r c = .ok (elemVal s b r c) := by
  rw [memRead, if_pos hb]; exact readPlace_ok h _

/-- `MemRead` in bounds of an element without a value raises `UninitializedRead` (R52). -/
theorem memRead_error {s : State} {b r c : Nat} (hb : inBounds s.params r c = true) (h : elemValued s b r c = false) :
    memRead s b r c = .error (.uninitializedRead (.element b r c)) := by
  rw [memRead, if_pos hb]; exact readPlace_error h _

theorem memRead_cases (s : State) (b r c : Nat) :
    (inBounds s.params r c = true ∧ ElemReadable s b r c ∧ memRead s b r c = .ok (elemVal s b r c)) ∨
      (inBounds s.params r c = false ∧ memRead s b r c = .error (.outOfBounds b r c)) ∨
      (inBounds s.params r c = true ∧ elemValued s b r c = false ∧
        memRead s b r c = .error (.uninitializedRead (.element b r c))) := by
  cases hb : inBounds s.params r c with
  | false => simp [memRead, hb]
  | true =>
    cases h : elemValued s b r c with
    | true => exact .inl ⟨rfl, h, memRead_ok hb h⟩
    | false => exact .inr (.inr ⟨rfl, rfl, memRead_error hb h⟩)

theorem memWrite_cases (s : State) (b r c : Nat) (x : Cplx) :
    (inBounds s.params r c = true ∧ memWrite s b r c x = .ok (setElem s b r c x)) ∨
      (inBounds s.params r c = false ∧ memWrite s b r c x = .error (.outOfBounds b r c)) := by
  cases hb : inBounds s.params r c <;> simp [memWrite, hb]

/-- The sequence of reads yields the elements, where each is in bounds and readable. -/
theorem memReadSeq_ok {s : State} {b n : Nat} {e : Nat → Nat × Nat}
    (h : ∀ k, k < n → inBounds s.params (e k).1 (e k).2 = true ∧ ElemReadable s b (e k).1 (e k).2) :
    memReadSeq s b e n = .ok fun k => elemVal s b (e k).1 (e k).2 := by
  have : firstError (fun k => memRead s b (e k).1 (e k).2) n = none :=
    firstError_eq_none.2 fun k hk => ⟨_, memRead_ok (h k hk).1 (h k hk).2⟩
  simp [memReadSeq, this]

/-- The sequence of reads raises at the first element without a value, in rising order (R303). -/
theorem memReadSeq_error {s : State} {b n k : Nat} {e : Nat → Nat × Nat}
    (hb : ∀ j, j < n → inBounds s.params (e j).1 (e j).2 = true) (hk : k < n)
    (h : elemValued s b (e k).1 (e k).2 = false) (hl : ∀ j, j < k → ElemReadable s b (e j).1 (e j).2) :
    memReadSeq s b e n = .error (.uninitializedRead (.element b (e k).1 (e k).2)) := by
  have : firstError (fun k => memRead s b (e k).1 (e k).2) n =
      some (.uninitializedRead (.element b (e k).1 (e k).2)) :=
    firstError_eq_some.2 ⟨k, hk, memRead_error (hb k hk) h, fun j hj => ⟨_, memRead_ok (hb j (by omega)) (hl j hj)⟩⟩
  simp [memReadSeq, this]

/-- The sequence of reads answers the elements or the fault of one of them. -/
theorem memReadSeq_cases (s : State) (b : Nat) (e : Nat → Nat × Nat) (n : Nat) :
    ((∀ k, k < n → ElemReadable s b (e k).1 (e k).2) ∧
        memReadSeq s b e n = .ok (fun k => elemVal s b (e k).1 (e k).2)) ∨
      ∃ k, k < n ∧ (memReadSeq s b e n = .error (.outOfBounds b (e k).1 (e k).2) ∨
        inBounds s.params (e k).1 (e k).2 = true ∧ elemValued s b (e k).1 (e k).2 = false ∧
          memReadSeq s b e n = .error (.uninitializedRead (.element b (e k).1 (e k).2))) := by
  cases he : firstError (fun k => memRead s b (e k).1 (e k).2) n with
  | none =>
    refine .inl ⟨fun k hk => ?_, by simp [memReadSeq, he]⟩
    obtain ⟨a, ha⟩ := firstError_eq_none.1 he k hk
    rcases memRead_cases s b (e k).1 (e k).2 with ⟨-, h, -⟩ | ⟨-, h⟩ | ⟨-, -, h⟩
    · exact h
    all_goals rw [h] at ha; cases ha
  | some err =>
    right
    obtain ⟨k, hk, hf, -⟩ := firstError_eq_some.1 he
    refine ⟨k, hk, ?_⟩
    rcases memRead_cases s b (e k).1 (e k).2 with ⟨-, -, h⟩ | ⟨-, h⟩ | ⟨hb, hn, h⟩ <;> rw [h] at hf <;> cases hf
    · exact .inl (by simp [memReadSeq, he])
    · exact .inr ⟨hb, hn, by simp [memReadSeq, he]⟩

theorem memWriteSeq_ok {s : State} {b n : Nat} {e : Nat → Nat × Nat} (t : Nat → Cplx)
    (h : ∀ k, k < n → inBounds s.params (e k).1 (e k).2 = true) :
    memWriteSeq s b e t n = .ok (setElems s b e t n) := by
  have : firstError (fun k => memWrite s b (e k).1 (e k).2 (t k)) n = none :=
    firstError_eq_none.2 fun k hk => ⟨_, if_pos (h k hk)⟩
  simp [memWriteSeq, this]

/-- The sequence of writes answers the state with all of them done, or one element's fault. -/
theorem memWriteSeq_cases (s : State) (b : Nat) (e : Nat → Nat × Nat) (t : Nat → Cplx) (n : Nat) :
    ((∀ k, k < n → inBounds s.params (e k).1 (e k).2 = true) ∧ memWriteSeq s b e t n = .ok (setElems s b e t n)) ∨
      ∃ r c, memWriteSeq s b e t n = .error (.outOfBounds b r c) := by
  cases he : firstError (fun k => memWrite s b (e k).1 (e k).2 (t k)) n with
  | none =>
    refine .inl ⟨fun k hk => ?_, by simp [memWriteSeq, he]⟩
    obtain ⟨u, hu⟩ := firstError_eq_none.1 he k hk
    rcases memWrite_cases s b (e k).1 (e k).2 (t k) with ⟨h, -⟩ | ⟨-, h⟩
    · exact h
    · rw [h] at hu; cases hu
  | some err =>
    right
    obtain ⟨k, -, hk, -⟩ := firstError_eq_some.1 he
    refine ⟨(e k).1, (e k).2, ?_⟩
    rcases memWrite_cases s b (e k).1 (e k).2 (t k) with ⟨-, h⟩ | ⟨-, h⟩ <;> rw [h] at hk <;> cases hk
    simp [memWriteSeq, he]

/-- A sequence of writes changes the memory and nothing else. -/
theorem setElems_eq (s : State) (b : Nat) (e : Nat → Nat × Nat) (t : Nat → Cplx) (n : Nat) :
    setElems s b e t n = { s with mem := (setElems s b e t n).mem } := by
  induction n with
  | zero => rfl
  | succ n ih =>
    rw [setElems]
    conv_lhs => rw [ih]
    simp only [setElem]
    rw [ih]

/-- A byte outside every element written reads as before. -/
theorem lookup_setElems_of_outside {s : State} {b n a : Nat} {e : Nat → Nat × Nat} {t : Nat → Cplx}
    (h : ∀ k, k < n → a < elemCell s.params b (e k).1 (e k).2 ∨ elemCell s.params b (e k).1 (e k).2 + 16 ≤ a) :
    Memory.lookup (setElems s b e t n).mem a = Memory.lookup s.mem a := by
  induction n with
  | zero => rfl
  | succ n ih =>
    have hp : (setElems s b e t n).params = s.params := by rw [setElems_eq]
    rw [setElems, lookup_setElem, hp, if_neg (by have := h n (by omega); omega)]
    exact ih fun k hk => h k (by omega)

/-- `BANK[b][r][c] <- x` leaves every other element alone. -/
theorem elemAt_setElem_of_ne {s : State} {b r c b' r' c' : Nat} {x : Cplx} (hr : r < side s.params)
    (hc : c < side s.params) (hr' : r' < side s.params) (hc' : c' < side s.params)
    (h : (b, r, c) ≠ (b', r', c')) : elemAt (setElem s b' r' c' x) b r c = elemAt s b r c := by
  rw [elemAt, setElem_mem, setElem_params]
  exact Memory.elemAt_storeElem_of_disjoint (elemCell_disjoint hr hc hr' hc' h)

/-- After a sequence of writes each element written holds what was written into it. -/
theorem elemAt_setElems {s : State} {b n : Nat} {e : Nat → Nat × Nat} {t : Nat → Cplx}
    (hb : ∀ k, k < n → (e k).1 < side s.params ∧ (e k).2 < side s.params)
    (hi : ∀ j k, j < n → k < n → e j = e k → j = k) {k : Nat} (hk : k < n) :
    elemAt (setElems s b e t n) b (e k).1 (e k).2 = some (t k) := by
  induction n with
  | zero => omega
  | succ n ih =>
    have hp : (setElems s b e t n).params = s.params := by rw [setElems_eq]
    rw [setElems]
    rcases Nat.lt_succ_iff_lt_or_eq.1 hk with hlt | rfl
    · rw [elemAt_setElem_of_ne (by rw [hp]; exact (hb k hk).1) (by rw [hp]; exact (hb k hk).2)
        (by rw [hp]; exact (hb n (by omega)).1) (by rw [hp]; exact (hb n (by omega)).2) ?_]
      · exact ih (fun j hj => hb j (by omega)) (fun i j h1 h2 => hi i j (by omega) (by omega)) hlt
      · intro h
        have := hi k n hk (by omega) (Prod.ext (by simp_all) (by simp_all))
        omega
    · exact elemAt_setElem ..

/-- A sequence of writes keeps the canonical form. -/
theorem setElems_wf {s : State} (h : Memory.wf s.mem) (b : Nat) (e : Nat → Nat × Nat) (t : Nat → Cplx) (n : Nat) :
    Memory.wf (setElems s b e t n).mem := by
  induction n with
  | zero => exact h
  | succ n ih => rw [setElems, setElem_mem]; exact Memory.storeElem_wf ih _ _

/-! ### The checks of the S-type -/

theorem bankOf_ok {i : Instr} {mbid : BitVec 3} (h : bankOk mbid = true) : bankOf i mbid = .ok mbid.toNat := if_pos h

theorem bankOf_error {i : Instr} {mbid : BitVec 3} (h : bankOk mbid = false) :
    bankOf i mbid = .error (.illegalInstruction (encode i)) := by simp [bankOf, h]

theorem checkAccess_ok {p : Params} {b : Nat} {rc : Dir} {idx16 len16 : BitVec 16}
    (hl : accessLen p len16 ≤ p.vlen) (hi : idx16.toNat < side p) :
    checkAccess p b rc idx16 len16 = .ok (accessLen p len16) := by
  rw [checkAccess, if_neg (by omega), if_neg (by omega)]

theorem checkAccess_cases (p : Params) (b : Nat) (rc : Dir) (idx16 len16 : BitVec 16) :
    (accessLen p len16 ≤ p.vlen ∧ idx16.toNat < side p ∧
        checkAccess p b rc idx16 len16 = .ok (accessLen p len16)) ∨
      (p.vlen < accessLen p len16 ∧
        checkAccess p b rc idx16 len16 = .error (.vectorLengthFault (accessLen p len16))) ∨
      (accessLen p len16 ≤ p.vlen ∧ side p ≤ idx16.toNat ∧
        ∃ r c, checkAccess p b rc idx16 len16 = .error (.outOfBounds b r c)) := by
  by_cases h1 : p.vlen < accessLen p len16
  · exact .inr (.inl ⟨h1, if_pos h1⟩)
  · by_cases h2 : side p ≤ idx16.toNat
    · refine .inr (.inr ⟨by omega, h2, (accessElem rc idx16 0).1, (accessElem rc idx16 0).2, ?_⟩)
      rw [checkAccess, if_neg h1, if_pos h2]
    · exact .inl ⟨by omega, by omega, checkAccess_ok (by omega) (by omega)⟩

/-- With `VLEN >= 1` and `N >= 2` every coordinate of an access whose checks pass is in bounds (R272, corner b). -/
theorem accessElem_inBounds {p : Params} (hp : p.wf) {rc : Dir} {idx16 : BitVec 16} {n k : Nat} (hn : n ≤ p.vlen)
    (hi : idx16.toNat < side p) (hk : k < n) :
    inBounds p (accessElem rc idx16 k).1 (accessElem rc idx16 k).2 = true := by
  obtain ⟨h1, h2⟩ := hp
  have : p.vlen ≤ side p := by unfold side; nlinarith
  simp only [inBounds, Bool.and_eq_true, decide_eq_true_eq]
  cases rc <;> simp only [accessElem] <;> omega

end Sys2Proof.Machine
end

