-- ==== Sys2Proof/Laws/Completes.lean ====
section
/-! SUPPORT. Sys2Proof/Laws/Completes.lean: from the state an instruction answers to what the statements call
completing, and what the sums, the greatest lane and the immediates are as mathematics. -/

namespace Sys2Proof.Machine

/-- An instruction that answers its write to `s[rd]` and the next pc completes. -/
theorem completesScalar_of {i : Instr} {s : State} {rd : SReg} {c : Cplx}
    (h : exec i s = .next (nextPc (writeS s rd c))) : CompletesScalar i s rd c :=
  ⟨_, h, rfl, by simp [sAt_writeS], fun r hr => by simp [SameScalar, sAt_writeS, hr], fun _ _ => rfl, fun _ => rfl,
    rfl, rfl, rfl⟩

/-- An instruction that answers its write to every lane of `v[rd]` and the next pc completes. -/
theorem completesVector_of {i : Instr} {s : State} {rd : VReg} {f : Nat → Cplx}
    (h : exec i s = .next (nextPc (writeV s rd f))) : CompletesVector i s rd f :=
  ⟨_, h, rfl, fun k hk => (laneAt_setLanes hk).trans (by split <;> rfl), fun _ hr => sameVector_setLanes hr,
    fun _ => rfl, fun _ => rfl, rfl, rfl, rfl⟩

@[simp] theorem trunc_one (z : Int) : trunc z 1 = wrap64 z := by simp [trunc, floorDiv]

@[simp] theorem satn_one (z : Int) : satn z 1 = sat64 z := by simp [satn, floorDiv]

/-- The exact sum over lanes as a finite sum (R136). -/
theorem sumTo_eq_sum (f : Nat → Int) (n : Nat) : sumTo f n = ∑ k ∈ Finset.range n, f k := by
  induction n with
  | zero => rfl
  | succ n ih => rw [sumTo, ih, Finset.sum_range_succ]

/-- The greatest lane: in range, nothing above it, everything before it smaller (R203). -/
theorem argmax_spec (f : Nat → Int) (n : Nat) :
    argmax f (n + 1) < n + 1 ∧ (∀ m, m < n + 1 → f m ≤ f (argmax f (n + 1))) ∧
      ∀ m, m < argmax f (n + 1) → f m < f (argmax f (n + 1)) := by
  induction n with
  | zero => simp [argmax]
  | succ n ih =>
    obtain ⟨h1, h2, h3⟩ := ih
    rw [argmax]
    split
    · rename_i h
      refine ⟨by omega, fun m hm => ?_, fun m hm => (h2 m hm).trans_lt h⟩
      rcases Nat.lt_succ_iff_lt_or_eq.1 hm with hm | rfl
      · exact (h2 m hm).trans h.le
      · exact le_rfl
    · rename_i h
      refine ⟨by omega, fun m hm => ?_, h3⟩
      rcases Nat.lt_succ_iff_lt_or_eq.1 hm with hm | rfl
      · exact h2 m hm
      · exact not_lt.1 h

/-- An immediate half fits: nothing is lost by the shift (R241). -/
theorem immHalf_toInt (f : BitVec 45) : (immHalf f).toInt = f.toInt * 2 ^ 9 := by
  have h1 := f.toInt_lt; have h2 := f.le_toInt
  simp only [immHalf, wrap64, BitVec.toInt_ofInt]
  apply Int.bmod_eq_of_le <;> norm_num at * <;> omega

end Sys2Proof.Machine
end

