-- ==== Sys2Proof/Laws/Effects.lean ====
section
/-! SUPPORT. Sys2Proof/Laws/Effects.lean: everything an instruction can do, said once: `exec` always answers a next
state, and that state is one of the nine below. Statements about all instructions go by cases on it. -/

namespace Sys2Proof.Machine

/-- What instruction `i` can make of the state `s`. -/
inductive Effect (i : Instr) (s : State) : State → Prop
  | scalar (d : SReg) (c : Cplx) : scalarDest i = some d → Effect i s (nextPc (writeS s d c))
  | lanes (d : VReg) (f : Nat → Cplx) : vectorDest i = some d → Effect i s (nextPc (writeV s d f))
  | lane (d : VReg) (a : SReg) (x : BitVec 16) (c : Cplx) : i = .vsload d a x → x.toNat < s.params.vlen →
      Effect i s (nextPc (writeLane s d x.toNat c))
  | load (d : VReg) (m : BitVec 3) (rc : Dir) (x l : BitVec 16) (f : Nat → Cplx) : i = .vld d m rc x l →
      accessLen s.params l ≤ s.params.vlen → Effect i s (nextPc (writePrefix s d (accessLen s.params l) f))
  | store (r : VReg) (m : BitVec 3) (rc : Dir) (x l : BitVec 16) (f : Nat → Cplx) : i = .vst r m rc x l →
      bankOk m = true →
      (∀ k, k < accessLen s.params l → inBounds s.params (accessElem rc x k).1 (accessElem rc x k).2 = true) →
      Effect i s (nextPc (setElems s m.toNat (accessElem rc x) f (accessLen s.params l)))
  | storeOne (r : SReg) (m : BitVec 3) (x y : BitVec 16) : i = .sstXy r m x y → bankOk m = true →
      inBounds s.params y.toNat x.toNat = true →
      Effect i s (nextPc (setElem s m.toNat y.toNat x.toNat (sVal s r)))
  | jump (off : BitVec 33) : i = .jrel off → Effect i s (jumpBy off.toInt s)
  | fall (off : BitVec 33) : i = .jrel off → Effect i s (nextPc s)
  | fault (c : FaultCause) : mayRaise i c → (∀ p, c = .uninitializedRead p → HoldsNothing s p) →
      Effect i s { s with fault := some ⟨s.pc, c⟩ }

/-- `UninitializedRead`, recorded, is an effect of an instruction that may raise it. -/
theorem Effect.ofRaisedAt {i : Instr} {s t : State} {p : Place} (h : RaisedAt s t p)
    (hm : mayRaise i (.uninitializedRead p)) : Effect i s t := by
  obtain ⟨hp, rfl⟩ := h
  exact .fault _ hm fun _ e => by cases e; exact hp

theorem effect_scalarUnary {i : Instr} {f : Params → Cplx → Cplx} {rd rs1 : SReg} {s t : State}
    (h : scalarUnary f rd rs1 s = .next t) (hd : scalarDest i = some rd) (hs : .scalar rs1 ∈ sources i) :
    Effect i s t := by
  rcases scalarUnary_next h with ⟨c, rfl⟩ | h
  · exact .scalar _ _ hd
  · exact .ofRaisedAt h hs

theorem effect_scalarBinary {i : Instr} {f : Params → Cplx → Cplx → Cplx} {rd rs1 rs2 : SReg} {s t : State}
    (h : scalarBinary f rd rs1 rs2 s = .next t) (hd : scalarDest i = some rd)
    (hs : sources i = [.scalar rs1, .scalar rs2]) : Effect i s t := by
  rcases scalarBinary_next h with ⟨c, rfl⟩ | ⟨r, rfl | rfl, h'⟩
  · exact .scalar _ _ hd
  all_goals exact .ofRaisedAt h' (by simp [mayRaise, hs])

theorem effect_laneUnary {i : Instr} {f : Params → Cplx → Cplx} {rd rs1 : VReg} {s t : State}
    (h : laneUnary f rd rs1 s = .next t) (hd : vectorDest i = some rd) (hs : .vector rs1 ∈ sources i) :
    Effect i s t := by
  rcases laneUnary_next h with ⟨c, rfl⟩ | ⟨k, h⟩
  · exact .lanes _ _ hd
  · exact .ofRaisedAt h hs

theorem effect_laneBinary {i : Instr} {f : Params → Cplx → Cplx → Cplx} {rd rs1 rs2 : VReg} {s t : State}
    (h : laneBinary f rd rs1 rs2 s = .next t) (hd : vectorDest i = some rd)
    (hs : sources i = [.vector rs1, .vector rs2]) : Effect i s t := by
  rcases laneBinary_next h with ⟨c, rfl⟩ | ⟨r, k, rfl | rfl, h'⟩
  · exact .lanes _ _ hd
  all_goals exact .ofRaisedAt h' (by simp [mayRaise, hs])

theorem effect_laneTernary {i : Instr} {f : Cplx → Cplx → Cplx → Cplx} {rd rs1 rs2 : VReg} {s t : State}
    (h : laneTernary f rd rs1 rs2 s = .next t) (hd : vectorDest i = some rd)
    (hs : sources i = [.vector rs1, .vector rs2, .vector rd]) : Effect i s t := by
  rcases laneTernary_next h with ⟨c, rfl⟩ | ⟨r, k, rfl | rfl | rfl, h'⟩
  · exact .lanes _ _ hd
  all_goals exact .ofRaisedAt h' (by simp [mayRaise, hs])

theorem effect_reduceUnary {i : Instr} {f : Params → (Nat → Cplx) → Cplx} {rd : SReg} {rs1 : VReg} {s t : State}
    (h : reduceUnary f rd rs1 s = .next t) (hd : scalarDest i = some rd) (hs : .vector rs1 ∈ sources i) :
    Effect i s t := by
  rcases reduceUnary_next h with ⟨c, rfl⟩ | ⟨k, h⟩
  · exact .scalar _ _ hd
  · exact .ofRaisedAt h hs

theorem effect_reduceBinary {i : Instr} {f : Params → (Nat → Cplx) → (Nat → Cplx) → Cplx} {rd : SReg}
    {rs1 rs2 : VReg} {s t : State} (h : reduceBinary f rd rs1 rs2 s = .next t) (hd : scalarDest i = some rd)
    (hs : sources i = [.vector rs1, .vector rs2]) : Effect i s t := by
  rcases reduceBinary_next h with ⟨c, rfl⟩ | ⟨r, k, rfl | rfl, h'⟩
  · exact .scalar _ _ hd
  all_goals exact .ofRaisedAt h' (by simp [mayRaise, hs])

theorem effect_broadcast {i : Instr} {f : Params → Cplx → Cplx → Cplx} {rd rs1 : VReg} {rs2 : SReg} {s t : State}
    (h : broadcast f rd rs1 rs2 s = .next t) (hd : vectorDest i = some rd)
    (hs : sources i = [.vector rs1, .scalar rs2]) : Effect i s t := by
  rcases broadcast_next h with ⟨c, rfl⟩ | ⟨k, h'⟩ | h'
  · exact .lanes _ _ hd
  all_goals exact .ofRaisedAt h' (by simp [mayRaise, hs])

theorem effect_vsload {rd : VReg} {rs2 : SReg} {idx : BitVec 16} {s t : State}
    (h : execVsload rd rs2 idx s = .next t) : Effect (.vsload rd rs2 idx) s t := by
  by_cases hi : s.params.vlen ≤ idx.toNat
  · simp [execVsload, hi] at h; subst h
    exact .fault _ ⟨_, _, _, rfl⟩ (by rintro _ ⟨⟩)
  · rcases readS_cases s rs2 with ⟨-, e⟩ | ⟨n, e⟩ <;> simp [execVsload, hi, e] at h <;> subst h
    · exact .lane _ _ _ _ rfl (by omega)
    · exact .ofRaisedAt (p := .scalar rs2) ⟨n, rfl⟩ (by simp [mayRaise, sources])

theorem effect_jrel {off : BitVec 33} {s t : State} (h : execJrel off s = .next t) : Effect (.jrel off) s t := by
  rcases readS_cases s 1 with ⟨-, e⟩ | ⟨n, e⟩ <;> simp [execJrel, e] at h <;> subst h
  · split
    · exact .jump _ rfl
    · exact .fall _ rfl
  · exact .ofRaisedAt (p := .scalar 1) ⟨n, rfl⟩ (by simp [mayRaise, sources])

theorem effect_vld {rd : VReg} {m : BitVec 3} {rc : Dir} {x l : BitVec 16} {s t : State}
    (h : execVld rd m rc x l s = .next t) : Effect (.vld rd m rc x l) s t := by
  cases hb : bankOk m with
  | false =>
    simp [execVld, bankOf_error hb] at h; subst h
    exact .fault _ hb (by rintro _ ⟨⟩)
  | true =>
    rcases checkAccess_cases s.params m.toNat rc x l with ⟨hl, hi, e⟩ | ⟨hl, e⟩ | ⟨hl, hi, r, c, e⟩
    · rcases memReadSeq_cases s m.toNat (accessElem rc x) (accessLen s.params l) with
        ⟨-, e2⟩ | ⟨k, hk, e2 | ⟨hi2, hn, e2⟩⟩ <;>
        simp [execVld, bankOf_ok hb, e, e2] at h <;> subst h
      · exact .load _ _ _ _ _ _ rfl hl
      · exact .fault _ rfl (by rintro _ ⟨⟩)
      · exact .fault _ (.inl ⟨_, _, _, _, _, rfl⟩) fun _ e => by
          cases e; exact ⟨lt_of_bankOk hb, (lt_of_inBounds hi2).1, (lt_of_inBounds hi2).2, hn⟩
    · simp [execVld, bankOf_ok hb, e] at h; subst h
      exact .fault _ ⟨_, _, _, _, _, .inl rfl⟩ (by rintro _ ⟨⟩)
    · simp [execVld, bankOf_ok hb, e] at h; subst h
      exact .fault _ rfl (by rintro _ ⟨⟩)

theorem effect_vst {rs : VReg} {m : BitVec 3} {rc : Dir} {x l : BitVec 16} {s t : State}
    (h : execVst rs m rc x l s = .next t) : Effect (.vst rs m rc x l) s t := by
  cases hb : bankOk m with
  | false =>
    simp [execVst, bankOf_error hb] at h; subst h
    exact .fault _ hb (by rintro _ ⟨⟩)
  | true =>
    rcases checkAccess_cases s.params m.toNat rc x l with ⟨hl, hi, e⟩ | ⟨hl, e⟩ | ⟨hl, hi, r, c, e⟩
    · rcases readLanes_cases s rs (accessLen s.params l) with ⟨-, e1⟩ | ⟨k, hk, n, -, e1⟩
      · rcases memWriteSeq_cases s m.toNat (accessElem rc x) (laneVal s rs) (accessLen s.params l) with
          ⟨hin, e2⟩ | ⟨r, c, e2⟩ <;> simp [execVst, bankOf_ok hb, e, e1, e2] at h <;> subst h
        · exact .store _ _ _ _ _ _ rfl hb hin
        · exact .fault _ rfl (by rintro _ ⟨⟩)
      · simp [execVst, bankOf_ok hb, e, e1] at h; subst h
        exact .ofRaisedAt (p := .lane rs k) ⟨⟨by omega, n⟩, rfl⟩ (by simp [mayRaise, sources])
    · simp [execVst, bankOf_ok hb, e] at h; subst h
      exact .fault _ ⟨_, _, _, _, _, .inr rfl⟩ (by rintro _ ⟨⟩)
    · simp [execVst, bankOf_ok hb, e] at h; subst h
      exact .fault _ rfl (by rintro _ ⟨⟩)

theorem effect_sldXy {rd : SReg} {m : BitVec 3} {x y : BitVec 16} {s t : State}
    (h : execSldXy rd m x y s = .next t) : Effect (.sldXy rd m x y) s t := by
  cases hb : bankOk m with
  | false =>
    simp [execSldXy, bankOf_error hb] at h; subst h
    exact .fault _ hb (by rintro _ ⟨⟩)
  | true =>
    rcases memRead_cases s m.toNat y.toNat x.toNat with ⟨-, -, e⟩ | ⟨-, e⟩ | ⟨hi, n, e⟩ <;>
      simp [execSldXy, bankOf_ok hb, e] at h <;> subst h
    · exact .scalar _ _ rfl
    · exact .fault _ rfl (by rintro _ ⟨⟩)
    · exact .fault _ (.inr ⟨_, _, _, _, rfl⟩) fun _ e => by
        cases e; exact ⟨lt_of_bankOk hb, (lt_of_inBounds hi).1, (lt_of_inBounds hi).2, n⟩

theorem effect_sstXy {rs : SReg} {m : BitVec 3} {x y : BitVec 16} {s t : State}
    (h : execSstXy rs m x y s = .next t) : Effect (.sstXy rs m x y) s t := by
  cases hb : bankOk m with
  | false =>
    simp [execSstXy, bankOf_error hb] at h; subst h
    exact .fault _ hb (by rintro _ ⟨⟩)
  | true =>
    cases hi : inBounds s.params y.toNat x.toNat with
    | false =>
      simp [execSstXy, bankOf_ok hb, hi] at h; subst h
      exact .fault _ rfl (by rintro _ ⟨⟩)
    | true =>
      rcases readS_cases s rs with ⟨-, e⟩ | ⟨n, e⟩ <;>
        simp [execSstXy, bankOf_ok hb, hi, e, memWrite] at h <;> subst h
      · exact .storeOne _ _ _ _ rfl hb hi
      · exact .ofRaisedAt (p := .scalar rs) ⟨n, rfl⟩ (by simp [mayRaise, sources])

/-- Whatever the instruction and the state, what `exec` answers is one of the effects above. -/
theorem exec_effect {i : Instr} {s t : State} (h : exec i s = .next t) : Effect i s t := by
  cases i with
  | cneg => exact effect_scalarUnary (f := fun _ => cneg) h rfl (.head _)
  | conj => exact effect_scalarUnary (f := fun _ => conj) h rfl (.head _)
  | csqrt => exact effect_scalarUnary (f := csqrtFn) h rfl (.head _)
  | cabs2 => exact effect_scalarUnary (f := fun _ => cabs2) h rfl (.head _)
  | cabs => exact effect_scalarUnary (f := cabs) h rfl (.head _)
  | creal => exact effect_scalarUnary (f := fun _ => creal) h rfl (.head _)
  | cimag => exact effect_scalarUnary (f := fun _ => cimag) h rfl (.head _)
  | crecip => exact effect_scalarUnary (f := fun p a => cdivFn p cone a) h rfl (.head _)
  | cadd => exact effect_scalarBinary (f := fun _ => cadd) h rfl rfl
  | csub => exact effect_scalarBinary (f := fun _ => csub) h rfl rfl
  | cmul => exact effect_scalarBinary (f := fun _ => cmul) h rfl rfl
  | cdiv => exact effect_scalarBinary (f := cdivFn) h rfl rfl
  | cmaxabs => exact effect_scalarBinary (f := fun _ => cmaxabs) h rfl rfl
  | cminabs => exact effect_scalarBinary (f := fun _ => cminabs) h rfl rfl
  | cmpltRe => exact effect_scalarBinary (f := cmplt) h rfl rfl
  | cmpgtRe => exact effect_scalarBinary (f := cmpgt) h rfl rfl
  | cmpleRe => exact effect_scalarBinary (f := cmple) h rfl rfl
  | vadd => exact effect_laneBinary (f := fun _ => caddSat) h rfl rfl
  | vsub => exact effect_laneBinary (f := fun _ => csubSat) h rfl rfl
  | vmul => exact effect_laneBinary (f := fun _ => cmul) h rfl rfl
  | vmac => exact effect_laneTernary (f := cmac) h rfl rfl
  | vdiv => exact effect_laneBinary (f := cdivFn) h rfl rfl
  | vconj => exact effect_laneUnary (f := fun _ => conj) h rfl (.head _)
  | dotc => exact effect_reduceBinary (f := dotcResult) h rfl rfl
  | dotu => exact effect_reduceBinary (f := dotuResult) h rfl rfl
  | iamax => exact effect_reduceUnary (f := iamaxResult) h rfl (.head _)
  | sum => exact effect_reduceUnary (f := sumResult) h rfl (.head _)
  | asum => exact effect_reduceUnary (f := asumResult) h rfl (.head _)
  | vsadd => exact effect_broadcast (f := fun _ => caddSat) h rfl rfl
  | vssub => exact effect_broadcast (f := fun _ => csubSat) h rfl rfl
  | vsmul => exact effect_broadcast (f := fun _ => cmul) h rfl rfl
  | vsdiv => exact effect_broadcast (f := cdivFn) h rfl rfl
  | vsload => exact effect_vsload h
  | cloadi => cases h; exact .scalar _ _ rfl
  | caddI d a re im => exact effect_scalarUnary (f := fun _ x => caddSat x (imm re im)) h rfl (.head _)
  | cmulI d a re im => exact effect_scalarUnary (f := fun _ x => cmulSat x (imm re im)) h rfl (.head _)
  | csubI d a re im => exact effect_scalarUnary (f := fun _ x => csubSat x (imm re im)) h rfl (.head _)
  | cdivI d a re im => exact effect_scalarUnary (f := fun p x => cdivFn p x (imm re im)) h rfl (.head _)
  | cmaxabsI d a re im => exact effect_scalarUnary (f := fun _ x => cmaxabs x (imm re im)) h rfl (.head _)
  | cminabsI d a re im => exact effect_scalarUnary (f := fun _ x => cminabs x (imm re im)) h rfl (.head _)
  | cscaleI d a re => exact effect_scalarUnary (f := fun _ x => cscaleSat x (immHalf re)) h rfl (.head _)
  | jrel => exact effect_jrel h
  | vld => exact effect_vld h
  | vst => exact effect_vst h
  | sldXy => exact effect_sldXy h
  | sstXy => exact effect_sstXy h

/-- `exec` always answers a next state: a fault of the program is one too. -/
theorem exec_total (i : Instr) (s : State) : ∃ t, exec i s = .next t := by
  cases i with
  | cloadi => exact ⟨_, rfl⟩
  | _ => exact commit_total s _

end Sys2Proof.Machine
end

