-- ==== Sys2Proof/Laws/Fields.lean ====
section
/-! SUPPORT. Sys2Proof/Laws/Fields.lean: cutting a word into fields and joining fields into a word undo each other,
and so do the bytes of a word. -/

namespace Sys2Proof

/-- A field below a join lies in the low part. -/
theorem extractLsb'_append_low {m n lo len : Nat} (x : BitVec m) (y : BitVec n) (h : lo + len ≤ n) :
    (x ++ y).extractLsb' lo len = y.extractLsb' lo len := by
  apply BitVec.eq_of_getLsbD_eq
  intro i hi
  simp only [BitVec.getLsbD_extractLsb', BitVec.getLsbD_append]
  rw [if_pos (by omega)]

/-- A field above a join lies in the high part. -/
theorem extractLsb'_append_high {m n lo len : Nat} (x : BitVec m) (y : BitVec n) (h : n ≤ lo) :
    (x ++ y).extractLsb' lo len = x.extractLsb' (lo - n) len := by
  apply BitVec.eq_of_getLsbD_eq
  intro i hi
  simp only [BitVec.getLsbD_extractLsb', BitVec.getLsbD_append]
  rw [if_neg (by omega)]
  congr 2; omega

/-- All of a bit vector, as a field of itself. -/
theorem extractLsb'_all {n : Nat} (x : BitVec n) : x.extractLsb' 0 n = x := by
  apply BitVec.eq_of_getLsbD_eq
  intro i hi
  simp [hi]

/-- Two adjacent fields, joined, are the field over both. -/
theorem append_extractLsb' {n lo a b : Nat} (x : BitVec n) :
    x.extractLsb' (lo + a) b ++ x.extractLsb' lo a = x.extractLsb' lo (b + a) := by
  apply BitVec.eq_of_getLsbD_eq
  intro i hi
  simp only [BitVec.getLsbD_extractLsb', BitVec.getLsbD_append]
  split
  · rename_i h; simp [h]; omega
  · rw [decide_eq_true (by omega), decide_eq_true hi, Bool.true_and, Bool.true_and]
    congr 1; omega

/-- Joining and masking commute. -/
theorem append_and_append {m n : Nat} (a c : BitVec m) (b d : BitVec n) : (a ++ b) &&& (c ++ d) = (a &&& c) ++ (b &&& d) := by
  apply BitVec.eq_of_getLsbD_eq
  intro i hi
  simp only [BitVec.getLsbD_and, BitVec.getLsbD_append]
  split <;> rfl

/-- The fields of a word built from fields (R83, R112). -/
theorem Fields.ofWord_toWord (f : Fields) : Fields.ofWord f.toWord = f := by
  obtain ⟨op, sub, fl, rd, rs1, low⟩ := f
  simp only [Fields.ofWord, Fields.toWord]
  congr 1
  · repeat rw [extractLsb'_append_high _ _ (by decide)]
    exact extractLsb'_all op
  · repeat rw [extractLsb'_append_high _ _ (by decide)]
    rw [extractLsb'_append_low _ _ (by decide)]; exact extractLsb'_all sub
  · repeat rw [extractLsb'_append_high _ _ (by decide)]
    rw [extractLsb'_append_low _ _ (by decide)]; exact extractLsb'_all fl
  · repeat rw [extractLsb'_append_high _ _ (by decide)]
    rw [extractLsb'_append_low _ _ (by decide)]; exact extractLsb'_all rd
  · repeat rw [extractLsb'_append_high _ _ (by decide)]
    rw [extractLsb'_append_low _ _ (by decide)]; exact extractLsb'_all rs1
  · rw [extractLsb'_append_low _ _ (by decide)]; exact extractLsb'_all low

/-- A word is its fields, joined (R83). -/
theorem Fields.toWord_ofWord (w : Word) : (Fields.ofWord w).toWord = w := by
  simp only [Fields.toWord, Fields.ofWord]
  rw [show (120 : Nat) = 112 + 8 from rfl, append_extractLsb' (a := 8) (lo := 112)]
  rw [show (112 : Nat) = 96 + 16 from rfl, append_extractLsb' (a := 16) (lo := 96)]
  rw [show (96 : Nat) = 93 + 3 from rfl, append_extractLsb' (a := 3) (lo := 93)]
  rw [show (93 : Nat) = 90 + 3 from rfl, append_extractLsb' (a := 3) (lo := 90)]
  exact (append_extractLsb' (lo := 0) (a := 90) w).trans (extractLsb'_all w)

/-- The fields of a masked word are the masked fields. -/
theorem Fields.toWord_and (f g : Fields) :
    f.toWord &&& g.toWord =
      Fields.toWord ⟨f.opcode &&& g.opcode, f.subop &&& g.subop, f.flags &&& g.flags, f.rd &&& g.rd,
        f.rs1 &&& g.rs1, f.low &&& g.low⟩ := by
  have h (a a' b b' : BitVec 8) (c c' : BitVec 16) (d d' e e' : BitVec 3) (l l' : BitVec 90) :
      (a ++ b ++ c ++ d ++ e ++ l) &&& (a' ++ b' ++ c' ++ d' ++ e' ++ l') =
        (a &&& a') ++ (b &&& b') ++ (c &&& c') ++ (d &&& d') ++ (e &&& e') ++ (l &&& l') := by
    simp only [append_and_append]
  exact h ..

end Sys2Proof
end

