-- ==== Sys2Proof/Laws/PerInstr.lean ====
section
/-! SUPPORT. Sys2Proof/Laws/PerInstr.lean: the family TableRow: the word of every well-formed instruction matches the
row of spec/opcode_table.json that bears its mnemonic (R100, R108), one lemma per constructor. -/

namespace Sys2Proof

/-- The mnemonic of an instruction, as spec/opcode_table.json spells it. -/
def mnemonicOf : Instr → String
  | .cneg .. => "cneg"
  | .conj .. => "conj"
  | .csqrt .. => "csqrt"
  | .cabs2 .. => "cabs2"
  | .cabs .. => "cabs"
  | .creal .. => "creal"
  | .cimag .. => "cimag"
  | .crecip .. => "crecip"
  | .cadd .. => "cadd"
  | .csub .. => "csub"
  | .cmul .. => "cmul"
  | .cdiv .. => "cdiv"
  | .cmaxabs .. => "cmaxabs"
  | .cminabs .. => "cminabs"
  | .cmpltRe .. => "cmplt.re"
  | .cmpgtRe .. => "cmpgt.re"
  | .cmpleRe .. => "cmple.re"
  | .vadd .. => "vadd"
  | .vsub .. => "vsub"
  | .vmul .. => "vmul"
  | .vmac .. => "vmac"
  | .vdiv .. => "vdiv"
  | .vconj .. => "vconj"
  | .dotc .. => "dotc"
  | .dotu .. => "dotu"
  | .iamax .. => "iamax"
  | .sum .. => "sum"
  | .asum .. => "asum"
  | .vsadd .. => "vsadd"
  | .vssub .. => "vssub"
  | .vsmul .. => "vsmul"
  | .vsdiv .. => "vsdiv"
  | .vsload .. => "vsload"
  | .cloadi .. => "cloadi"
  | .caddI .. => "cadd_i"
  | .cmulI .. => "cmul_i"
  | .csubI .. => "csub_i"
  | .cdivI .. => "cdiv_i"
  | .cmaxabsI .. => "cmaxabs_i"
  | .cminabsI .. => "cminabs_i"
  | .cscaleI .. => "cscale_i"
  | .jrel .. => "jrel"
  | .vld .. => "vld"
  | .vst .. => "vst"
  | .sldXy .. => "sld.xy"
  | .sstXy .. => "sst.xy"

/-- `R-type` with every register free: opcode, subop, selector, `imm16` and `[70:0]` are fixed (R84). -/
theorem encodeR_three (map : BitVec 2) (sub : BitVec 8) (d a b : Fin 8) :
    encodeR map sub d a b 0#16 &&& 0xFFFFFFFF007FFFFFFFFFFFFFFFFFFFFF#128 = encodeR map sub 0 0 0 0#16 := by
  have hm : (0xFFFFFFFF007FFFFFFFFFFFFFFFFFFFFF#128 : Word) =
      Fields.toWord ⟨0xFF#8, 0xFF#8, 0xFFFF#16, 0#3, 0#3, 0#3 ++ 0xFFFF#16 ++ BitVec.allOnes 71⟩ := by decide
  have hx (x : BitVec 8) : x &&& 0xFF#8 = x := BitVec.and_allOnes
  have hf (x : BitVec 16) : x &&& 0xFFFF#16 = x := BitVec.and_allOnes
  have hl (x : BitVec 3) (y : BitVec 16) (z : BitVec 71) :
      (x ++ y ++ z) &&& (0#3 ++ 0xFFFF#16 ++ BitVec.allOnes 71) = (0#3 ++ y ++ z) := by
    simp only [append_and_append, BitVec.and_zero, hf, BitVec.and_allOnes]
  rw [hm]
  simp only [encodeR, Fields.toWord_and, hx, hf, BitVec.and_zero]
  exact congrArg Fields.toWord (congrArg _ (hl _ _ _))

/-- `R-type` with `rs2` zero (R89). -/
theorem encodeR_two (map : BitVec 2) (sub : BitVec 8) (d a : Fin 8) :
    encodeR map sub d a 0 0#16 &&& 0xFFFFFFFF03FFFFFFFFFFFFFFFFFFFFFF#128 = encodeR map sub 0 0 0 0#16 := by
  have hm : (0xFFFFFFFF03FFFFFFFFFFFFFFFFFFFFFF#128 : Word) =
      Fields.toWord ⟨0xFF#8, 0xFF#8, 0xFFFF#16, 0#3, 0#3, BitVec.allOnes 90⟩ := by decide
  have hx (x : BitVec 8) : x &&& 0xFF#8 = x := BitVec.and_allOnes
  have hf (x : BitVec 16) : x &&& 0xFFFF#16 = x := BitVec.and_allOnes
  rw [hm]
  simp only [encodeR, Fields.toWord_and, hx, hf, BitVec.and_zero]
  exact congrArg Fields.toWord (congrArg _ BitVec.and_allOnes)

/-- `vsload`: `imm16` is free, `rs1` is zero (R225). -/
theorem encodeR_vsload (map : BitVec 2) (sub : BitVec 8) (d b : Fin 8) (i : BitVec 16) :
    encodeR map sub d 0 b i &&& 0xFFFFFFFF1C00007FFFFFFFFFFFFFFFFF#128 = encodeR map sub 0 0 0 0#16 := by
  have hm : (0xFFFFFFFF1C00007FFFFFFFFFFFFFFFFF#128 : Word) =
      Fields.toWord ⟨0xFF#8, 0xFF#8, 0xFFFF#16, 0#3, 7#3, 0#3 ++ 0#16 ++ BitVec.allOnes 71⟩ := by decide
  have hx (x : BitVec 8) : x &&& 0xFF#8 = x := BitVec.and_allOnes
  have hf (x : BitVec 16) : x &&& 0xFFFF#16 = x := BitVec.and_allOnes
  have hl (x : BitVec 3) (y : BitVec 16) (z : BitVec 71) :
      (x ++ y ++ z) &&& (0#3 ++ 0#16 ++ BitVec.allOnes 71) = (0#3 ++ 0#16 ++ z) := by
    simp only [append_and_append, BitVec.and_zero, BitVec.and_allOnes]
  have h1 : regBits 0 &&& 7#3 = regBits 0 := by decide
  rw [hm]
  simp only [encodeR, Fields.toWord_and, hx, hf, h1, BitVec.and_zero]
  exact congrArg Fields.toWord (congrArg _ (hl _ _ _))

/-- `I-type` with `sA` and the immediate free (R85). -/
theorem encodeI_free (sub : BitVec 8) (d a : Fin 8) (re im : BitVec 45) :
    encodeI sub d a re im &&& 0xFFFFFFFF000000000000000000000000#128 = encodeI sub 0 0 0#45 0#45 := by
  have hm : (0xFFFFFFFF000000000000000000000000#128 : Word) =
      Fields.toWord ⟨0xFF#8, 0xFF#8, 0xFFFF#16, 0#3, 0#3, 0#90⟩ := by decide
  have hx (x : BitVec 8) : x &&& 0xFF#8 = x := BitVec.and_allOnes
  have hf (x : BitVec 16) : x &&& 0xFFFF#16 = x := BitVec.and_allOnes
  rw [hm]
  simp only [encodeI, Fields.toWord_and, hx, hf, BitVec.and_zero]
  exact congrArg Fields.toWord (congrArg _ (by decide))

/-- `cloadi`: `rs1` is zero (R242). -/
theorem encodeI_cloadi (sub : BitVec 8) (d : Fin 8) (re im : BitVec 45) :
    encodeI sub d 0 re im &&& 0xFFFFFFFF1C0000000000000000000000#128 = encodeI sub 0 0 0#45 0#45 := by
  have hm : (0xFFFFFFFF1C0000000000000000000000#128 : Word) =
      Fields.toWord ⟨0xFF#8, 0xFF#8, 0xFFFF#16, 0#3, 7#3, 0#90⟩ := by decide
  have hx (x : BitVec 8) : x &&& 0xFF#8 = x := BitVec.and_allOnes
  have hf (x : BitVec 16) : x &&& 0xFFFF#16 = x := BitVec.and_allOnes
  have h1 : regBits 0 &&& 7#3 = regBits 0 := by decide
  rw [hm]
  simp only [encodeI, Fields.toWord_and, hx, hf, h1, BitVec.and_zero]
  exact congrArg Fields.toWord (congrArg _ (by decide))

/-- `cscale_i`: the Im half is zero (R91). -/
theorem encodeI_cscale (sub : BitVec 8) (d a : Fin 8) (re : BitVec 45) :
    encodeI sub d a re 0#45 &&& 0xFFFFFFFF03FFFFFFFFFFE00000000000#128 = encodeI sub 0 0 0#45 0#45 := by
  have hm : (0xFFFFFFFF03FFFFFFFFFFE00000000000#128 : Word) =
      Fields.toWord ⟨0xFF#8, 0xFF#8, 0xFFFF#16, 0#3, 0#3, BitVec.allOnes 45 ++ 0#45⟩ := by decide
  have hx (x : BitVec 8) : x &&& 0xFF#8 = x := BitVec.and_allOnes
  have hf (x : BitVec 16) : x &&& 0xFFFF#16 = x := BitVec.and_allOnes
  have hl (x y : BitVec 45) : (x ++ y) &&& (BitVec.allOnes 45 ++ 0#45) = (x ++ 0#45) := by
    simp only [append_and_append, BitVec.and_zero, BitVec.and_allOnes]
  rw [hm]
  simp only [encodeI, Fields.toWord_and, hx, hf, BitVec.and_zero]
  exact congrArg Fields.toWord (congrArg _ (hl _ _))

/-- `jrel`: only `offs33` is free (R86). -/
theorem encodeJ_free (o : BitVec 33) : encodeJ o &&& 0xFFFFFFFFFC00000001FFFFFFFFFFFFFF#128 = encodeJ 0#33 := by
  have hm : (0xFFFFFFFFFC00000001FFFFFFFFFFFFFF#128 : Word) =
      Fields.toWord ⟨0xFF#8, 0xFF#8, 0xFFFF#16, 7#3, 7#3, 0#33 ++ BitVec.allOnes 57⟩ := by decide
  have hx (x : BitVec 8) : x &&& 0xFF#8 = x := BitVec.and_allOnes
  have hf (x : BitVec 16) : x &&& 0xFFFF#16 = x := BitVec.and_allOnes
  have hr (x : BitVec 3) : x &&& 7#3 = x := BitVec.and_allOnes
  have hl (x : BitVec 33) (y : BitVec 57) : (x ++ y) &&& (0#33 ++ BitVec.allOnes 57) = (0#33 ++ y) := by
    simp only [append_and_append, BitVec.and_zero, BitVec.and_allOnes]
  rw [hm]
  simp only [encodeJ, Fields.toWord_and, hx, hf, hr]
  exact congrArg Fields.toWord (congrArg _ (hl _ _))

/-- `S-type`: `rc`, the register, two bits of `mbid` and the two numbers are free (R87). -/
theorem encodeS_free (sub : BitVec 8) (rc : BitVec 1) (r : Fin 8) (m : BitVec 3) (i j : BitVec 16)
    (h : bankOk m = true) :
    encodeS sub rc r m i j &&& 0xFFFF7FFF1200000001FFFFFFFFFFFFFF#128 = encodeS sub 0#1 0 0#3 0#16 0#16 := by
  have hm : (0xFFFF7FFF1200000001FFFFFFFFFFFFFF#128 : Word) =
      Fields.toWord ⟨0xFF#8, 0xFF#8, 0#1 ++ BitVec.allOnes 15, 0#3, 4#3,
        BitVec.allOnes 1 ++ 0#16 ++ 0#16 ++ BitVec.allOnes 57⟩ := by decide
  have hx (x : BitVec 8) : x &&& 0xFF#8 = x := BitVec.and_allOnes
  have hf (x : BitVec 1) (y : BitVec 15) : (x ++ y) &&& (0#1 ++ BitVec.allOnes 15) = (0#1 ++ y) := by
    simp only [append_and_append, BitVec.and_zero, BitVec.and_allOnes]
  have hl (x : BitVec 1) (y z : BitVec 16) (u : BitVec 57) :
      (x ++ y ++ z ++ u) &&& (BitVec.allOnes 1 ++ 0#16 ++ 0#16 ++ BitVec.allOnes 57) = (x ++ 0#16 ++ 0#16 ++ u) := by
    simp only [append_and_append, BitVec.and_zero, BitVec.and_allOnes]
  have hb : m &&& 4#3 = 0#3 := by revert m; decide
  rw [hm]
  simp only [encodeS, Fields.toWord_and, hx, BitVec.and_zero, hb]
  rw [hf]
  exact congrArg Fields.toWord (congrArg _ (hl _ _ _ _))

/-- `sld.xy` and `sst.xy`: `rc` is zero too (R276). -/
theorem encodeS_scalar (sub : BitVec 8) (r : Fin 8) (m : BitVec 3) (i j : BitVec 16) (h : bankOk m = true) :
    encodeS sub 0#1 r m i j &&& 0xFFFFFFFF1200000001FFFFFFFFFFFFFF#128 = encodeS sub 0#1 0 0#3 0#16 0#16 := by
  have hm : (0xFFFFFFFF1200000001FFFFFFFFFFFFFF#128 : Word) =
      Fields.toWord ⟨0xFF#8, 0xFF#8, 0xFFFF#16, 0#3, 4#3,
        BitVec.allOnes 1 ++ 0#16 ++ 0#16 ++ BitVec.allOnes 57⟩ := by decide
  have hx (x : BitVec 8) : x &&& 0xFF#8 = x := BitVec.and_allOnes
  have hf (x : BitVec 16) : x &&& 0xFFFF#16 = x := BitVec.and_allOnes
  have hl (x : BitVec 1) (y z : BitVec 16) (u : BitVec 57) :
      (x ++ y ++ z ++ u) &&& (BitVec.allOnes 1 ++ 0#16 ++ 0#16 ++ BitVec.allOnes 57) = (x ++ 0#16 ++ 0#16 ++ u) := by
    simp only [append_and_append, BitVec.and_zero, BitVec.and_allOnes]
  have hb : m &&& 4#3 = 0#3 := by revert m; decide
  rw [hm]
  simp only [encodeS, Fields.toWord_and, hx, hf, BitVec.and_zero, hb]
  exact congrArg Fields.toWord (congrArg _ (hl _ _ _ _))

namespace Laws.TableRow

/-- The word of a well-formed instruction matches the row of its mnemonic (R108). -/
def Statement (i : Instr) : Prop :=
  WellFormed i = true → ∃ r ∈ opcodeTable, r.mnemonic = mnemonicOf i ∧ r.hits (encode i)

theorem cneg (rd : SReg) (rs1 : SReg) : Statement (.cneg rd rs1) :=
  fun _ => ⟨⟨"cneg", 0xFFFFFFFF03FFFFFFFFFFFFFFFFFFFFFF#128, 0x01000000000000000000000000000000#128⟩, by decide, rfl, encodeR_two 0#2 0x00#8 rd rs1⟩

theorem conj (rd : SReg) (rs1 : SReg) : Statement (.conj rd rs1) :=
  fun _ => ⟨⟨"conj", 0xFFFFFFFF03FFFFFFFFFFFFFFFFFFFFFF#128, 0x01010000000000000000000000000000#128⟩, by decide, rfl, encodeR_two 0#2 0x01#8 rd rs1⟩

theorem csqrt (rd : SReg) (rs1 : SReg) : Statement (.csqrt rd rs1) :=
  fun _ => ⟨⟨"csqrt", 0xFFFFFFFF03FFFFFFFFFFFFFFFFFFFFFF#128, 0x01020000000000000000000000000000#128⟩, by decide, rfl, encodeR_two 0#2 0x02#8 rd rs1⟩

theorem cabs2 (rd : SReg) (rs1 : SReg) : Statement (.cabs2 rd rs1) :=
  fun _ => ⟨⟨"cabs2", 0xFFFFFFFF03FFFFFFFFFFFFFFFFFFFFFF#128, 0x01030000000000000000000000000000#128⟩, by decide, rfl, encodeR_two 0#2 0x03#8 rd rs1⟩

theorem cabs (rd : SReg) (rs1 : SReg) : Statement (.cabs rd rs1) :=
  fun _ => ⟨⟨"cabs", 0xFFFFFFFF03FFFFFFFFFFFFFFFFFFFFFF#128, 0x01040000000000000000000000000000#128⟩, by decide, rfl, encodeR_two 0#2 0x04#8 rd rs1⟩

theorem creal (rd : SReg) (rs1 : SReg) : Statement (.creal rd rs1) :=
  fun _ => ⟨⟨"creal", 0xFFFFFFFF03FFFFFFFFFFFFFFFFFFFFFF#128, 0x01050000000000000000000000000000#128⟩, by decide, rfl, encodeR_two 0#2 0x05#8 rd rs1⟩

theorem cimag (rd : SReg) (rs1 : SReg) : Statement (.cimag rd rs1) :=
  fun _ => ⟨⟨"cimag", 0xFFFFFFFF03FFFFFFFFFFFFFFFFFFFFFF#128, 0x01060000000000000000000000000000#128⟩, by decide, rfl, encodeR_two 0#2 0x06#8 rd rs1⟩

theorem crecip (rd : SReg) (rs1 : SReg) : Statement (.crecip rd rs1) :=
  fun _ => ⟨⟨"crecip", 0xFFFFFFFF03FFFFFFFFFFFFFFFFFFFFFF#128, 0x01070000000000000000000000000000#128⟩, by decide, rfl, encodeR_two 0#2 0x07#8 rd rs1⟩

theorem cadd (rd : SReg) (rs1 : SReg) (rs2 : SReg) : Statement (.cadd rd rs1 rs2) :=
  fun _ => ⟨⟨"cadd", 0xFFFFFFFF007FFFFFFFFFFFFFFFFFFFFF#128, 0x01080000000000000000000000000000#128⟩, by decide, rfl, encodeR_three 0#2 0x08#8 rd rs1 rs2⟩

theorem csub (rd : SReg) (rs1 : SReg) (rs2 : SReg) : Statement (.csub rd rs1 rs2) :=
  fun _ => ⟨⟨"csub", 0xFFFFFFFF007FFFFFFFFFFFFFFFFFFFFF#128, 0x01090000000000000000000000000000#128⟩, by decide, rfl, encodeR_three 0#2 0x09#8 rd rs1 rs2⟩

theorem cmul (rd : SReg) (rs1 : SReg) (rs2 : SReg) : Statement (.cmul rd rs1 rs2) :=
  fun _ => ⟨⟨"cmul", 0xFFFFFFFF007FFFFFFFFFFFFFFFFFFFFF#128, 0x010A0000000000000000000000000000#128⟩, by decide, rfl, encodeR_three 0#2 0x0A#8 rd rs1 rs2⟩

theorem cdiv (rd : SReg) (rs1 : SReg) (rs2 : SReg) : Statement (.cdiv rd rs1 rs2) :=
  fun _ => ⟨⟨"cdiv", 0xFFFFFFFF007FFFFFFFFFFFFFFFFFFFFF#128, 0x010B0000000000000000000000000000#128⟩, by decide, rfl, encodeR_three 0#2 0x0B#8 rd rs1 rs2⟩

theorem cmaxabs (rd : SReg) (rs1 : SReg) (rs2 : SReg) : Statement (.cmaxabs rd rs1 rs2) :=
  fun _ => ⟨⟨"cmaxabs", 0xFFFFFFFF007FFFFFFFFFFFFFFFFFFFFF#128, 0x010C0000000000000000000000000000#128⟩, by decide, rfl, encodeR_three 0#2 0x0C#8 rd rs1 rs2⟩

theorem cminabs (rd : SReg) (rs1 : SReg) (rs2 : SReg) : Statement (.cminabs rd rs1 rs2) :=
  fun _ => ⟨⟨"cminabs", 0xFFFFFFFF007FFFFFFFFFFFFFFFFFFFFF#128, 0x010D0000000000000000000000000000#128⟩, by decide, rfl, encodeR_three 0#2 0x0D#8 rd rs1 rs2⟩

theorem cmpltRe (rd : SReg) (rs1 : SReg) (rs2 : SReg) : Statement (.cmpltRe rd rs1 rs2) :=
  fun _ => ⟨⟨"cmplt.re", 0xFFFFFFFF007FFFFFFFFFFFFFFFFFFFFF#128, 0x010E0000000000000000000000000000#128⟩, by decide, rfl, encodeR_three 0#2 0x0E#8 rd rs1 rs2⟩

theorem cmpgtRe (rd : SReg) (rs1 : SReg) (rs2 : SReg) : Statement (.cmpgtRe rd rs1 rs2) :=
  fun _ => ⟨⟨"cmpgt.re", 0xFFFFFFFF007FFFFFFFFFFFFFFFFFFFFF#128, 0x010F0000000000000000000000000000#128⟩, by decide, rfl, encodeR_three 0#2 0x0F#8 rd rs1 rs2⟩

theorem cmpleRe (rd : SReg) (rs1 : SReg) (rs2 : SReg) : Statement (.cmpleRe rd rs1 rs2) :=
  fun _ => ⟨⟨"cmple.re", 0xFFFFFFFF007FFFFFFFFFFFFFFFFFFFFF#128, 0x01100000000000000000000000000000#128⟩, by decide, rfl, encodeR_three 0#2 0x10#8 rd rs1 rs2⟩

theorem vadd (rd : VReg) (rs1 : VReg) (rs2 : VReg) : Statement (.vadd rd rs1 rs2) :=
  fun _ => ⟨⟨"vadd", 0xFFFFFFFF007FFFFFFFFFFFFFFFFFFFFF#128, 0x01000001000000000000000000000000#128⟩, by decide, rfl, encodeR_three 1#2 0x00#8 rd rs1 rs2⟩

theorem vsub (rd : VReg) (rs1 : VReg) (rs2 : VReg) : Statement (.vsub rd rs1 rs2) :=
  fun _ => ⟨⟨"vsub", 0xFFFFFFFF007FFFFFFFFFFFFFFFFFFFFF#128, 0x01010001000000000000000000000000#128⟩, by decide, rfl, encodeR_three 1#2 0x01#8 rd rs1 rs2⟩

theorem vmul (rd : VReg) (rs1 : VReg) (rs2 : VReg) : Statement (.vmul rd rs1 rs2) :=
  fun _ => ⟨⟨"vmul", 0xFFFFFFFF007FFFFFFFFFFFFFFFFFFFFF#128, 0x01020001000000000000000000000000#128⟩, by decide, rfl, encodeR_three 1#2 0x02#8 rd rs1 rs2⟩

theorem vmac (rd : VReg) (rs1 : VReg) (rs2 : VReg) : Statement (.vmac rd rs1 rs2) :=
  fun _ => ⟨⟨"vmac", 0xFFFFFFFF007FFFFFFFFFFFFFFFFFFFFF#128, 0x01030001000000000000000000000000#128⟩, by decide, rfl, encodeR_three 1#2 0x03#8 rd rs1 rs2⟩

theorem vdiv (rd : VReg) (rs1 : VReg) (rs2 : VReg) : Statement (.vdiv rd rs1 rs2) :=
  fun _ => ⟨⟨"vdiv", 0xFFFFFFFF007FFFFFFFFFFFFFFFFFFFFF#128, 0x01040001000000000000000000000000#128⟩, by decide, rfl, encodeR_three 1#2 0x04#8 rd rs1 rs2⟩

theorem vconj (rd : VReg) (rs1 : VReg) : Statement (.vconj rd rs1) :=
  fun _ => ⟨⟨"vconj", 0xFFFFFFFF03FFFFFFFFFFFFFFFFFFFFFF#128, 0x01050001000000000000000000000000#128⟩, by decide, rfl, encodeR_two 1#2 0x05#8 rd rs1⟩

theorem dotc (rd : SReg) (rs1 : VReg) (rs2 : VReg) : Statement (.dotc rd rs1 rs2) :=
  fun _ => ⟨⟨"dotc", 0xFFFFFFFF007FFFFFFFFFFFFFFFFFFFFF#128, 0x01000002000000000000000000000000#128⟩, by decide, rfl, encodeR_three 2#2 0x00#8 rd rs1 rs2⟩

theorem dotu (rd : SReg) (rs1 : VReg) (rs2 : VReg) : Statement (.dotu rd rs1 rs2) :=
  fun _ => ⟨⟨"dotu", 0xFFFFFFFF007FFFFFFFFFFFFFFFFFFFFF#128, 0x01010002000000000000000000000000#128⟩, by decide, rfl, encodeR_three 2#2 0x01#8 rd rs1 rs2⟩

theorem iamax (rd : SReg) (rs1 : VReg) : Statement (.iamax rd rs1) :=
  fun _ => ⟨⟨"iamax", 0xFFFFFFFF03FFFFFFFFFFFFFFFFFFFFFF#128, 0x01020002000000000000000000000000#128⟩, by decide, rfl, encodeR_two 2#2 0x02#8 rd rs1⟩

theorem sum (rd : SReg) (rs1 : VReg) : Statement (.sum rd rs1) :=
  fun _ => ⟨⟨"sum", 0xFFFFFFFF03FFFFFFFFFFFFFFFFFFFFFF#128, 0x01030002000000000000000000000000#128⟩, by decide, rfl, encodeR_two 2#2 0x03#8 rd rs1⟩

theorem asum (rd : SReg) (rs1 : VReg) : Statement (.asum rd rs1) :=
  fun _ => ⟨⟨"asum", 0xFFFFFFFF03FFFFFFFFFFFFFFFFFFFFFF#128, 0x01040002000000000000000000000000#128⟩, by decide, rfl, encodeR_two 2#2 0x04#8 rd rs1⟩

theorem vsadd (rd : VReg) (rs1 : VReg) (rs2 : SReg) : Statement (.vsadd rd rs1 rs2) :=
  fun _ => ⟨⟨"vsadd", 0xFFFFFFFF007FFFFFFFFFFFFFFFFFFFFF#128, 0x01180003000000000000000000000000#128⟩, by decide, rfl, encodeR_three 3#2 0x18#8 rd rs1 rs2⟩

theorem vssub (rd : VReg) (rs1 : VReg) (rs2 : SReg) : Statement (.vssub rd rs1 rs2) :=
  fun _ => ⟨⟨"vssub", 0xFFFFFFFF007FFFFFFFFFFFFFFFFFFFFF#128, 0x01190003000000000000000000000000#128⟩, by decide, rfl, encodeR_three 3#2 0x19#8 rd rs1 rs2⟩

theorem vsmul (rd : VReg) (rs1 : VReg) (rs2 : SReg) : Statement (.vsmul rd rs1 rs2) :=
  fun _ => ⟨⟨"vsmul", 0xFFFFFFFF007FFFFFFFFFFFFFFFFFFFFF#128, 0x011A0003000000000000000000000000#128⟩, by decide, rfl, encodeR_three 3#2 0x1A#8 rd rs1 rs2⟩

theorem vsdiv (rd : VReg) (rs1 : VReg) (rs2 : SReg) : Statement (.vsdiv rd rs1 rs2) :=
  fun _ => ⟨⟨"vsdiv", 0xFFFFFFFF007FFFFFFFFFFFFFFFFFFFFF#128, 0x011B0003000000000000000000000000#128⟩, by decide, rfl, encodeR_three 3#2 0x1B#8 rd rs1 rs2⟩

theorem vsload (rd : VReg) (rs2 : SReg) (idx : BitVec 16) : Statement (.vsload rd rs2 idx) :=
  fun _ => ⟨⟨"vsload", 0xFFFFFFFF1C00007FFFFFFFFFFFFFFFFF#128, 0x011C0003000000000000000000000000#128⟩, by decide, rfl, encodeR_vsload 3#2 0x1C#8 rd rs2 idx⟩

theorem cloadi (rd : SReg) (re45 : BitVec 45) (im45 : BitVec 45) : Statement (.cloadi rd re45 im45) :=
  fun _ => ⟨⟨"cloadi", 0xFFFFFFFF1C0000000000000000000000#128, 0x02000000000000000000000000000000#128⟩, by decide, rfl, encodeI_cloadi 0x00#8 rd re45 im45⟩

theorem caddI (rd : SReg) (rs1 : SReg) (re45 : BitVec 45) (im45 : BitVec 45) : Statement (.caddI rd rs1 re45 im45) :=
  fun _ => ⟨⟨"cadd_i", 0xFFFFFFFF000000000000000000000000#128, 0x02010000000000000000000000000000#128⟩, by decide, rfl, encodeI_free 0x01#8 rd rs1 re45 im45⟩

theorem cmulI (rd : SReg) (rs1 : SReg) (re45 : BitVec 45) (im45 : BitVec 45) : Statement (.cmulI rd rs1 re45 im45) :=
  fun _ => ⟨⟨"cmul_i", 0xFFFFFFFF000000000000000000000000#128, 0x02020000000000000000000000000000#128⟩, by decide, rfl, encodeI_free 0x02#8 rd rs1 re45 im45⟩

theorem csubI (rd : SReg) (rs1 : SReg) (re45 : BitVec 45) (im45 : BitVec 45) : Statement (.csubI rd rs1 re45 im45) :=
  fun _ => ⟨⟨"csub_i", 0xFFFFFFFF000000000000000000000000#128, 0x02030000000000000000000000000000#128⟩, by decide, rfl, encodeI_free 0x03#8 rd rs1 re45 im45⟩

theorem cdivI (rd : SReg) (rs1 : SReg) (re45 : BitVec 45) (im45 : BitVec 45) : Statement (.cdivI rd rs1 re45 im45) :=
  fun _ => ⟨⟨"cdiv_i", 0xFFFFFFFF000000000000000000000000#128, 0x02040000000000000000000000000000#128⟩, by decide, rfl, encodeI_free 0x04#8 rd rs1 re45 im45⟩

theorem cmaxabsI (rd : SReg) (rs1 : SReg) (re45 : BitVec 45) (im45 : BitVec 45) : Statement (.cmaxabsI rd rs1 re45 im45) :=
  fun _ => ⟨⟨"cmaxabs_i", 0xFFFFFFFF000000000000000000000000#128, 0x02050000000000000000000000000000#128⟩, by decide, rfl, encodeI_free 0x05#8 rd rs1 re45 im45⟩

theorem cminabsI (rd : SReg) (rs1 : SReg) (re45 : BitVec 45) (im45 : BitVec 45) : Statement (.cminabsI rd rs1 re45 im45) :=
  fun _ => ⟨⟨"cminabs_i", 0xFFFFFFFF000000000000000000000000#128, 0x02060000000000000000000000000000#128⟩, by decide, rfl, encodeI_free 0x06#8 rd rs1 re45 im45⟩

theorem cscaleI (rd : SReg) (rs1 : SReg) (re45 : BitVec 45) : Statement (.cscaleI rd rs1 re45) :=
  fun _ => ⟨⟨"cscale_i", 0xFFFFFFFF03FFFFFFFFFFE00000000000#128, 0x02100000000000000000000000000000#128⟩, by decide, rfl, encodeI_cscale 0x10#8 rd rs1 re45⟩

theorem jrel (offs33 : BitVec 33) : Statement (.jrel offs33) :=
  fun _ => ⟨⟨"jrel", 0xFFFFFFFFFC00000001FFFFFFFFFFFFFF#128, 0x03000000040000000000000000000000#128⟩, by decide, rfl, encodeJ_free offs33⟩

theorem vld (rd : VReg) (mbid : BitVec 3) (rc : Dir) (idx16 : BitVec 16) (len16 : BitVec 16) : Statement (.vld rd mbid rc idx16 len16) :=
  fun h => ⟨⟨"vld", 0xFFFF7FFF1200000001FFFFFFFFFFFFFF#128, 0x04000000000000000000000000000000#128⟩, by decide, rfl, encodeS_free 0x00#8 (dirBit rc) rd mbid idx16 len16 h⟩

theorem vst (rs : VReg) (mbid : BitVec 3) (rc : Dir) (idx16 : BitVec 16) (len16 : BitVec 16) : Statement (.vst rs mbid rc idx16 len16) :=
  fun h => ⟨⟨"vst", 0xFFFF7FFF1200000001FFFFFFFFFFFFFF#128, 0x04010000000000000000000000000000#128⟩, by decide, rfl, encodeS_free 0x01#8 (dirBit rc) rs mbid idx16 len16 h⟩

theorem sldXy (rd : SReg) (mbid : BitVec 3) (x16 : BitVec 16) (y16 : BitVec 16) : Statement (.sldXy rd mbid x16 y16) :=
  fun h => ⟨⟨"sld.xy", 0xFFFFFFFF1200000001FFFFFFFFFFFFFF#128, 0x04020000000000000000000000000000#128⟩, by decide, rfl, encodeS_scalar 0x02#8 rd mbid x16 y16 h⟩

theorem sstXy (rs : SReg) (mbid : BitVec 3) (x16 : BitVec 16) (y16 : BitVec 16) : Statement (.sstXy rs mbid x16 y16) :=
  fun h => ⟨⟨"sst.xy", 0xFFFFFFFF1200000001FFFFFFFFFFFFFF#128, 0x04030000000000000000000000000000#128⟩, by decide, rfl, encodeS_scalar 0x03#8 rs mbid x16 y16 h⟩

end Laws.TableRow

end Sys2Proof
end

