-- ==== Sys2Proof/Laws/Start.lean ====
section
/-! SUPPORT. Sys2Proof/Laws/Start.lean: what the host's moves do: which elements there are, which byte an address of
`BANK_LAYOUT` is, and what an image supplies. -/

namespace Sys2Proof.Machine

theorem mem_elements {p : Params} {b r c : Nat} :
    (b, r, c) ∈ elements p ↔ b < 4 ∧ r < side p ∧ c < side p := by
  simp only [elements, List.mem_flatMap, List.mem_map, List.mem_range, Prod.mk.injEq]
  constructor
  · rintro ⟨_, hb, _, hr, _, hc, rfl, rfl, rfl⟩; exact ⟨hb, hr, hc⟩
  · rintro ⟨hb, hr, hc⟩; exact ⟨b, hb, r, hr, c, hc, rfl, rfl, rfl⟩

/-- Which cell a byte at the host's address `x` is. -/
theorem cellIn_eq_some {p : Params} {x k : Nat} {e : Nat × Nat × Nat} :
    cellIn p x e = some k ↔ ∃ a, layoutAddr p e.1 e.2.1 e.2.2 = some a ∧ a ≤ x ∧ x < a + 16 ∧
      k = elemCell p e.1 e.2.1 e.2.2 + (x - a) := by
  unfold cellIn elementBytes
  cases layoutAddr p e.1 e.2.1 e.2.2 with
  | none => simp
  | some a =>
    simp only [Option.some.injEq, exists_eq_left']
    split
    · rename_i h; simp only [Option.some.injEq]; constructor <;> intro h' <;> [exact ⟨h.1, h.2, h'.symm⟩; exact h'.2.2.symm]
    · rename_i h; simp only [reduceCtorEq, false_iff]; rintro ⟨h1, h2, -⟩; exact h ⟨h1, h2⟩

/-- The host reads, at the address given to an element plus `j`, the element's byte `j` (R54, R58). -/
theorem hostRead_eq {s : State} {b r c a j : Nat} (hs : LayoutSeparates s.params) (hb : b < 4)
    (hr : r < side s.params) (hc : c < side s.params) (ha : layoutAddr s.params b r c = some a) (hj : j < 16) :
    hostRead s (a + j) = Memory.lookup s.mem (elemCell s.params b r c + j) := by
  have hf : (elements s.params).findSome? (cellIn s.params (a + j)) = some (elemCell s.params b r c + j) := by
    cases h : (elements s.params).findSome? (cellIn s.params (a + j)) with
    | none =>
      have := List.findSome?_eq_none_iff.1 h _ (mem_elements.2 ⟨hb, hr, hc⟩)
      rw [cellIn_eq_some.2 ⟨a, ha, by omega, by omega, rfl⟩] at this; cases this
    | some k =>
      obtain ⟨⟨b', r', c'⟩, he, hk⟩ := List.exists_of_findSome?_eq_some h
      obtain ⟨hb', hr', hc'⟩ := mem_elements.1 he
      obtain ⟨a', ha', h1, h2, rfl⟩ := cellIn_eq_some.1 hk
      by_cases hne : (b, r, c) = (b', r', c')
      · cases hne
        rw [ha] at ha'; cases ha'
        simp
      · have := hs b r c b' r' c' a a' hb hr hc hb' hr' hc' hne ha ha'
        omega
  simp only [hostRead, hf]

@[simp] theorem loadElem_params (image : List Host.Cell) (s : State) (e : Nat × Nat × Nat) :
    (loadElem image s e).params = s.params := by
  unfold loadElem; split <;> [split <;> simp; rfl]

/-- Supplying one element leaves the others alone. -/
theorem elemAt_loadElem_of_ne {image : List Host.Cell} {s : State} {b r c : Nat} {e : Nat × Nat × Nat}
    (hr : r < side s.params) (hc : c < side s.params) (he : e ∈ elements s.params) (h : (b, r, c) ≠ e) :
    elemAt (loadElem image s e) b r c = elemAt s b r c := by
  obtain ⟨b', r', c'⟩ := e
  obtain ⟨-, hr', hc'⟩ := mem_elements.1 he
  unfold loadElem
  split
  · split
    · exact elemAt_setElem_of_ne hr hc hr' hc' h
    · rfl
  · rfl

/-- Supplying an element the image holds gives it that value. -/
theorem elemAt_loadElem {image : List Host.Cell} {s : State} {b r c a : Nat} {x : Cplx}
    (ha : layoutAddr s.params b r c = some a) (hx : Memory.elemAt image a = some x) :
    elemAt (loadElem image s (b, r, c)) b r c = some x := by
  simp only [loadElem, ha, hx, elemAt_setElem]

/-- An image supplies every element whose sixteen bytes it holds. -/
theorem elemAt_loadImage {image : List Host.Cell} {s : State} {b r c a : Nat} {x : Cplx} (hb : b < 4)
    (hr : r < side s.params) (hc : c < side s.params) (ha : layoutAddr s.params b r c = some a)
    (hx : Memory.elemAt image a = some x) : elemAt (loadImage s image) b r c = some x := by
  have key : ∀ (l : List (Nat × Nat × Nat)) (u : State), u.params = s.params → (∀ e ∈ l, e ∈ elements s.params) →
      ((b, r, c) ∈ l ∨ elemAt u b r c = some x) → elemAt (l.foldl (loadElem image) u) b r c = some x := by
    intro l
    induction l with
    | nil => intro u _ _ h; simpa using h
    | cons e l ih =>
      intro u hu hl h
      refine ih _ (by simpa using hu) (fun e he => hl e (by simp [he])) ?_
      by_cases he : (b, r, c) = e
      · subst he; exact .inr (elemAt_loadElem (by rw [hu]; exact ha) hx)
      · rcases h with h | h
        · rcases List.mem_cons.1 h with h | h
          · exact absurd h he
          · exact .inl h
        · right
          rw [elemAt_loadElem_of_ne (by rw [hu]; exact hr) (by rw [hu]; exact hc) (by rw [hu]; exact hl e (by simp)) he]
          exact h
  exact key _ s rfl (fun _ h => h) (.inl (mem_elements.2 ⟨hb, hr, hc⟩))

end Sys2Proof.Machine
end

