-- ==== Sys2Proof/Tests/Slice0.lean ====
section
/-! SUPPORT. Sys2Proof/Tests/Slice0.lean: tests. Words, illegal words and results are those of spec
95_test_vectors.md (sections 2 to 5), which derives them from the rules; the ill-formed terms are R87's. After the
tests, one witness for every obligation that has hypotheses: concrete values that meet them together. -/

namespace Sys2Proof.Tests

open Sys2Proof.Machine

-- The tests are elaborated one after another: run side by side they ask for a thread each.
set_option Elab.async false

/-! ### Small states -/

/-- Parameters of a test: `VLEN`, `N = 2`, `INT_ENC`, the reference functions, the row-major layout. -/
def params (vlen : Nat) (e : IntEnc) : Params :=
  ⟨vlen, 2, e, .reference, .reference, .reference, .rowMajor #v[0, 4096, 8192, 12288]⟩

/-- A complex value by its raw integers. -/
def raw (x y : Int) : Cplx := ⟨BitVec.ofInt 64 x, BitVec.ofInt 64 y⟩

/-- A start state with `pc = 5` and what is supplied. -/
def start (p : Params) (scalars : List (SReg × Cplx)) (lanes : List (VReg × Nat × Cplx))
    (elems : List (Nat × Nat × Nat × Cplx)) : State := State.start p [] 5 scalars lanes elems

/-- A start state with a program. -/
def loaded (prog : List Word) (entry : Int) (scalars : List (SReg × Cplx)) : State :=
  State.start (params 2 .value) prog entry scalars [] []

/-- What `s[r]` holds after an instruction that records no fault. -/
def scalarAfter (i : Instr) (s : State) (r : SReg) : Option Cplx :=
  match exec i s with
  | .next t => if t.fault = none then sAt t r else none
  | _ => none

/-- What the lanes of `v[r]` hold after an instruction that records no fault. -/
def lanesAfter (i : Instr) (s : State) (r : VReg) : List (Option Cplx) :=
  match exec i s with
  | .next t =>
    (List.range t.params.vlen).map fun k => if t.fault = none then laneAt t r k else none
  | _ => []

/-- What elements hold after an instruction that records no fault. -/
def elemsAfter (i : Instr) (s : State) (es : List (Nat × Nat × Nat)) : List (Option Cplx) :=
  match exec i s with
  | .next t =>
    es.map fun e => if t.fault = none then elemAt t e.1 e.2.1 e.2.2 else none
  | _ => []

/-- The pc after an instruction that records no fault. -/
def pcAfter (i : Instr) (s : State) : Option Int :=
  match exec i s with
  | .next t => if t.fault = none then some t.pc else none
  | _ => none

/-- The fault record after an instruction. -/
def faultAfter (i : Instr) (s : State) : Option FaultRecord :=
  match exec i s with
  | .next t => t.fault
  | _ => none

/-- The state after an instruction. -/
def stateAfter (i : Instr) (s : State) : Option State :=
  match exec i s with
  | .next t => some t
  | _ => none

/-- The state after one step. -/
def stateAfterStep (s : State) : Option State :=
  match step s with
  | .next t => some t
  | _ => none

/-- The fault record and the pc after one step. -/
def stepFault (s : State) : Option (Option FaultRecord × Int) :=
  match step s with
  | .next t => some (t.fault, t.pc)
  | _ => none

/-! ### Well-formedness (R87): an ill-formed term for each check -/

theorem test_wf_vld : WellFormed (.vld 1 4#3 .row 0#16 0#16) = false := by decide
theorem test_wf_vst : WellFormed (.vst 1 7#3 .col 0#16 0#16) = false := by decide
theorem test_wf_sld_xy : WellFormed (.sldXy 4 4#3 3#16 1#16) = false := by decide
theorem test_wf_sst_xy : WellFormed (.sstXy 4 5#3 3#16 1#16) = false := by decide
theorem test_wf_largest_bank : WellFormed (.vld 1 3#3 .row 0#16 0#16) = true := by decide

/-! ### Decoding: the words of section 2, every constructor -/

theorem test_decode_cneg :
    decode 0x01000000680000000000000000000000#128 = some (.cneg 3 2) := by decide +kernel
theorem test_decode_conj :
    decode 0x01010000680000000000000000000000#128 = some (.conj 3 2) := by decide +kernel
theorem test_decode_csqrt :
    decode 0x01020000680000000000000000000000#128 = some (.csqrt 3 2) := by decide +kernel
theorem test_decode_cabs2 :
    decode 0x01030000680000000000000000000000#128 = some (.cabs2 3 2) := by decide +kernel
theorem test_decode_cabs :
    decode 0x01040000680000000000000000000000#128 = some (.cabs 3 2) := by decide +kernel
theorem test_decode_creal :
    decode 0x01050000680000000000000000000000#128 = some (.creal 3 2) := by decide +kernel
theorem test_decode_cimag :
    decode 0x01060000680000000000000000000000#128 = some (.cimag 3 2) := by decide +kernel
theorem test_decode_crecip :
    decode 0x01070000680000000000000000000000#128 = some (.crecip 3 2) := by decide +kernel
theorem test_decode_cadd :
    decode 0x01080000898000000000000000000000#128 = some (.cadd 4 2 3) := by decide +kernel
theorem test_decode_csub :
    decode 0x01090000898000000000000000000000#128 = some (.csub 4 2 3) := by decide +kernel
theorem test_decode_cmul :
    decode 0x010A0000898000000000000000000000#128 = some (.cmul 4 2 3) := by decide +kernel
theorem test_decode_cdiv :
    decode 0x010B0000898000000000000000000000#128 = some (.cdiv 4 2 3) := by decide +kernel
theorem test_decode_cmaxabs :
    decode 0x010C0000898000000000000000000000#128 = some (.cmaxabs 4 2 3) := by decide +kernel
theorem test_decode_cminabs :
    decode 0x010D0000898000000000000000000000#128 = some (.cminabs 4 2 3) := by decide +kernel
theorem test_decode_cmpltRe :
    decode 0x010E0000298000000000000000000000#128 = some (.cmpltRe 1 2 3) := by decide +kernel
theorem test_decode_cmpgtRe :
    decode 0x010F0000280000000000000000000000#128 = some (.cmpgtRe 1 2 0) := by decide +kernel
theorem test_decode_cmpleRe :
    decode 0x01100000298000000000000000000000#128 = some (.cmpleRe 1 2 3) := by decide +kernel
theorem test_decode_vadd :
    decode 0x01000001650000000000000000000000#128 = some (.vadd 3 1 2) := by decide +kernel
theorem test_decode_vsub :
    decode 0x01010001650000000000000000000000#128 = some (.vsub 3 1 2) := by decide +kernel
theorem test_decode_vmul :
    decode 0x01020001650000000000000000000000#128 = some (.vmul 3 1 2) := by decide +kernel
theorem test_decode_vmac :
    decode 0x01030001650000000000000000000000#128 = some (.vmac 3 1 2) := by decide +kernel
theorem test_decode_vdiv :
    decode 0x01040001650000000000000000000000#128 = some (.vdiv 3 1 2) := by decide +kernel
theorem test_decode_vconj :
    decode 0x01050001640000000000000000000000#128 = some (.vconj 3 1) := by decide +kernel
theorem test_decode_dotc :
    decode 0x01000002850000000000000000000000#128 = some (.dotc 4 1 2) := by decide +kernel
theorem test_decode_dotu :
    decode 0x01010002850000000000000000000000#128 = some (.dotu 4 1 2) := by decide +kernel
theorem test_decode_iamax :
    decode 0x01020002840000000000000000000000#128 = some (.iamax 4 1) := by decide +kernel
theorem test_decode_sum :
    decode 0x01030002840000000000000000000000#128 = some (.sum 4 1) := by decide +kernel
theorem test_decode_asum :
    decode 0x01040002840000000000000000000000#128 = some (.asum 4 1) := by decide +kernel
theorem test_decode_vsadd :
    decode 0x01180003650000000000000000000000#128 = some (.vsadd 3 1 2) := by decide +kernel
theorem test_decode_vssub :
    decode 0x01190003650000000000000000000000#128 = some (.vssub 3 1 2) := by decide +kernel
theorem test_decode_vsmul :
    decode 0x011A0003650000000000000000000000#128 = some (.vsmul 3 1 2) := by decide +kernel
theorem test_decode_vsdiv :
    decode 0x011B0003650000000000000000000000#128 = some (.vsdiv 3 1 2) := by decide +kernel
theorem test_decode_vsload :
    decode 0x011C0003210000000000000000000000#128 = some (.vsload 1 2 0#16) ∧
      decode 0x011C0003E3FFFF800000000000000000#128 = some (.vsload 7 7 65535#16) := by decide +kernel
theorem test_decode_cloadi :
    decode 0x0200000043FFFFFC0000000000C00000#128 = some (.cloadi 2 0xC00000#45 0x1FFFFFE00000#45) ∧
      decode 0x02000000E1FFFFFFFFFFF00000000000#128 = some (.cloadi 7 0x100000000000#45 0xFFFFFFFFFFF#45) := by decide +kernel
theorem test_decode_caddI :
    decode 0x020100006C0000100000000001000000#128 = some (.caddI 3 3 0x1000000#45 0x800000#45) := by decide +kernel
theorem test_decode_cmulI :
    decode 0x02020000880000400000000001800000#128 = some (.cmulI 4 2 0x1800000#45 0x2000000#45) := by decide +kernel
theorem test_decode_csubI :
    decode 0x020300008BFFFFF00000000001000000#128 = some (.csubI 4 2 0x1000000#45 0x1FFFFF800000#45) := by decide +kernel
theorem test_decode_cdivI :
    decode 0x02040000880000400000000001800000#128 = some (.cdivI 4 2 0x1800000#45 0x2000000#45) := by decide +kernel
theorem test_decode_cmaxabsI :
    decode 0x020500008BFFFFA00000000000000000#128 = some (.cmaxabsI 4 2 0x0#45 0x1FFFFD000000#45) := by decide +kernel
theorem test_decode_cminabsI :
    decode 0x02060000880000000000000000800000#128 = some (.cminabsI 4 2 0x800000#45 0x0#45) := by decide +kernel
theorem test_decode_cscaleI :
    decode 0x02100000880000000000000000400000#128 = some (.cscaleI 4 2 0x400000#45) ∧
      decode 0x021000008800000000001FFFFFC00000#128 = some (.cscaleI 4 2 0x1FFFFFC00000#45) := by decide +kernel
theorem test_decode_jrel :
    decode 0x0300000007FFFFFFFA00000000000000#128 = some (.jrel 0x1fffffffd#33) ∧
      decode 0x03000000040000000200000000000000#128 = some (.jrel 0x1#33) ∧
      decode 0x03000000040000000000000000000000#128 = some (.jrel 0x0#33) ∧
      decode 0x0300000005FFFFFFFE00000000000000#128 = some (.jrel 0xffffffff#33) ∧
      decode 0x03000000060000000000000000000000#128 = some (.jrel 0x100000000#33) := by decide +kernel
theorem test_decode_vld :
    decode 0x04008000440006000000000000000000#128 = some (.vld 2 1#3 .col 3#16 0#16) ∧
      decode 0x04000000A40004000200000000000000#128 = some (.vld 5 1#3 .row 2#16 1#16) := by decide +kernel
theorem test_decode_vst :
    decode 0x04010000600004000000000000000000#128 = some (.vst 3 0#3 .row 2#16 0#16) ∧
      decode 0x040180002DFFFFFFFE00000000000000#128 = some (.vst 1 3#3 .col 65535#16 65535#16) := by decide +kernel
theorem test_decode_sldXy :
    decode 0x04020000880006000200000000000000#128 = some (.sldXy 4 2#3 3#16 1#16) := by decide +kernel
theorem test_decode_sstXy :
    decode 0x04030000AC0000000400000000000000#128 = some (.sstXy 5 3#3 0#16 2#16) := by decide +kernel

/-- A word as it lies in memory (R55), the bytes of section 2. -/
theorem test_bytes_of_jrel :
    wordBytes 0x0300000007FFFFFFFA00000000000000#128 =
      [0x00, 0x00, 0x00, 0x00, 0x00, 0x00, 0x00, 0xFA, 0xFF, 0xFF, 0xFF, 0x07, 0x00, 0x00, 0x00, 0x03] := by
  decide +kernel
theorem test_short_bytes_hold_no_instruction : decodeBytes (List.replicate 15 0#8) = none := by decide +kernel

/-! ### Illegal words: section 3 -/

theorem test_illegal_words_a :
    decode 0x00000000000000000000000000000000#128 = none ∧
      decode 0xFFFFFFFFFFFFFFFFFFFFFFFFFFFFFFFF#128 = none ∧
      decode 0x05000000000000000000000000000000#128 = none ∧
      decode 0x01080000898000800000000000000000#128 = none ∧
      decode 0x01000000688000000000000000000000#128 = none ∧
      decode 0x01080000898000000000000000000001#128 = none ∧
      decode 0x01080004898000000000000000000000#128 = none ∧
      decode 0x01110000298000000000000000000000#128 = none ∧
      decode 0x01060001298000000000000000000000#128 = none := by decide +kernel
theorem test_illegal_words_b :
    decode 0x01050002298000000000000000000000#128 = none ∧
      decode 0x01000003298000000000000000000000#128 = none ∧
      decode 0x01180000298000000000000000000000#128 = none ∧
      decode 0x011C0003250000000000000000000000#128 = none ∧
      decode 0x020000004C0000000000000000800000#128 = none ∧
      decode 0x020100016C0000100000000001000000#128 = none ∧
      decode 0x020700006C0000100000000001000000#128 = none ∧
      decode 0x02100000880000000000200000400000#128 = none ∧
      decode 0x030000000BFFFFFFFA00000000000000#128 = none := by decide +kernel
theorem test_illegal_words_c :
    decode 0x0300000003FFFFFFFA00000000000000#128 = none ∧
      decode 0x0300000027FFFFFFFA00000000000000#128 = none ∧
      decode 0x0301000007FFFFFFFA00000000000000#128 = none ∧
      decode 0x0300000007FFFFFFFB00000000000000#128 = none ∧
      decode 0x04020000900006000200000000000000#128 = none ∧
      decode 0x04028000880006000200000000000000#128 = none ∧
      decode 0x04008000460006000000000000000000#128 = none ∧
      decode 0x04008001440006000000000000000000#128 = none ∧
      decode 0x04040000440006000000000000000000#128 = none := by decide +kernel

/-! ### Results: section 4 -/

/-! #### 4.1 R-type scalar -/
theorem test_cneg : scalarAfter (.cneg 4 2) (start (params 2 .value) [(2, raw 6442450944 (-1073741824))] [] []) 4 = some ⟨0xFFFFFFFE80000000#64, 0x0000000040000000#64⟩ := by decide +kernel
theorem test_cneg_min : scalarAfter (.cneg 4 2) (start (params 2 .value) [(2, raw (-9223372036854775808) (-9223372036854775808))] [] []) 4 = some ⟨0x8000000000000000#64, 0x8000000000000000#64⟩ := by decide +kernel
theorem test_conj_min : scalarAfter (.conj 4 2) (start (params 2 .value) [(2, raw 5 (-9223372036854775808))] [] []) 4 = some ⟨0x0000000000000005#64, 0x8000000000000000#64⟩ := by decide +kernel
theorem test_csqrt_conjugate : scalarAfter (.csqrt 4 2) (start (params 2 .value) [(2, raw 12884901888 (-17179869184))] [] []) 4 = some ⟨0x0000000200000000#64, 0xFFFFFFFF00000000#64⟩ := by decide +kernel
theorem test_csqrt_floor : scalarAfter (.csqrt 4 2) (start (params 2 .value) [(2, raw 0 (-4294967296))] [] []) 4 = some ⟨0x00000000B504F333#64, 0xFFFFFFFF4AFB0CCC#64⟩ := by decide +kernel
theorem test_cabs2_overflow : scalarAfter (.cabs2 4 2) (start (params 2 .value) [(2, raw 199033079463936 0)] [] []) 4 = some ⟨0x8000121900000000#64, 0x0000000000000000#64⟩ := by decide +kernel
theorem test_cabs2_floor : scalarAfter (.cabs2 4 2) (start (params 2 .value) [(2, raw 1 0)] [] []) 4 = some ⟨0x0000000000000000#64, 0x0000000000000000#64⟩ := by decide +kernel
theorem test_cabs : scalarAfter (.cabs 4 2) (start (params 2 .value) [(2, raw 12884901888 17179869184)] [] []) 4 = some ⟨0x0000000500000000#64, 0x0000000000000000#64⟩ := by decide +kernel
theorem test_cabs_wraps : scalarAfter (.cabs 4 2) (start (params 2 .value) [(2, raw (-9223372036854775808) (-9223372036854775808))] [] []) 4 = some ⟨0xB504F333F9DE6484#64, 0x0000000000000000#64⟩ := by decide +kernel
theorem test_creal : scalarAfter (.creal 4 2) (start (params 2 .value) [(2, raw 6442450944 (-1073741824))] [] []) 4 = some ⟨0x0000000180000000#64, 0x0000000000000000#64⟩ := by decide +kernel
theorem test_cimag : scalarAfter (.cimag 4 2) (start (params 2 .value) [(2, raw 6442450944 (-1073741824))] [] []) 4 = some ⟨0xFFFFFFFFC0000000#64, 0x0000000000000000#64⟩ := by decide +kernel
theorem test_crecip_floor : scalarAfter (.crecip 4 2) (start (params 2 .value) [(2, raw (-12884901888) 0)] [] []) 4 = some ⟨0xFFFFFFFFAAAAAAAA#64, 0x0000000000000000#64⟩ := by decide +kernel
theorem test_crecip_wraps : scalarAfter (.crecip 4 2) (start (params 2 .value) [(2, raw 2 0)] [] []) 4 = some ⟨0x8000000000000000#64, 0x0000000000000000#64⟩ := by decide +kernel
theorem test_cadd : scalarAfter (.cadd 4 2 3) (start (params 2 .value) [(2, raw 6442450944 (-1073741824)), (3, raw 8589934592 4294967296)] [] []) 4 = some ⟨0x0000000380000000#64, 0x00000000C0000000#64⟩ := by decide +kernel
theorem test_cadd_wraps : scalarAfter (.cadd 4 2 3) (start (params 2 .value) [(2, raw 9223372036854775807 (-9223372036854775808)), (3, raw 1 (-1))] [] []) 4 = some ⟨0x8000000000000000#64, 0x7FFFFFFFFFFFFFFF#64⟩ := by decide +kernel
theorem test_csub : scalarAfter (.csub 4 2 3) (start (params 2 .value) [(2, raw 6442450944 (-1073741824)), (3, raw 8589934592 4294967296)] [] []) 4 = some ⟨0xFFFFFFFF80000000#64, 0xFFFFFFFEC0000000#64⟩ := by decide +kernel
theorem test_csub_wraps : scalarAfter (.csub 4 2 3) (start (params 2 .value) [(2, raw (-9223372036854775808) 9223372036854775807), (3, raw 1 (-1))] [] []) 4 = some ⟨0x7FFFFFFFFFFFFFFF#64, 0x8000000000000000#64⟩ := by decide +kernel
theorem test_cmul : scalarAfter (.cmul 4 2 3) (start (params 2 .value) [(2, raw 4294967296 8589934592), (3, raw 12884901888 17179869184)] [] []) 4 = some ⟨0xFFFFFFFB00000000#64, 0x0000000A00000000#64⟩ := by decide +kernel
theorem test_cmul_floor : scalarAfter (.cmul 4 2 3) (start (params 2 .value) [(2, raw (-1) 0), (3, raw 2147483648 0)] [] []) 4 = some ⟨0xFFFFFFFFFFFFFFFF#64, 0x0000000000000000#64⟩ := by decide +kernel
theorem test_cdiv : scalarAfter (.cdiv 4 2 3) (start (params 2 .value) [(2, raw (-21474836480) 42949672960), (3, raw 12884901888 17179869184)] [] []) 4 = some ⟨0x0000000100000000#64, 0x0000000200000000#64⟩ := by decide +kernel
theorem test_cdiv_zero : scalarAfter (.cdiv 4 2 3) (start (params 2 .value) [(2, raw (-21474836480) 42949672960), (3, raw 0 0)] [] []) 4 = some ⟨0x0000000000000000#64, 0x0000000000000000#64⟩ := by decide +kernel
theorem test_cmaxabs_tie : scalarAfter (.cmaxabs 4 2 3) (start (params 2 .value) [(2, raw 12884901888 17179869184), (3, raw 21474836480 0)] [] []) 4 = some ⟨0x0000000300000000#64, 0x0000000400000000#64⟩ := by decide +kernel
theorem test_cmaxabs : scalarAfter (.cmaxabs 4 2 3) (start (params 2 .value) [(2, raw 4294967296 0), (3, raw 0 (-8589934592))] [] []) 4 = some ⟨0x0000000000000000#64, 0xFFFFFFFE00000000#64⟩ := by decide +kernel
theorem test_cminabs : scalarAfter (.cminabs 4 2 3) (start (params 2 .value) [(2, raw 4294967296 0), (3, raw 0 (-8589934592))] [] []) 4 = some ⟨0x0000000100000000#64, 0x0000000000000000#64⟩ := by decide +kernel
theorem test_cmplt_equal : scalarAfter (.cmpltRe 4 2 3) (start (params 2 .value) [(2, raw 8589934592 38654705664), (3, raw 8589934592 0)] [] []) 4 = some ⟨0x0000000000000000#64, 0x0000000000000000#64⟩ := by decide +kernel
theorem test_cmplt_signed : scalarAfter (.cmpltRe 4 2 3) (start (params 2 .value) [(2, raw (-9223372036854775808) 0), (3, raw 9223372036854775807 0)] [] []) 4 = some ⟨0x0000000100000000#64, 0x0000000000000000#64⟩ := by decide +kernel
theorem test_cmpgt : scalarAfter (.cmpgtRe 4 2 0) (start (params 2 .value) [(2, raw 12884901888 0)] [] []) 4 = some ⟨0x0000000100000000#64, 0x0000000000000000#64⟩ := by decide +kernel
theorem test_cmpgt_raw : scalarAfter (.cmpgtRe 4 2 0) (start (params 2 .raw) [(2, raw 12884901888 0)] [] []) 4 = some ⟨0x0000000000000001#64, 0x0000000000000000#64⟩ := by decide +kernel
theorem test_cmple_equal : scalarAfter (.cmpleRe 4 2 3) (start (params 2 .value) [(2, raw 8589934592 38654705664), (3, raw 8589934592 0)] [] []) 4 = some ⟨0x0000000100000000#64, 0x0000000000000000#64⟩ := by decide +kernel
/-! #### 4.2 R-type lane-wise vector -/
theorem test_vadd_saturates :
    lanesAfter (.vadd 3 1 2) (start (params 2 .value) []
      [(1, 0, raw 4294967296 4294967296), (1, 1, raw 9223372036854775807 0), (2, 0, raw 8589934592 (-12884901888)), (2, 1, raw 4294967296 0)] []) 3 =
      [some ⟨0x0000000300000000#64, 0xFFFFFFFE00000000#64⟩, some ⟨0x7FFFFFFFFFFFFFFF#64, 0x0000000000000000#64⟩] := by decide +kernel
theorem test_vadd_saturates_low :
    lanesAfter (.vadd 3 1 2) (start (params 2 .value) []
      [(1, 0, raw 4294967296 4294967296), (1, 1, raw (-9223372036854775808) (-9223372036854775808)), (2, 0, raw 8589934592 (-12884901888)), (2, 1, raw (-1) (-1))] []) 3 =
      [some ⟨0x0000000300000000#64, 0xFFFFFFFE00000000#64⟩, some ⟨0x8000000000000000#64, 0x8000000000000000#64⟩] := by decide +kernel
theorem test_vsub_saturates :
    lanesAfter (.vsub 3 1 2) (start (params 2 .value) []
      [(1, 0, raw 4294967296 4294967296), (1, 1, raw 0 0), (2, 0, raw 8589934592 (-12884901888)), (2, 1, raw (-9223372036854775808) 0)] []) 3 =
      [some ⟨0xFFFFFFFF00000000#64, 0x0000000400000000#64⟩, some ⟨0x7FFFFFFFFFFFFFFF#64, 0x0000000000000000#64⟩] := by decide +kernel
theorem test_vmul :
    lanesAfter (.vmul 3 1 2) (start (params 2 .value) []
      [(1, 0, raw 4294967296 8589934592), (1, 1, raw 2147483648 0), (2, 0, raw 12884901888 17179869184), (2, 1, raw 0 2147483648)] []) 3 =
      [some ⟨0xFFFFFFFB00000000#64, 0x0000000A00000000#64⟩, some ⟨0x0000000000000000#64, 0x0000000040000000#64⟩] := by decide +kernel
theorem test_vmul_wraps :
    lanesAfter (.vmul 3 1 2) (start (params 2 .value) []
      [(1, 0, raw 281474976710656 0), (1, 1, raw (-1) 0), (2, 0, raw 281474976710656 0), (2, 1, raw 2147483648 0)] []) 3 =
      [some ⟨0x0000000000000000#64, 0x0000000000000000#64⟩, some ⟨0xFFFFFFFFFFFFFFFF#64, 0x0000000000000000#64⟩] := by decide +kernel
theorem test_vmac_wraps :
    lanesAfter (.vmac 3 1 2) (start (params 1 .value) []
      [(1, 0, raw 4294967296 0), (2, 0, raw 1 0), (3, 0, raw 9223372036854775807 0)] []) 3 =
      [some ⟨0x8000000000000000#64, 0x0000000000000000#64⟩] := by decide +kernel
theorem test_vmac_floor :
    lanesAfter (.vmac 3 1 2) (start (params 1 .value) []
      [(1, 0, raw (-1) 0), (2, 0, raw 2147483648 0), (3, 0, raw 5 0)] []) 3 =
      [some ⟨0x0000000000000004#64, 0x0000000000000000#64⟩] := by decide +kernel
theorem test_vdiv_zero_lane :
    lanesAfter (.vdiv 3 1 2) (start (params 2 .value) []
      [(1, 0, raw (-21474836480) 42949672960), (1, 1, raw 30064771072 0), (2, 0, raw 12884901888 17179869184), (2, 1, raw 0 0)] []) 3 =
      [some ⟨0x0000000100000000#64, 0x0000000200000000#64⟩, some ⟨0x0000000000000000#64, 0x0000000000000000#64⟩] := by decide +kernel
theorem test_vconj :
    lanesAfter (.vconj 3 1) (start (params 2 .value) []
      [(1, 0, raw 4294967296 8589934592), (1, 1, raw 5 (-9223372036854775808))] []) 3 =
      [some ⟨0x0000000100000000#64, 0xFFFFFFFE00000000#64⟩, some ⟨0x0000000000000005#64, 0x8000000000000000#64⟩] := by decide +kernel
/-! #### 4.3 R-type reductions -/
theorem test_dotc_conjugates :
    scalarAfter (.dotc 4 1 2) (start (params 2 .value) []
      [(1, 0, raw 0 4294967296), (1, 1, raw 4294967296 0), (2, 0, raw 4294967296 0), (2, 1, raw 0 4294967296)] []) 4 = some ⟨0x0000000000000000#64, 0x0000000000000000#64⟩ := by decide +kernel
theorem test_dotu :
    scalarAfter (.dotu 4 1 2) (start (params 2 .value) []
      [(1, 0, raw 0 4294967296), (1, 1, raw 4294967296 0), (2, 0, raw 4294967296 0), (2, 1, raw 0 4294967296)] []) 4 = some ⟨0x0000000000000000#64, 0x0000000200000000#64⟩ := by decide +kernel
theorem test_dotu_narrows_once :
    scalarAfter (.dotu 4 1 2) (start (params 2 .value) []
      [(1, 0, raw 2147483648 0), (1, 1, raw 2147483648 0), (2, 0, raw 1 0), (2, 1, raw 1 0)] []) 4 = some ⟨0x0000000000000001#64, 0x0000000000000000#64⟩ := by decide +kernel
theorem test_iamax_tie :
    scalarAfter (.iamax 4 1) (start (params 4 .value) []
      [(1, 0, raw 4294967296 0), (1, 1, raw 0 (-12884901888)), (1, 2, raw 12884901888 0), (1, 3, raw 8589934592 8589934592)] []) 4 = some ⟨0x0000000100000000#64, 0x0000000000000000#64⟩ := by decide +kernel
theorem test_iamax_raw :
    scalarAfter (.iamax 4 1) (start (params 4 .raw) []
      [(1, 0, raw 4294967296 0), (1, 1, raw 0 (-12884901888)), (1, 2, raw 12884901888 0), (1, 3, raw 8589934592 8589934592)] []) 4 = some ⟨0x0000000000000001#64, 0x0000000000000000#64⟩ := by decide +kernel
theorem test_sum :
    scalarAfter (.sum 4 1) (start (params 3 .value) []
      [(1, 0, raw 4294967296 4294967296), (1, 1, raw 8589934592 (-12884901888)), (1, 2, raw (-2147483648) 0)] []) 4 = some ⟨0x0000000280000000#64, 0xFFFFFFFE00000000#64⟩ := by decide +kernel
theorem test_sum_wraps :
    scalarAfter (.sum 4 1) (start (params 2 .value) []
      [(1, 0, raw 9223372036854775807 0), (1, 1, raw 1 (-9223372036854775808))] []) 4 = some ⟨0x8000000000000000#64, 0x8000000000000000#64⟩ := by decide +kernel
theorem test_asum :
    scalarAfter (.asum 4 1) (start (params 2 .value) []
      [(1, 0, raw 12884901888 17179869184), (1, 1, raw (-51539607552) 21474836480)] []) 4 = some ⟨0x0000001200000000#64, 0x0000000000000000#64⟩ := by decide +kernel
theorem test_asum_roots_first :
    scalarAfter (.asum 4 1) (start (params 2 .value) []
      [(1, 0, raw 4294967296 4294967296), (1, 1, raw 4294967296 4294967296)] []) 4 = some ⟨0x00000002D413CCCE#64, 0x0000000000000000#64⟩ := by decide +kernel
/-! #### 4.4 R-type vector-scalar and `vsload` -/
theorem test_vsadd_saturates :
    lanesAfter (.vsadd 3 1 2) (start (params 2 .value) [(2, raw 1 (-1))]
      [(1, 0, raw 9223372036854775807 (-9223372036854775808)), (1, 1, raw 0 0)] []) 3 =
      [some ⟨0x7FFFFFFFFFFFFFFF#64, 0x8000000000000000#64⟩, some ⟨0x0000000000000001#64, 0xFFFFFFFFFFFFFFFF#64⟩] := by decide +kernel
theorem test_vssub :
    lanesAfter (.vssub 3 1 2) (start (params 2 .value) [(2, raw 2147483648 (-4294967296))]
      [(1, 0, raw 4294967296 4294967296), (1, 1, raw (-8589934592) 0)] []) 3 =
      [some ⟨0x0000000080000000#64, 0x0000000200000000#64⟩, some ⟨0xFFFFFFFD80000000#64, 0x0000000100000000#64⟩] := by decide +kernel
theorem test_vsmul :
    lanesAfter (.vsmul 3 1 2) (start (params 2 .value) [(2, raw 12884901888 17179869184)]
      [(1, 0, raw 4294967296 8589934592), (1, 1, raw 0 4294967296)] []) 3 =
      [some ⟨0xFFFFFFFB00000000#64, 0x0000000A00000000#64⟩, some ⟨0xFFFFFFFC00000000#64, 0x0000000300000000#64⟩] := by decide +kernel
theorem test_vsdiv :
    lanesAfter (.vsdiv 3 1 2) (start (params 2 .value) [(2, raw 12884901888 17179869184)]
      [(1, 0, raw (-21474836480) 42949672960), (1, 1, raw 12884901888 17179869184)] []) 3 =
      [some ⟨0x0000000100000000#64, 0x0000000200000000#64⟩, some ⟨0x0000000100000000#64, 0x0000000000000000#64⟩] := by decide +kernel
theorem test_vsdiv_zero :
    lanesAfter (.vsdiv 3 1 2) (start (params 2 .value) [(2, raw 0 0)]
      [(1, 0, raw (-21474836480) 42949672960), (1, 1, raw 12884901888 17179869184)] []) 3 =
      [some ⟨0x0000000000000000#64, 0x0000000000000000#64⟩, some ⟨0x0000000000000000#64, 0x0000000000000000#64⟩] := by decide +kernel
theorem test_vsload_keeps_lanes :
    lanesAfter (.vsload 1 2 2#16) (start (params 4 .value) [(2, raw 38654705664 (-4294967296))]
      [(1, 0, raw 4294967296 0), (1, 1, raw 8589934592 0), (1, 2, raw 12884901888 0), (1, 3, raw 17179869184 0)] []) 1 =
      [some ⟨0x0000000100000000#64, 0x0000000000000000#64⟩, some ⟨0x0000000200000000#64, 0x0000000000000000#64⟩, some ⟨0x0000000900000000#64, 0xFFFFFFFF00000000#64⟩, some ⟨0x0000000400000000#64, 0x0000000000000000#64⟩] := by decide +kernel
theorem test_vsload_unwritten :
    lanesAfter (.vsload 1 2 2#16) (start (params 4 .value) [(2, raw 38654705664 (-4294967296))]
      [] []) 1 =
      [none, none, some ⟨0x0000000900000000#64, 0xFFFFFFFF00000000#64⟩, none] := by decide +kernel
/-! #### 4.5 I-type -/
theorem test_cloadi : scalarAfter (.cloadi 4 0xC00000#45 0x1FFFFFE00000#45) (start (params 2 .value) [(2, raw 0 0)] [] []) 4 = some ⟨0x0000000180000000#64, 0xFFFFFFFFC0000000#64⟩ := by decide +kernel
theorem test_cloadi_extremes : scalarAfter (.cloadi 4 0x100000000000#45 0xFFFFFFFFFFF#45) (start (params 2 .value) [(2, raw 0 0)] [] []) 4 = some ⟨0xFFE0000000000000#64, 0x001FFFFFFFFFFE00#64⟩ := by decide +kernel
theorem test_cadd_i : scalarAfter (.caddI 4 2 0x1000000#45 0x1FFFFF800000#45) (start (params 2 .value) [(2, raw 4294967296 4294967296)] [] []) 4 = some ⟨0x0000000300000000#64, 0x0000000000000000#64⟩ := by decide +kernel
theorem test_cadd_i_saturates : scalarAfter (.caddI 4 2 0x800000#45 0x1FFFFF800000#45) (start (params 2 .value) [(2, raw 9223372036854775807 (-9223372036854775808))] [] []) 4 = some ⟨0x7FFFFFFFFFFFFFFF#64, 0x8000000000000000#64⟩ := by decide +kernel
theorem test_cmul_i : scalarAfter (.cmulI 4 2 0x1800000#45 0x2000000#45) (start (params 2 .value) [(2, raw 4294967296 8589934592)] [] []) 4 = some ⟨0xFFFFFFFB00000000#64, 0x0000000A00000000#64⟩ := by decide +kernel
theorem test_cmul_i_saturates : scalarAfter (.cmulI 4 2 0x1FFFFE000000#45 0x1FFFFE000000#45) (start (params 2 .value) [(2, raw 4611686018427387904 0)] [] []) 4 = some ⟨0x8000000000000000#64, 0x8000000000000000#64⟩ := by decide +kernel
theorem test_csub_i : scalarAfter (.csubI 4 2 0x1000000#45 0x1FFFFF800000#45) (start (params 2 .value) [(2, raw 4294967296 4294967296)] [] []) 4 = some ⟨0xFFFFFFFF00000000#64, 0x0000000200000000#64⟩ := by decide +kernel
theorem test_csub_i_saturates : scalarAfter (.csubI 4 2 0x800000#45 0x1FFFFF800000#45) (start (params 2 .value) [(2, raw (-9223372036854775808) 9223372036854775807)] [] []) 4 = some ⟨0x8000000000000000#64, 0x7FFFFFFFFFFFFFFF#64⟩ := by decide +kernel
theorem test_cdiv_i : scalarAfter (.cdivI 4 2 0x1800000#45 0x2000000#45) (start (params 2 .value) [(2, raw (-21474836480) 42949672960)] [] []) 4 = some ⟨0x0000000100000000#64, 0x0000000200000000#64⟩ := by decide +kernel
theorem test_cdiv_i_zero : scalarAfter (.cdivI 4 2 0x0#45 0x0#45) (start (params 2 .value) [(2, raw (-21474836480) 42949672960)] [] []) 4 = some ⟨0x0000000000000000#64, 0x0000000000000000#64⟩ := by decide +kernel
theorem test_cmaxabs_i_tie : scalarAfter (.cmaxabsI 4 2 0x2800000#45 0x0#45) (start (params 2 .value) [(2, raw 12884901888 17179869184)] [] []) 4 = some ⟨0x0000000300000000#64, 0x0000000400000000#64⟩ := by decide +kernel
theorem test_cmaxabs_i : scalarAfter (.cmaxabsI 4 2 0x0#45 0x1FFFFD000000#45) (start (params 2 .value) [(2, raw 12884901888 17179869184)] [] []) 4 = some ⟨0x0000000000000000#64, 0xFFFFFFFA00000000#64⟩ := by decide +kernel
theorem test_cminabs_i : scalarAfter (.cminabsI 4 2 0x0#45 0x1FFFFD000000#45) (start (params 2 .value) [(2, raw 12884901888 17179869184)] [] []) 4 = some ⟨0x0000000300000000#64, 0x0000000400000000#64⟩ := by decide +kernel
theorem test_cminabs_i_smaller : scalarAfter (.cminabsI 4 2 0x800000#45 0x0#45) (start (params 2 .value) [(2, raw 12884901888 17179869184)] [] []) 4 = some ⟨0x0000000100000000#64, 0x0000000000000000#64⟩ := by decide +kernel
theorem test_cscale_i_floor : scalarAfter (.cscaleI 4 2 0x1FFFFFC00000#45) (start (params 2 .value) [(2, raw 1 0)] [] []) 4 = some ⟨0xFFFFFFFFFFFFFFFF#64, 0x0000000000000000#64⟩ := by decide +kernel
theorem test_cscale_i_saturates : scalarAfter (.cscaleI 4 2 0x2000000#45) (start (params 2 .value) [(2, raw 4611686018427387904 (-4611686018427387904))] [] []) 4 = some ⟨0x7FFFFFFFFFFFFFFF#64, 0x8000000000000000#64⟩ := by decide +kernel
/-! #### 4.6 J-type -/
theorem test_jrel_taken : pcAfter (.jrel 0x1FFFFFFFD#33) (start (params 2 .value) [(1, raw 0 1)] [] []) = some 2 := by decide +kernel
theorem test_jrel_not_taken : pcAfter (.jrel 0x1FFFFFFFD#33) (start (params 2 .value) [(1, raw 0 0)] [] []) = some 6 := by decide +kernel
/-! #### 4.7 S-type -/
theorem test_vld_column :
    lanesAfter (.vld 2 1#3 .col 3#16 0#16) (start (params 2 .value) [] []
      [(1, 0, 3, raw 30064771072 0), (1, 1, 3, raw 0 34359738368)]) 2 = [some ⟨0x0000000700000000#64, 0x0000000000000000#64⟩, some ⟨0x0000000000000000#64, 0x0000000800000000#64⟩] := by decide +kernel
theorem test_vld_short :
    lanesAfter (.vld 5 1#3 .row 2#16 1#16) (start (params 2 .value) [] [] [(1, 2, 0, raw 4294967296 4294967296)]) 5 =
      [some ⟨0x0000000100000000#64, 0x0000000100000000#64⟩, none] := by decide +kernel
theorem test_vst_row :
    elemsAfter (.vst 3 0#3 .row 2#16 0#16) (start (params 2 .value) [] [(3, 0, raw 4294967296 4294967296), (3, 1, raw 8589934592 0)] [])
      [(0, 2, 0), (0, 2, 1), (0, 2, 2)] =
      [some ⟨0x0000000100000000#64, 0x0000000100000000#64⟩, some ⟨0x0000000200000000#64, 0x0000000000000000#64⟩, none] := by decide +kernel
theorem test_vst_too_long :
    faultAfter (.vst 0 0#3 .row 0#16 3#16) (start (params 2 .value) [] [] []) = some ⟨5, .vectorLengthFault 3⟩ := by
  decide +kernel
theorem test_sld_xy :
    scalarAfter (.sldXy 4 2#3 3#16 1#16) (start (params 2 .value) [] [] [(2, 1, 3, raw 10737418240 (-4294967296))]) 4 =
      some ⟨0x0000000280000000#64, 0xFFFFFFFF00000000#64⟩ := by decide +kernel
theorem test_sld_xy_out_of_bounds :
    faultAfter (.sldXy 4 2#3 4#16 1#16) (start (params 2 .value) [] [] []) = some ⟨5, .outOfBounds 2 1 4⟩ := by
  decide +kernel
theorem test_sst_xy :
    elemsAfter (.sstXy 5 3#3 0#16 2#16) (start (params 2 .value) [(5, raw (-4294967296) 2147483648)] [] []) [(3, 2, 0), (3, 0, 2)] =
      [some ⟨0xFFFFFFFF00000000#64, 0x0000000080000000#64⟩, none] := by decide +kernel
theorem test_sst_xy_bounds_first :
    faultAfter (.sstXy 5 3#3 0#16 4#16) (start (params 2 .value) [] [] []) = some ⟨5, .outOfBounds 3 4 0⟩ := by
  decide +kernel
/-! #### Places without a value (R29, R32, R343) and the host's view (R54, R58) -/
theorem test_reset_registers_can_be_read : scalarAfter (.cadd 4 2 3) State.reset 4 = some Cplx.zero := by
  decide +kernel
theorem test_reset_elements_cannot :
    faultAfter (.sldXy 4 2#3 3#16 1#16) State.reset = some ⟨0, .uninitializedRead (.element 2 1 3)⟩ := by decide +kernel
theorem test_host_reads_row_major :
    (List.range 17).map (hostRead (start (params 2 .value) [] [] [(1, 3, 0, raw 7 (-2))]) <| 4288 + ·) =
      [some 7, some 0, some 0, some 0, some 0, some 0, some 0, some 0, some 254, some 255, some 255, some 255,
        some 255, some 255, some 255, some 255, none] := by decide +kernel
/-- A layout that is not row-major: the elements of `VLEN = 1`, `N = 2` from the highest address down. -/
theorem test_host_reads_table :
    hostRead (start { params 1 .value with layout := .table ((List.range 16).map fun k => 240 - 16 * k) } [] []
      [(3, 1, 0, raw 7 0)]) 16 = some 7 := by decide +kernel


/-! ### Steps: section 5 and R345 -/

/-- A start state with zero supplied for every register and lane. -/
def zeros : State :=
  State.start Config.params [] Config.entryPc ((List.finRange 8).map fun r => (r, Cplx.zero))
    ((List.finRange 8).flatMap fun r => [(r, 0, Cplx.zero), (r, 1, Cplx.zero)]) []

/-- The reset state is that one: every place holds the same. -/
theorem test_start_with_zeros_is_reset :
    (∀ r, sAt zeros r = sAt State.reset r) ∧ (∀ r k, k < 2 → laneAt zeros r k = laneAt State.reset r k) ∧
    { zeros with sregs := State.reset.sregs, vregs := State.reset.vregs } = State.reset := by decide +kernel

/-- P6: `jrel -1` alone reads `s1`, which nothing has written. -/
theorem test_step_uninitialized :
    stepFault (loaded [0x0300000007FFFFFFFE00000000000000#128] 0 []) =
      some (some ⟨0, .uninitializedRead (.scalar 1)⟩, 0) := by decide +kernel

/-- P6: a taken jump beyond the end: the fetch at 6 of a program of 2 words faults. -/
theorem test_step_fetch_fault : stepFault (loaded [0#128, 0#128] 6 []) = some (some ⟨6, .fetchFault⟩, 6) := by
  decide +kernel

/-- P6: an all-zero word is illegal. -/
theorem test_step_illegal :
    stepFault (loaded [0x02000000400000000000000000800000#128, 0#128] 1 []) =
      some (some ⟨1, .illegalInstruction 0#128⟩, 1) := by decide +kernel

/-- R345: at `pc = len(PROG)` the run is over. -/
theorem test_step_run_over : step (loaded [0#128] 1 []) = .fault .runOver := rfl

/-- The word placed is the next one a step runs, from the reset state (log 14): `cloadi s2, (1, 2)` of P1. -/
theorem test_step_runs_placed_word :
    stateAfterStep (State.reset.withFetchWord 128 0x02000000400000200000000000800000) =
      stateAfter (.cloadi 2 0x800000#45 0x1000000#45)
        (State.reset.withFetchWord 128 0x02000000400000200000000000800000) := by decide +kernel

/-- The decoder's answer to the host, on the same word. -/
theorem test_table_word :
    decodeTableWord 128 0x02000000400000200000000000800000 = some (.cloadi 2 0x800000#45 0x1000000#45) := by
  decide +kernel

/-! ### Witnesses: encoding -/

theorem witness_DecodeOfEncodeIsIdentity : WellFormed (.sstXy 7 3#3 0xFFFF#16 0xFFFF#16) = true := by decide

theorem witness_EncodeOfDecodeIsIdentity :
    decode 0x0300000005FFFFFFFE00000000000000#128 = some (.jrel 0xFFFFFFFF#33) := by decide +kernel

theorem witness_IllFormedBankNumbersAreNotDecoded : WellFormed (.sstXy 7 4#3 0#16 0#16) = false := by decide

/-! ### Witnesses: steps and faults -/

theorem witness_StepRunsDecodedInstruction :
    (loaded [0x0300000004000000000000000000000#128, 0x010F0000280000000000000000000000#128] 1 []).fault = none ∧
    (0 : Int) ≤ 1 ∧
    (loaded [0x0300000004000000000000000000000#128, 0x010F0000280000000000000000000000#128] 1 []).prog[1]? =
      some 0x010F0000280000000000000000000000#128 ∧
    decodeBytes (wordBytes 0x010F0000280000000000000000000000#128) = some (.cmpgtRe 1 2 0, []) := by decide +kernel

theorem witness_StepFaultsWithoutLegalWord_below : (loaded [] (-1) []).fault = none ∧ (loaded [] (-1) []).pc < 0 := by
  decide +kernel

theorem witness_StepFaultsWithoutLegalWord_above :
    (loaded [0#128] 2 []).fault = none ∧ ((loaded [0#128] 2 []).prog.length : Int) < (loaded [0#128] 2 []).pc := by
  decide +kernel

theorem witness_StepFaultsWithoutLegalWord_illegal :
    (loaded [0#128] 0 []).fault = none ∧ 0 ≤ (loaded [0#128] 0 []).pc ∧
    (loaded [0#128] 0 []).prog[(loaded [0#128] 0 []).pc.toNat]? = some 0#128 ∧ decode 0#128 = none := by decide +kernel

theorem witness_StepStopsOnlyWhenFaultedOrFinished_faulted :
    ({ loaded [] 0 [] with fault := some ⟨0, .fetchFault⟩ } : State).fault ≠ none := by decide +kernel

theorem witness_StepStopsOnlyWhenFaultedOrFinished_finished : Finished (loaded [0#128] 1 []) := by decide +kernel

theorem witness_StepStopsOnlyWhenFaultedOrFinished_goesOn :
    (loaded [0#128] 0 []).fault = none ∧ (loaded [0#128] 0 []).pc ≠ (loaded [0#128] 0 []).prog.length := by
  decide +kernel

theorem witness_FaultsArePrecise_completes : ∃ t, exec (.cneg 1 0) (loaded [] 0 []) = .next t ∧ t.fault = none :=
  ⟨_, rfl, by decide +kernel⟩

theorem witness_FaultsArePrecise_faults :
    ∃ t, exec (.cneg 1 2) (loaded [] 0 []) = .next t ∧ t.fault = some ⟨0, .uninitializedRead (.scalar 2)⟩ :=
  ⟨_, rfl, by decide +kernel⟩

theorem witness_FaultsComeOnlyFromTheirInstructions_lane :
    (start (params 2 .value) [] [(1, 0, raw 1 1)] []).fault = none ∧
    faultAfter (.vconj 2 1) (start (params 2 .value) [] [(1, 0, raw 1 1)] []) =
      some ⟨5, .uninitializedRead (.lane 1 1)⟩ := by decide +kernel

theorem witness_FaultsComeOnlyFromTheirInstructions_element :
    (start (params 2 .value) [] [] []).fault = none ∧
    faultAfter (.sldXy 4 0#3 3#16 3#16) (start (params 2 .value) [] [] []) =
      some ⟨5, .uninitializedRead (.element 0 3 3)⟩ := by decide +kernel

theorem witness_FaultsComeOnlyFromTheirInstructions_illFormed :
    faultAfter (.sldXy 4 4#3 3#16 3#16) (start (params 2 .value) [] [] []) =
      some ⟨5, .illegalInstruction (encode (.sldXy 4 4#3 3#16 3#16))⟩ := by decide +kernel

theorem witness_FaultsComeOnlyFromTheirInstructions_laneIndex :
    faultAfter (.vsload 1 0 2#16) (start (params 2 .value) [] [] []) = some ⟨5, .laneIndexFault 2⟩ := by decide +kernel

theorem witness_UninitializedReadOnlyWhereNothingIsHeld :
    (loaded [encode (.cneg 1 2)] 0 []).fault = none ∧
    stepFault (loaded [encode (.cneg 1 2)] 0 []) = some (some ⟨0, .uninitializedRead (.scalar 2)⟩, 0) := by
  decide +kernel

/-- Any state fills in the start state with nothing supplied. -/
theorem fillsIn_blank (s : State) (h : s.fault = none) : FillsIn (State.blank s.params s.prog s.pc) s where
  params := rfl
  prog := rfl
  pc := rfl
  fault := h
  scalars r c e := by
    by_cases h0 : r = 0
    · subst h0; exact e
    · simp [sAt, h0, State.blank] at e
  lanes r k c e := by
    by_cases h0 : r = 0
    · subst h0; exact e
    · simp only [laneAt, h0, if_false, State.blank, Fin.getElem_fin, Vector.getElem_replicate,
        List.getD_eq_getElem?_getD, List.getElem?_replicate] at e
      split at e <;> cases e
  bytes a x e := by cases e

/-- `cadd s4, s0, s0` from nothing supplied, and from a state where `s4` held a value before. -/
theorem witness_FillingInValuesChangesNothing :
    FillsIn (State.blank (params 2 .value) [] 0) (loaded [] 0 [(4, raw 9 9)]) ∧
    (State.blank (params 2 .value) [] 0).fault = none ∧
    ∃ t, exec (.cadd 4 0 0) (State.blank (params 2 .value) [] 0) = .next t ∧ t.fault = none :=
  ⟨fillsIn_blank (loaded [] 0 [(4, raw 9 9)]) rfl, rfl, _, rfl, by decide +kernel⟩

theorem witness_ParametersAndProgramNeverChange :
    ∃ t, step (loaded [0x02000000400000200000000000800000#128] 0 []) = .next t := ⟨_, rfl⟩

theorem witness_OnlyJrelLeavesTheSequence :
    (∀ off, Instr.cadd 4 0 0 ≠ .jrel off) ∧ (loaded [] 0 []).fault = none ∧
    ∃ t, exec (.cadd 4 0 0) (loaded [] 0 []) = .next t ∧ t.fault = none :=
  ⟨fun _ => Instr.noConfusion, by decide +kernel, _, rfl, by decide +kernel⟩

theorem witness_OnlySTypeReachesTheBanks :
    reachesBanks (.vconj 1 0) = false ∧ ∃ t, exec (.vconj 1 0) (loaded [] 0 []) = .next t := ⟨rfl, _, rfl⟩

theorem witness_RegistersOtherThanTheDestinationAreUnchanged :
    ∃ t, exec (.cadd 4 0 0) (loaded [] 0 []) = .next t ∧ scalarDest (.cadd 4 0 0) ≠ some 5 ∧
      vectorDest (.cadd 4 0 0) ≠ some 5 := ⟨_, rfl, by decide, by decide⟩

theorem witness_ZeroDestinationDiscardsTheResult_scalar :
    scalarDest (.cloadi 0 5#45 5#45) = some 0 ∧ (loaded [] 0 []).fault = none ∧
    ∃ t, exec (.cloadi 0 5#45 5#45) (loaded [] 0 []) = .next t ∧ t.fault = none :=
  ⟨rfl, by decide +kernel, _, rfl, by decide +kernel⟩

theorem witness_ZeroDestinationDiscardsTheResult_vector :
    vectorDest (.vadd 0 0 0) = some 0 ∧ (loaded [] 0 []).fault = none ∧
    ∃ t, exec (.vadd 0 0 0) (loaded [] 0 []) = .next t ∧ t.fault = none :=
  ⟨rfl, by decide +kernel, _, rfl, by decide +kernel⟩

/-- A state with nothing written yet satisfies the invariant. -/
theorem inv_loaded_one : Inv (loaded [0x04018000080002000000000000000000#128] 0 []) :=
  ⟨by decide +kernel, by decide +kernel, List.Pairwise.nil, fun _ h => by cases h⟩

/-- The step is P5's `vst v0, b2, col, 1, 0`, which writes two elements. -/
theorem witness_InvariantIsKeptByEveryStep :
    Inv (loaded [0x04018000080002000000000000000000#128] 0 []) ∧
    ∃ t, step (loaded [0x04018000080002000000000000000000#128] 0 []) = .next t := ⟨inv_loaded_one, _, rfl⟩

/-- The second register read has one lane without a value. -/
theorem witness_FirstUnreadablePlaceIsReported :
    reachesBanks (.vadd 3 1 2) = false ∧ sources (.vadd 3 1 2) = [.vector 1] ++ .vector 2 :: [] ∧
    VReadable (start (params 2 .value) [] [(1, 0, raw 1 0), (1, 1, raw 1 0), (2, 0, raw 1 0)] []) 1 ∧
    FirstUnreadable (start (params 2 .value) [] [(1, 0, raw 1 0), (1, 1, raw 1 0), (2, 0, raw 1 0)] []) (.vector 2)
      (.lane 2 1) :=
  ⟨rfl, rfl, by decide +kernel, 1, by decide +kernel⟩

/-! ### Witnesses: arithmetic -/

theorem witness_NarrowingLaws : (0 : Int) < 1 := by decide

theorem witness_DivisionFunctionLaws :
    (params 2 .value).cdivFn = .reference ∧ raw (-1) 0 ≠ Cplx.zero := by decide +kernel

theorem witness_IntegerRootIsTheGreatest : 3 * 3 ≤ 9 := by decide

theorem witness_IntegersAreWrittenAsIntEncSays_value :
    (-2 ^ 63 : Int) ≤ (-2 ^ 31) * 2 ^ 32 ∧ ((-2 ^ 31 : Int) * 2 ^ 32) ≤ 2 ^ 63 - 1 := by decide +kernel

theorem witness_IntegersAreWrittenAsIntEncSays_raw :
    (-2 ^ 63 : Int) ≤ 2 ^ 63 - 1 ∧ (2 ^ 63 - 1 : Int) ≤ 2 ^ 63 - 1 := by decide +kernel

/-! ### Witnesses: operands that can be read

In the state `full` `s1`, `s2`, `s3`, all lanes of `v1`, `v2`, `v3`, lane 0 of `v4`, half a row of bank 1 and one more
of its elements hold values and nothing else does. -/

/-- Registers and elements written. -/
def full : State :=
  start (params 2 .value) [(1, raw 0 1), (2, raw 1 1), (3, raw (-1) 0)]
    [(1, 0, raw 1 0), (1, 1, raw 0 1), (2, 0, raw 1 1), (2, 1, raw 2 0), (3, 0, raw 0 0), (3, 1, raw 9 9),
      (4, 0, raw 1 1)]
    [(1, 3, 0, raw 7 0), (1, 3, 1, raw 8 0), (1, 0, 2, raw 5 5)]

theorem witness_CnegResult : sValued full 2 = true := by decide +kernel
theorem witness_CnegResult_empty :
    sValued full 7 = false := by decide +kernel
theorem witness_CrealCimagResults : sValued full 2 = true := by decide +kernel
theorem witness_CrealCimagResults_empty :
    sValued full 7 = false := by decide +kernel
theorem witness_ConjugateResults : SReadable full 2 ∧ VReadable full 1 := by decide +kernel
theorem witness_RootAndMagnitudeResults : SReadable full 2 := by decide +kernel
theorem witness_CaddCsubResults : sValued full 2 = true ∧ sValued full 3 = true := by decide +kernel
theorem witness_CaddCsubResults_firstEmpty :
    sValued full 7 = false := by decide +kernel
theorem witness_CaddCsubResults_secondEmpty :
    sValued full 2 = true ∧ sValued full 7 = false := by decide +kernel
theorem witness_CmulResult : sValued full 2 = true ∧ sValued full 3 = true := by decide +kernel
theorem witness_CmulResult_firstEmpty :
    sValued full 7 = false := by decide +kernel
theorem witness_CmulResult_secondEmpty :
    sValued full 2 = true ∧ sValued full 7 = false := by decide +kernel
theorem witness_ScalarDivisionResults : SReadable full 2 ∧ SReadable full 0 := by decide +kernel
theorem witness_CmaxabsCminabsResults : sValued full 2 = true ∧ sValued full 3 = true := by decide +kernel
theorem witness_CmaxabsCminabsResults_firstEmpty :
    sValued full 7 = false := by decide +kernel
theorem witness_CmaxabsCminabsResults_secondEmpty :
    sValued full 2 = true ∧ sValued full 7 = false := by decide +kernel
theorem witness_CompareResults : SReadable full 2 ∧ SReadable full 3 := by decide +kernel
theorem witness_VaddVsubResults : VReadable full 1 ∧ VReadable full 2 := by decide +kernel
theorem witness_VaddVsubResults_firstEmpty :
    FirstEmptyLane full 4 1 := by decide +kernel
theorem witness_VaddVsubResults_secondEmpty :
    VReadable full 1 ∧ FirstEmptyLane full 5 0 := by decide +kernel
theorem witness_VmulResult : VReadable full 1 ∧ VReadable full 2 := by decide +kernel
theorem witness_VmacResult : VReadable full 1 ∧ VReadable full 2 ∧ VReadable full 3 := by decide +kernel
theorem witness_VectorDivisionResults : VReadable full 1 ∧ VReadable full 2 ∧ SReadable full 0 := by decide +kernel
theorem witness_DotProductResults : VReadable full 1 ∧ VReadable full 2 := by decide +kernel
theorem witness_IamaxResult : 1 ≤ full.params.vlen ∧ VReadable full 1 := by decide +kernel
theorem witness_SumAsumResults : VReadable full 1 := by decide +kernel
theorem witness_BroadcastResults : VReadable full 1 ∧ sValued full 2 = true := by decide +kernel
theorem witness_BroadcastResults_vectorEmpty :
    FirstEmptyLane full 4 1 := by decide +kernel
theorem witness_BroadcastResults_scalarEmpty :
    VReadable full 1 ∧ sValued full 7 = false := by decide +kernel
theorem witness_CaddICsubIResults : sValued full 2 = true := by decide +kernel
theorem witness_CaddICsubIResults_empty :
    sValued full 7 = false := by decide +kernel
theorem witness_CmulIResult : sValued full 2 = true := by decide +kernel
theorem witness_CmulIResult_empty :
    sValued full 7 = false := by decide +kernel
theorem witness_CscaleIResult : SReadable full 2 := by decide +kernel
theorem witness_CmaxabsICminabsIResults : sValued full 2 = true := by decide +kernel
theorem witness_CmaxabsICminabsIResults_empty :
    sValued full 7 = false := by decide +kernel
theorem witness_JrelResult : SReadable full 1 := by decide +kernel

/-- `cloadi s2, (1, 0)` with `rs1 = 3`, 95 section 3. -/
theorem witness_CloadiResult :
    (0x020000004C0000000000000000800000#128).extractLsb' 112 16 = 0x0200#16 ∧
    (0x020000004C0000000000000000800000#128).extractLsb' 90 3 ≠ 0#3 := by decide +kernel

/-- The last lane; the first index that is none; a scalar nothing has written. -/
theorem witness_VsloadResult_completes : (1#16).toNat < full.params.vlen ∧ SReadable full 2 := by decide +kernel
theorem witness_VsloadResult_index : full.params.vlen ≤ (2#16).toNat := by decide +kernel
theorem witness_VsloadResult_unreadable : (1#16).toNat < full.params.vlen ∧ sValued full 7 = false := by decide +kernel

/-! ### Witnesses: the S-type -/

theorem witness_SldXyResult_completes :
    (1#3).toNat < 4 ∧ (3#16).toNat < full.params.n * full.params.vlen ∧ (1#16).toNat < full.params.n * full.params.vlen ∧ ElemReadable full 1 3 1 := by
  decide +kernel
theorem witness_SldXyResult_bounds : (3#3).toNat < 4 ∧ full.params.n * full.params.vlen ≤ (4#16).toNat := by decide +kernel
theorem witness_SldXyResult_unreadable :
    (1#3).toNat < 4 ∧ (3#16).toNat < full.params.n * full.params.vlen ∧ (2#16).toNat < full.params.n * full.params.vlen ∧ elemValued full 1 3 2 = false := by
  decide +kernel

theorem witness_SstXyResult_completes :
    (3#3).toNat < 4 ∧ (3#16).toNat < full.params.n * full.params.vlen ∧ (0#16).toNat < full.params.n * full.params.vlen ∧ SReadable full 2 := by
  decide +kernel
theorem witness_SstXyResult_bounds : (3#3).toNat < 4 ∧ full.params.n * full.params.vlen ≤ (4#16).toNat := by decide +kernel
theorem witness_SstXyResult_unreadable :
    (3#3).toNat < 4 ∧ (3#16).toNat < full.params.n * full.params.vlen ∧ (0#16).toNat < full.params.n * full.params.vlen ∧ sValued full 7 = false := by
  decide +kernel

/-- The whole row 3 of bank 1 (`len16 = 0`). -/
theorem witness_VldResult :
    IsAccess full.params .row 3#16 0#16 2 (fun k => (3, k)) ∧ full.params.wf ∧ (1#3).toNat < 4 ∧
    2 ≤ full.params.vlen ∧ (3#16).toNat < full.params.n * full.params.vlen ∧
    ∀ k, k < 2 → ElemReadable full (1#3).toNat 3 k := ⟨⟨rfl, fun _ => rfl⟩, by decide +kernel⟩

/-- A short access in column 2: one lane is left without a value. -/
theorem witness_VldResult_short :
    IsAccess full.params .col 2#16 1#16 1 (fun k => (k, 2)) ∧ full.params.wf ∧ (1#3).toNat < 4 ∧
    1 ≤ full.params.vlen ∧ (2#16).toNat < full.params.n * full.params.vlen ∧
    (∀ k, k < 1 → ElemReadable full (1#3).toNat k 2) ∧ 1 < full.params.vlen := ⟨⟨rfl, fun _ => rfl⟩, by decide +kernel⟩

theorem witness_VstResult :
    IsAccess full.params .row 3#16 2#16 2 (fun k => (3, k)) ∧ full.params.wf ∧ (2#3).toNat < 4 ∧
    2 ≤ full.params.vlen ∧ (3#16).toNat < full.params.n * full.params.vlen ∧ LanesReadable full 1 2 :=
  ⟨⟨rfl, fun _ => rfl⟩, by decide +kernel⟩

theorem witness_VectorAccessFaults_bank :
    IsAccess full.params .row 3#16 2#16 2 (fun k => (3, k)) ∧ 4 ≤ (4#3).toNat := ⟨⟨rfl, fun _ => rfl⟩, by decide⟩
theorem witness_VectorAccessFaults_length :
    IsAccess full.params .row 3#16 3#16 3 (fun k => (3, k)) ∧ (3#3).toNat < 4 ∧ full.params.vlen < 3 :=
  ⟨⟨rfl, fun _ => rfl⟩, by decide +kernel⟩
theorem witness_VectorAccessFaults_bounds :
    IsAccess full.params .col 4#16 2#16 2 (fun k => (k, 4)) ∧ (3#3).toNat < 4 ∧ 2 ≤ full.params.vlen ∧
    full.params.n * full.params.vlen ≤ (4#16).toNat := ⟨⟨rfl, fun _ => rfl⟩, by decide +kernel⟩

/-- Column 2 of bank 1: its first element holds a value, its second none. -/
theorem witness_VectorAccessFaults_element :
    IsAccess full.params .col 2#16 0#16 2 (fun k => (k, 2)) ∧ full.params.wf ∧ (1#3).toNat < 4 ∧
    2 ≤ full.params.vlen ∧ (2#16).toNat < full.params.n * full.params.vlen ∧ 1 < 2 ∧
    elemValued full (1#3).toNat 1 2 = false ∧ ∀ j, j < 1 → ElemReadable full (1#3).toNat j 2 :=
  ⟨⟨rfl, fun _ => rfl⟩, by decide +kernel⟩
theorem witness_VectorAccessFaults_lane :
    IsAccess full.params .row 3#16 0#16 2 (fun k => (3, k)) ∧ full.params.wf ∧ (3#3).toNat < 4 ∧
    2 ≤ full.params.vlen ∧ (3#16).toNat < full.params.n * full.params.vlen ∧ 1 < 2 ∧
    laneValued full 4 1 = false ∧ LanesReadable full 4 1 := ⟨⟨rfl, fun _ => rfl⟩, by decide +kernel⟩

theorem witness_StoreLeavesOtherElementsAlone :
    (∃ t, exec (.sstXy 2 1#3 0#16 3#16) full = .next t) ∧ 3 < full.params.n * full.params.vlen ∧
    1 < full.params.n * full.params.vlen ∧ (1, 3, 1) ≠ ((1#3).toNat, (3#16).toNat, (0#16).toNat) :=
  ⟨⟨_, rfl⟩, by decide +kernel⟩

theorem witness_LoadSeesTheLatestStore_element :
    (3#3).toNat < 4 ∧ (3#16).toNat < full.params.n * full.params.vlen ∧
    (3#16).toNat < full.params.n * full.params.vlen ∧ SReadable full 2 := by decide +kernel
theorem witness_LoadSeesTheLatestStore_vector :
    IsAccess full.params .col 3#16 0#16 2 (fun k => (k, 3)) ∧ full.params.wf ∧ (0#3).toNat < 4 ∧
    2 ≤ full.params.vlen ∧ (3#16).toNat < full.params.n * full.params.vlen ∧ LanesReadable full 1 2 :=
  ⟨⟨rfl, fun _ => rfl⟩, by decide +kernel⟩

theorem witness_ElementBytesAreLittleEndian_element : elemAt full 1 3 0 = some (raw 7 0) := by decide +kernel
theorem witness_ElementBytesAreLittleEndian :
    (3#3).toNat < 4 ∧ full.fault = none ∧
    ∃ t, exec (.sstXy 2 3#3 0#16 3#16) full = .next t ∧ t.fault = none :=
  ⟨by decide, by decide +kernel, _, rfl, by decide +kernel⟩

/-- The layout of `full` gives no two elements a byte in common. -/
theorem layoutSeparates_full : LayoutSeparates full.params := by
  show LayoutSeparates (params 2 .value)
  intro b r c b' r' c' a a' hb hr hc hb' hr' hc' hne ha ha'
  have e : side (params 2 .value) = 4 := rfl
  simp only [layoutAddr, e] at *
  interval_cases b <;> interval_cases b' <;>
    simp [params, elementBytes] at ha ha' hne <;> omega

/-- The sixteen bytes of `1 + 2i` (raw 1 and 2) at the address of element (3, 0) of bank 1: 4096 + 16 * (3 * 4 + 0). -/
def image : List Host.Cell :=
  (List.range 16).map fun j => (4288 + j, if j = 0 then 1#8 else if j = 8 then 2#8 else 0#8)

theorem witness_BankLayoutPlacesElementsForTheHostOnly_exec : ∃ t, exec (.sldXy 4 1#3 0#16 3#16) full = .next t :=
  ⟨_, rfl⟩
theorem witness_BankLayoutPlacesElementsForTheHostOnly_rowMajor :
    3 < 4 ∧ full.params.layout = .rowMajor #v[0, 4096, 8192, 12288] := by decide +kernel
theorem witness_BankLayoutPlacesElementsForTheHostOnly_read :
    LayoutSeparates full.params ∧ 1 < 4 ∧ 3 < full.params.n * full.params.vlen ∧
    0 < full.params.n * full.params.vlen ∧ layoutAddr full.params 1 3 0 = some 4288 ∧
    elemAt full 1 3 0 = some (raw 7 0) ∧ 15 < 16 := ⟨layoutSeparates_full, by decide +kernel⟩
theorem witness_BankLayoutPlacesElementsForTheHostOnly_supply :
    1 < 4 ∧ 3 < full.params.n * full.params.vlen ∧ 0 < full.params.n * full.params.vlen ∧
    layoutAddr full.params 1 3 0 = some 4288 ∧
    ∀ j, j < 16 → Memory.lookup image (4288 + j) =
      some (((raw 1 2).im ++ (raw 1 2).re).extractLsb' (8 * j) 8) := by decide +kernel

end Sys2Proof.Tests
end

section
/-! PROOFS. The family Memory: the bytes of an instruction word (R55) and of a bank element (R54). -/

namespace Sys2Proof

/-! ### The bytes of a word (R55) -/

@[simp] theorem length_wordBytes (w : Word) : (wordBytes w).length = 16 := by simp [wordBytes]

theorem getElem?_wordBytes (w : Word) {j : Nat} (hj : j < 16) : (wordBytes w)[j]? = some (wordByte w j) := by
  simp [wordBytes, hj]

/-- The word put together from bytes depends on its sixteen bytes only. -/
theorem wordOfBytes_congr {f g : Nat → Byte} (h : ∀ j, j < 16 → f j = g j) : wordOfBytes f = wordOfBytes g := by
  simp only [wordOfBytes, h, Nat.reduceLT]

/-- The bytes of a word, put together again, are the word (R55): each bit comes from its own byte. -/
theorem wordOfBytes_wordByte (w : Word) : wordOfBytes (wordByte w) = w := by
  apply BitVec.eq_of_getLsbD_eq
  intro i hi
  simp only [wordOfBytes, wordByte, BitVec.getLsbD_append, BitVec.getLsbD_extractLsb']
  repeat' split
  all_goals (rw [decide_eq_true (by omega), Bool.true_and]; exact congrArg w.getLsbD (by omega))

/-- Sixteen bytes of a word, whatever follows them, are read as that word, and what follows is given back. -/
theorem decodeBytes_wordBytes_append (w : Word) (rest : List Byte) :
    decodeBytes (wordBytes w ++ rest) = (decode w).map fun i => (i, rest) := by
  have hlen : ¬ (wordBytes w ++ rest).length < 16 := by simp
  have hword : (wordOfBytes fun j => (wordBytes w ++ rest).getD j 0#8) = w := by
    refine (wordOfBytes_congr fun j hj => ?_).trans (wordOfBytes_wordByte w)
    rw [List.getD_eq_getElem?_getD, List.getElem?_append_left (by simpa using hj),
      getElem?_wordBytes w hj, Option.getD_some]
  rw [decodeBytes, if_neg hlen, hword, List.drop_left' (length_wordBytes w)]

end Sys2Proof

namespace Sys2Proof.Machine

/-! ### The bytes of an element (R54) -/

/-- An element holds `x` exactly where its sixteen cells hold the bytes of `x`. -/
theorem elemAt_eq_some_iff {s : State} {b r c : Nat} {x : Cplx} :
    elemAt s b r c = some x ↔
      ∀ j, j < 16 → Memory.lookup s.mem (elemCell s.params b r c + j) = some (elementByte x j) :=
  ⟨fun h _ hj => Memory.lookup_of_elemAt h hj, Memory.elemAt_of_lookup⟩

/-- An `sst.xy` after which no fault is recorded has put the register into the element and moved the pc (R278). -/
theorem eq_setElem_of_sstXy {s t : State} {rs : SReg} {mbid : BitVec 3} {x16 y16 : BitVec 16}
    (h : exec (.sstXy rs mbid x16 y16) s = .next t) (ht : t.fault = none) :
    t = nextPc (setElem s mbid.toNat y16.toNat x16.toNat (sVal s rs)) := by
  cases exec_effect h with
  | storeOne r m x y hi => cases hi; rfl
  | fault c => cases ht
  | scalar d c hd => cases hd
  | lanes d f hd => cases hd
  | lane d a x c hi | load d m rc x l f hi | store r m rc x l f hi | jump off hi | fall off hi => cases hi

end Sys2Proof.Machine

namespace Sys2Proof

open Machine

/-- Settles O6: the sixteen bytes, put together again, are the word. -/
theorem instructionBytesAreLittleEndian : Obligations.InstructionBytesAreLittleEndian := fun w rest =>
  ⟨length_wordBytes w, fun _ hj => getElem?_wordBytes w hj, getElem?_wordBytes w (by decide),
    getElem?_wordBytes w (by decide), decodeBytes_wordBytes_append w rest⟩

/-- Settles O59: an element is its sixteen bytes, each of them bits of `Im ++ Re`; those an `sst.xy` leaves are the
bytes of the register. -/
theorem elementBytesAreLittleEndian : Obligations.ElementBytesAreLittleEndian := by
  refine ⟨fun s b r c x => ?_, fun s t rs mbid x16 y16 _ _ h ht j hj => ?_⟩
  · rw [elemAt_eq_some_iff]
    exact forall₂_congr fun j hj => by rw [elementByte_eq x hj]
  · rw [eq_setElem_of_sstXy h ht, nextPc_mem, lookup_setElem, if_pos (by omega), Nat.add_sub_cancel_left,
      elementByte_eq _ hj]

end Sys2Proof
end

section
/-! PROOFS. The family R-type scalar (41_r_scalar.md): a unary or a binary scalar instruction takes the fault of its
first source without a value (R151), or completes with its function's value; and what these functions are over the
raw halves. -/

namespace Sys2Proof.Machine

/-! ### The subop of a word (R83) -/

/-- An R-type word carries its subop in `[119:112]` (R84). -/
theorem subop_encodeR (map : BitVec 2) (subop : BitVec 8) (d a b : Fin 8) (imm : BitVec 16) :
    (encodeR map subop d a b imm).extractLsb' 112 8 = subop :=
  congrArg Fields.subop (Fields.ofWord_toWord _)

/-! ### Instructions of a scalar shape (R151) -/

theorem scalarUnary_empty {f : Params → Cplx → Cplx} {rd rs1 : SReg} {s : State} (h : sValued s rs1 = false) :
    scalarUnary f rd rs1 s = raisesAt s (.scalar rs1) := by
  obtain ⟨h1, -⟩ | ⟨-, e⟩ := scalarUnary_cases f rd rs1 s
  · exact absurd h1 (by simp [h])
  · exact e

theorem scalarBinary_firstEmpty {f : Params → Cplx → Cplx → Cplx} {rd rs1 rs2 : SReg} {s : State}
    (h : sValued s rs1 = false) : scalarBinary f rd rs1 rs2 s = raisesAt s (.scalar rs1) := by
  obtain ⟨h1, -, -⟩ | ⟨-, e⟩ | ⟨h1, -, -⟩ := scalarBinary_cases f rd rs1 rs2 s
  · exact absurd h1 (by simp [h])
  · exact e
  · exact absurd h1 (by simp [h])

theorem scalarBinary_secondEmpty {f : Params → Cplx → Cplx → Cplx} {rd rs1 rs2 : SReg} {s : State}
    (h1 : SReadable s rs1) (h2 : sValued s rs2 = false) :
    scalarBinary f rd rs1 rs2 s = raisesAt s (.scalar rs2) := by
  obtain ⟨-, h, -⟩ | ⟨h, -⟩ | ⟨-, -, e⟩ := scalarBinary_cases f rd rs1 rs2 s
  · exact absurd h (by simp [h2])
  · exact absurd h1 (by simp [h])
  · exact e

theorem emptyScalarFaults_of_scalarUnary {i : Instr} {f : Params → Cplx → Cplx} {rd rs1 : SReg} {s : State}
    (h : exec i s = scalarUnary f rd rs1 s) : EmptyScalarFaults i s rs1 :=
  fun he => h.trans (scalarUnary_empty he)

theorem completesScalar_of_scalarUnary {i : Instr} {f : Params → Cplx → Cplx} {rd rs1 : SReg} {s : State}
    (h : exec i s = scalarUnary f rd rs1 s) (h1 : SReadable s rs1) :
    CompletesScalar i s rd (f s.params (sVal s rs1)) :=
  completesScalar_of (h.trans (scalarUnary_ok h1))

theorem emptyScalarsFault_of_scalarBinary {i : Instr} {f : Params → Cplx → Cplx → Cplx} {rd rs1 rs2 : SReg}
    {s : State} (h : exec i s = scalarBinary f rd rs1 rs2 s) : EmptyScalarsFault i s rs1 rs2 :=
  ⟨fun he => h.trans (scalarBinary_firstEmpty he), fun h1 he => h.trans (scalarBinary_secondEmpty h1 he)⟩

theorem completesScalar_of_scalarBinary {i : Instr} {f : Params → Cplx → Cplx → Cplx} {rd rs1 rs2 : SReg}
    {s : State} (h : exec i s = scalarBinary f rd rs1 rs2 s) (h1 : SReadable s rs1) (h2 : SReadable s rs2) :
    CompletesScalar i s rd (f s.params (sVal s rs1) (sVal s rs2)) :=
  completesScalar_of (h.trans (scalarBinary_ok h1 h2))

/-! ### The scalar shape of each instruction (R152 to R165) -/

theorem exec_cneg (rd rs1 : SReg) (s : State) :
    exec (.cneg rd rs1) s = scalarUnary (fun _ => cneg) rd rs1 s := rfl

theorem exec_creal (rd rs1 : SReg) (s : State) :
    exec (.creal rd rs1) s = scalarUnary (fun _ => creal) rd rs1 s := rfl

theorem exec_cimag (rd rs1 : SReg) (s : State) :
    exec (.cimag rd rs1) s = scalarUnary (fun _ => cimag) rd rs1 s := rfl

theorem exec_cadd (rd rs1 rs2 : SReg) (s : State) :
    exec (.cadd rd rs1 rs2) s = scalarBinary (fun _ => cadd) rd rs1 rs2 s := rfl

theorem exec_csub (rd rs1 rs2 : SReg) (s : State) :
    exec (.csub rd rs1 rs2) s = scalarBinary (fun _ => csub) rd rs1 rs2 s := rfl

theorem exec_cmul (rd rs1 rs2 : SReg) (s : State) :
    exec (.cmul rd rs1 rs2) s = scalarBinary (fun _ => cmul) rd rs1 rs2 s := rfl

theorem exec_cmaxabs (rd rs1 rs2 : SReg) (s : State) :
    exec (.cmaxabs rd rs1 rs2) s = scalarBinary (fun _ => cmaxabs) rd rs1 rs2 s := rfl

theorem exec_cminabs (rd rs1 rs2 : SReg) (s : State) :
    exec (.cminabs rd rs1 rs2) s = scalarBinary (fun _ => cminabs) rd rs1 rs2 s := rfl

/-! ### The functions over the raw halves -/

/-- Nothing is lost at the low end of a sum: what is left of `trunc` is the wrap (R122, R160). -/
theorem cadd_eq_wrap64 (a b : Cplx) :
    cadd a b = ⟨wrap64 (a.re.toInt + b.re.toInt), wrap64 (a.im.toInt + b.im.toInt)⟩ := by
  simp only [cadd, xadd, Exact.trunc, trunc_one]

/-- Nothing is lost at the low end of a difference: what is left of `trunc` is the wrap (R122, R161). -/
theorem csub_eq_wrap64 (a b : Cplx) :
    csub a b = ⟨wrap64 (a.re.toInt - b.re.toInt), wrap64 (a.im.toInt - b.im.toInt)⟩ := by
  simp only [csub, xsub, Exact.trunc, trunc_one]

/-- One floor and one wrap per half of the exact product (R123, R127, R162). -/
theorem cmul_eq_wrap64 (a b : Cplx) :
    cmul a b =
      ⟨wrap64 ((a.re.toInt * b.re.toInt - a.im.toInt * b.im.toInt) / 2 ^ 32),
        wrap64 ((a.re.toInt * b.im.toInt + a.im.toInt * b.re.toInt) / 2 ^ 32)⟩ := rfl

theorem mag2_eq_sq_add_sq (a : Cplx) : mag2 a = a.re.toInt ^ 2 + a.im.toInt ^ 2 := by
  rw [mag2, sq, sq]

end Sys2Proof.Machine

namespace Sys2Proof

open Machine

/-- Settles O28: `cneg` is of the unary shape. -/
theorem cnegResult : Obligations.CnegResult := fun _ _ _ =>
  ⟨subop_encodeR .., emptyScalarFaults_of_scalarUnary (exec_cneg ..),
    completesScalar_of_scalarUnary (exec_cneg ..)⟩

/-- Settles O29: `creal` and `cimag` are of the unary shape. -/
theorem crealCimagResults : Obligations.CrealCimagResults := fun _ _ _ =>
  ⟨subop_encodeR .., subop_encodeR .., emptyScalarFaults_of_scalarUnary (exec_creal ..),
    emptyScalarFaults_of_scalarUnary (exec_cimag ..), fun h =>
    ⟨completesScalar_of_scalarUnary (exec_creal ..) h, completesScalar_of_scalarUnary (exec_cimag ..) h⟩⟩

/-- Settles O32: `cadd` and `csub` are of the binary shape, and narrowing over the denominator 1 is the wrap. -/
theorem caddCsubResults : Obligations.CaddCsubResults := by
  refine fun s rd rs1 rs2 => ⟨subop_encodeR .., subop_encodeR .., emptyScalarsFault_of_scalarBinary (exec_cadd ..),
    emptyScalarsFault_of_scalarBinary (exec_csub ..), fun h1 h2 => ?_⟩
  rw [← cadd_eq_wrap64, ← csub_eq_wrap64]
  exact ⟨completesScalar_of_scalarBinary (exec_cadd ..) h1 h2, completesScalar_of_scalarBinary (exec_csub ..) h1 h2⟩

/-- Settles O33: `cmul` is of the binary shape, its exact product narrowed over the denominator `2^32`. -/
theorem cmulResult : Obligations.CmulResult := by
  refine fun s rd rs1 rs2 => ⟨subop_encodeR .., emptyScalarsFault_of_scalarBinary (exec_cmul ..), fun h1 h2 => ?_⟩
  rw [← cmul_eq_wrap64]
  exact completesScalar_of_scalarBinary (exec_cmul ..) h1 h2

/-- Settles O35: `cmaxabs` and `cminabs` are of the binary shape; they compare the exact squares of the magnitudes and
answer `a` where the comparison is not strict. -/
theorem cmaxabsCminabsResults : Obligations.CmaxabsCminabsResults := by
  refine fun s rd rs1 rs2 => ⟨subop_encodeR .., subop_encodeR .., emptyScalarsFault_of_scalarBinary (exec_cmaxabs ..),
    emptyScalarsFault_of_scalarBinary (exec_cminabs ..), fun h1 h2 => ?_⟩
  simp only [← mag2_eq_sq_add_sq]
  exact ⟨completesScalar_of_scalarBinary (exec_cmaxabs ..) h1 h2,
    completesScalar_of_scalarBinary (exec_cminabs ..) h1 h2⟩

end Sys2Proof
end

section
/-! PROOFS. The family R-type vector (42_r_vector.md): a lane-wise instruction of two vectors takes the fault of the
first lane without a value (R180), or completes with its function's value in every lane; and what the saturating
functions are over the raw halves. -/

namespace Sys2Proof.Machine

/-! ### Lane-wise instructions of two vectors (R180) -/

/-- Reading a vector raises at its first lane without a value. -/
theorem readV_error {s : State} {r : VReg} {k : Nat} (h : FirstEmptyLane s r k) :
    readV s r = .error (.uninitializedRead (.lane r k)) := by
  obtain ⟨hk, hn, hl⟩ := h
  exact readLanes_error hk hn hl

theorem laneBinary_firstEmpty {f : Params → Cplx → Cplx → Cplx} {rd rs1 rs2 : VReg} {s : State} {k : Nat}
    (h : FirstEmptyLane s rs1 k) : laneBinary f rd rs1 rs2 s = raisesAt s (.lane rs1 k) := by
  simp [laneBinary, readV_error h, takeFault]

theorem laneBinary_secondEmpty {f : Params → Cplx → Cplx → Cplx} {rd rs1 rs2 : VReg} {s : State} {k : Nat}
    (h1 : VReadable s rs1) (h : FirstEmptyLane s rs2 k) :
    laneBinary f rd rs1 rs2 s = raisesAt s (.lane rs2 k) := by
  simp [laneBinary, readV_ok h1, readV_error h, takeFault]

theorem emptyVectorsFault_of_laneBinary {i : Instr} {f : Params → Cplx → Cplx → Cplx} {rd rs1 rs2 : VReg}
    {s : State} (h : exec i s = laneBinary f rd rs1 rs2 s) : EmptyVectorsFault i s rs1 rs2 :=
  fun _ => ⟨fun he => h.trans (laneBinary_firstEmpty he), fun h1 he => h.trans (laneBinary_secondEmpty h1 he)⟩

theorem completesVector_of_laneBinary {i : Instr} {f : Params → Cplx → Cplx → Cplx} {rd rs1 rs2 : VReg}
    {s : State} (h : exec i s = laneBinary f rd rs1 rs2 s) (h1 : VReadable s rs1) (h2 : VReadable s rs2) :
    CompletesVector i s rd fun k => f s.params (laneVal s rs1 k) (laneVal s rs2 k) :=
  completesVector_of (h.trans (laneBinary_ok h1 h2))

/-! ### The lane-wise shape of each instruction (R181, R182) -/

theorem exec_vadd (rd rs1 rs2 : VReg) (s : State) :
    exec (.vadd rd rs1 rs2) s = laneBinary (fun _ => caddSat) rd rs1 rs2 s := rfl

theorem exec_vsub (rd rs1 rs2 : VReg) (s : State) :
    exec (.vsub rd rs1 rs2) s = laneBinary (fun _ => csubSat) rd rs1 rs2 s := rfl

/-! ### The saturating functions over the raw halves -/

/-- Nothing is lost at the low end of a sum: what is left of `satn` is the saturation of each half (R181). -/
theorem caddSat_eq_sat64 (a b : Cplx) :
    caddSat a b = ⟨sat64 (a.re.toInt + b.re.toInt), sat64 (a.im.toInt + b.im.toInt)⟩ := by
  simp only [caddSat, xadd, Exact.satn, satn_one]

/-- Nothing is lost at the low end of a difference: what is left of `satn` is the saturation of each half (R182). -/
theorem csubSat_eq_sat64 (a b : Cplx) :
    csubSat a b = ⟨sat64 (a.re.toInt - b.re.toInt), sat64 (a.im.toInt - b.im.toInt)⟩ := by
  simp only [csubSat, xsub, Exact.satn, satn_one]

end Sys2Proof.Machine

namespace Sys2Proof

open Machine

/-- Settles O37: `vadd` and `vsub` are of the lane-wise shape, and narrowing over the denominator 1 is the saturation
of each half. -/
theorem vaddVsubResults : Obligations.VaddVsubResults := by
  refine fun s rd rs1 rs2 => ⟨subop_encodeR .., subop_encodeR .., emptyVectorsFault_of_laneBinary (exec_vadd ..),
    emptyVectorsFault_of_laneBinary (exec_vsub ..), fun h1 h2 => ?_⟩
  simp only [← caddSat_eq_sat64, ← csubSat_eq_sat64]
  exact ⟨completesVector_of_laneBinary (exec_vadd ..) h1 h2, completesVector_of_laneBinary (exec_vsub ..) h1 h2⟩

end Sys2Proof
end

section
/-! PROOFS. The family R-type vector by scalar (44_r_vecscalar.md): a broadcast takes the fault of the first lane
without a value, then that of the scalar (R220), or completes with its function's value in every lane. -/

namespace Sys2Proof.Machine

/-! ### Broadcasts of a scalar over a vector (R220) -/

theorem broadcast_emptyLane {f : Params → Cplx → Cplx → Cplx} {rd rs1 : VReg} {rs2 : SReg} {s : State} {k : Nat}
    (h : FirstEmptyLane s rs1 k) : broadcast f rd rs1 rs2 s = raisesAt s (.lane rs1 k) := by
  simp [broadcast, readV_error h, takeFault]

theorem broadcast_emptyScalar {f : Params → Cplx → Cplx → Cplx} {rd rs1 : VReg} {rs2 : SReg} {s : State}
    (h1 : VReadable s rs1) (h2 : sValued s rs2 = false) :
    broadcast f rd rs1 rs2 s = raisesAt s (.scalar rs2) := by
  simp [broadcast, readV_ok h1, readS_error h2, takeFault]

theorem emptyVectorOrScalarFaults_of_broadcast {i : Instr} {f : Params → Cplx → Cplx → Cplx} {rd rs1 : VReg}
    {rs2 : SReg} {s : State} (h : exec i s = broadcast f rd rs1 rs2 s) : EmptyVectorOrScalarFaults i s rs1 rs2 :=
  ⟨fun _ he => h.trans (broadcast_emptyLane he), fun h1 he => h.trans (broadcast_emptyScalar h1 he)⟩

theorem completesVector_of_broadcast {i : Instr} {f : Params → Cplx → Cplx → Cplx} {rd rs1 : VReg} {rs2 : SReg}
    {s : State} (h : exec i s = broadcast f rd rs1 rs2 s) (h1 : VReadable s rs1) (h2 : SReadable s rs2) :
    CompletesVector i s rd fun k => f s.params (laneVal s rs1 k) (sVal s rs2) :=
  completesVector_of (h.trans (broadcast_ok h1 h2))

/-! ### The broadcast shape of each instruction (R221 to R223) -/

theorem exec_vsadd (rd rs1 : VReg) (rs2 : SReg) (s : State) :
    exec (.vsadd rd rs1 rs2) s = broadcast (fun _ => caddSat) rd rs1 rs2 s := rfl

theorem exec_vssub (rd rs1 : VReg) (rs2 : SReg) (s : State) :
    exec (.vssub rd rs1 rs2) s = broadcast (fun _ => csubSat) rd rs1 rs2 s := rfl

theorem exec_vsmul (rd rs1 : VReg) (rs2 : SReg) (s : State) :
    exec (.vsmul rd rs1 rs2) s = broadcast (fun _ => cmul) rd rs1 rs2 s := rfl

end Sys2Proof.Machine

namespace Sys2Proof

open Machine

/-- Settles O44: the three are of the broadcast shape; sum and difference are the saturating ones of `vadd` and `vsub`,
the product is the wrapping one of `cmul`. -/
theorem broadcastResults : Obligations.BroadcastResults := by
  refine fun s rd rs1 rs2 => ⟨subop_encodeR .., subop_encodeR .., subop_encodeR ..,
    emptyVectorOrScalarFaults_of_broadcast (exec_vsadd ..), emptyVectorOrScalarFaults_of_broadcast (exec_vssub ..),
    emptyVectorOrScalarFaults_of_broadcast (exec_vsmul ..), fun h1 h2 => ?_⟩
  simp only [← caddSat_eq_sat64, ← csubSat_eq_sat64, ← cmul_eq_wrap64]
  exact ⟨completesVector_of_broadcast (exec_vsadd ..) h1 h2, completesVector_of_broadcast (exec_vssub ..) h1 h2,
    completesVector_of_broadcast (exec_vsmul ..) h1 h2⟩

end Sys2Proof
end

section
/-! PROOFS. The family I-type (45_i_immediate.md): `cloadi` answers its converted immediate in every state and must
leave `rs1` zero; the other instructions take the fault of a register without a value (R240), or complete with their
function's value at the register and the converted immediate. -/

namespace Sys2Proof

/-! ### The fields of an I-type word (R85) -/

/-- An I-type word carries its subop in `[119:112]` (R83, R85). -/
theorem subop_encodeI (subop : BitVec 8) (d a : Fin 8) (re im : BitVec 45) :
    (encodeI subop d a re im).extractLsb' 112 8 = subop :=
  congrArg Fields.subop (Fields.ofWord_toWord _)

theorem rs1_encodeI (subop : BitVec 8) (d a : Fin 8) (re im : BitVec 45) :
    (encodeI subop d a re im).extractLsb' 90 3 = regBits a :=
  congrArg Fields.rs1 (Fields.ofWord_toWord _)

theorem re_encodeI (subop : BitVec 8) (d a : Fin 8) (re im : BitVec 45) :
    (encodeI subop d a re im).extractLsb' 0 45 = re :=
  (extractLsb'_append_low _ (im ++ re) (by decide)).trans BitVec.extractLsb'_append_eq_right

theorem im_encodeI (subop : BitVec 8) (d a : Fin 8) (re im : BitVec 45) :
    (encodeI subop d a re im).extractLsb' 45 45 = im :=
  (extractLsb'_append_low _ (im ++ re) (by decide)).trans BitVec.extractLsb'_append_eq_left

/-! ### Words that hold no `cloadi` (R107, R242) -/

/-- The opcode and the subop of a word, joined, are its bits `[127:112]` (R83). -/
theorem opcode_append_subop (w : Word) :
    (Fields.ofWord w).opcode ++ (Fields.ofWord w).subop = w.extractLsb' 112 16 :=
  append_extractLsb' (lo := 112) (a := 8) (b := 8) w

theorem opcode_eq_extractLsb' (w : Word) :
    (Fields.ofWord w).opcode = (w.extractLsb' 112 16).extractLsb' 8 8 := by
  rw [← opcode_append_subop, BitVec.extractLsb'_append_eq_left]

theorem subop_eq_extractLsb' (w : Word) :
    (Fields.ofWord w).subop = (w.extractLsb' 112 16).extractLsb' 0 8 := by
  rw [← opcode_append_subop, BitVec.extractLsb'_append_eq_right]

/-- The row of `cloadi` asks for a zero `rs1` (R85, R242). -/
theorem decodeI_cloadi_rs1_ne_zero {f : Fields} (hsub : f.subop = 0x00#8) (hrs1 : f.rs1 ≠ 0#3) :
    decodeI f = none := by
  simp [decodeI, hsub, legalIf, hrs1]

theorem decode_of_opcode_I {w : Word} (h : (Fields.ofWord w).opcode = 0x02#8) :
    decode w = decodeI (Fields.ofWord w) := by
  simp [decode, h]

theorem decode_cloadi_rs1_ne_zero {w : Word} (h : w.extractLsb' 112 16 = 0x0200#16)
    (hrs1 : w.extractLsb' 90 3 ≠ 0#3) : decode w = none := by
  have hop : (Fields.ofWord w).opcode = 0x02#8 := by rw [opcode_eq_extractLsb', h]; decide
  have hsub : (Fields.ofWord w).subop = 0x00#8 := by rw [subop_eq_extractLsb', h]; decide
  rw [decode_of_opcode_I hop, decodeI_cloadi_rs1_ne_zero hsub hrs1]

end Sys2Proof

namespace Sys2Proof.Machine

/-! ### Instructions of a register and an immediate (R240) -/

theorem emptyScalarFaults_of_scalarImm {i : Instr} {f : Params → Cplx → Cplx → Cplx} {rd rs1 : SReg} {c : Cplx}
    {s : State} (h : exec i s = scalarImm f rd rs1 c s) : EmptyScalarFaults i s rs1 :=
  emptyScalarFaults_of_scalarUnary (f := fun p a => f p a c) h

theorem completesScalar_of_scalarImm {i : Instr} {f : Params → Cplx → Cplx → Cplx} {rd rs1 : SReg} {c : Cplx}
    {s : State} (h : exec i s = scalarImm f rd rs1 c s) (h1 : SReadable s rs1) :
    CompletesScalar i s rd (f s.params (sVal s rs1) c) :=
  completesScalar_of_scalarUnary (f := fun p a => f p a c) h h1

/-! ### What each instruction answers (R242 to R248) -/

/-- `cloadi` answers without a look at the state's registers. -/
theorem exec_cloadi (rd : SReg) (re45 im45 : BitVec 45) (s : State) :
    exec (.cloadi rd re45 im45) s = .next (nextPc (writeS s rd (imm re45 im45))) := rfl

theorem exec_caddI (rd rs1 : SReg) (re45 im45 : BitVec 45) (s : State) :
    exec (.caddI rd rs1 re45 im45) s = scalarImm (fun _ => caddSat) rd rs1 (imm re45 im45) s := rfl

theorem exec_csubI (rd rs1 : SReg) (re45 im45 : BitVec 45) (s : State) :
    exec (.csubI rd rs1 re45 im45) s = scalarImm (fun _ => csubSat) rd rs1 (imm re45 im45) s := rfl

theorem exec_cmulI (rd rs1 : SReg) (re45 im45 : BitVec 45) (s : State) :
    exec (.cmulI rd rs1 re45 im45) s = scalarImm (fun _ => cmulSat) rd rs1 (imm re45 im45) s := rfl

theorem exec_cmaxabsI (rd rs1 : SReg) (re45 im45 : BitVec 45) (s : State) :
    exec (.cmaxabsI rd rs1 re45 im45) s = scalarImm (fun _ => cmaxabs) rd rs1 (imm re45 im45) s := rfl

theorem exec_cminabsI (rd rs1 : SReg) (re45 im45 : BitVec 45) (s : State) :
    exec (.cminabsI rd rs1 re45 im45) s = scalarImm (fun _ => cminabs) rd rs1 (imm re45 im45) s := rfl

/-! ### The immediate over the integers (R90, R241) -/

@[simp] theorem imm_re_toInt (re45 im45 : BitVec 45) : (imm re45 im45).re.toInt = re45.toInt * 2 ^ 9 :=
  immHalf_toInt re45

@[simp] theorem imm_im_toInt (re45 im45 : BitVec 45) : (imm re45 im45).im.toInt = im45.toInt * 2 ^ 9 :=
  immHalf_toInt im45

/-- One floor and one saturation per half of the exact product (R124, R127, R244). -/
theorem cmulSat_eq_sat64 (a b : Cplx) :
    cmulSat a b =
      ⟨sat64 ((a.re.toInt * b.re.toInt - a.im.toInt * b.im.toInt) / 2 ^ 32),
        sat64 ((a.re.toInt * b.im.toInt + a.im.toInt * b.re.toInt) / 2 ^ 32)⟩ := rfl

theorem mag2_imm (re45 im45 : BitVec 45) :
    mag2 (imm re45 im45) = (re45.toInt * 2 ^ 9) ^ 2 + (im45.toInt * 2 ^ 9) ^ 2 := by
  rw [mag2_eq_sq_add_sq, imm_re_toInt, imm_im_toInt]

end Sys2Proof.Machine

namespace Sys2Proof

open Machine

/-- Settles O46: the word's fields are the instruction's, `cloadi` writes the converted immediate whatever the state,
and a word with its opcode and subop but a set `rs1` does not decode. -/
theorem cloadiResult : Obligations.CloadiResult :=
  ⟨fun rd re45 im45 => ⟨subop_encodeI .., re_encodeI .., im_encodeI .., rs1_encodeI .., imm re45 im45,
      imm_re_toInt .., imm_im_toInt .., fun s => completesScalar_of (exec_cloadi rd re45 im45 s)⟩,
    fun _ h hrs1 => decode_cloadi_rs1_ne_zero h hrs1⟩

/-- Settles O47: sum and difference are the saturating ones of `vadd` and `vsub`, with the exact immediate as second
operand. -/
theorem caddICsubIResults : Obligations.CaddICsubIResults := by
  refine fun s rd rs1 re45 im45 => ⟨subop_encodeI .., subop_encodeI .., emptyScalarFaults_of_scalarImm (exec_caddI ..),
    emptyScalarFaults_of_scalarImm (exec_csubI ..), fun h => ?_⟩
  have hadd := completesScalar_of_scalarImm (exec_caddI rd rs1 re45 im45 s) h
  have hsub := completesScalar_of_scalarImm (exec_csubI rd rs1 re45 im45 s) h
  rw [caddSat_eq_sat64, imm_re_toInt, imm_im_toInt] at hadd
  rw [csubSat_eq_sat64, imm_re_toInt, imm_im_toInt] at hsub
  exact ⟨hadd, hsub⟩

/-- Settles O48: the exact product with the immediate, narrowed over the denominator `2^32` by `satn`. -/
theorem cmulIResult : Obligations.CmulIResult := by
  refine fun s rd rs1 re45 im45 => ⟨subop_encodeI .., emptyScalarFaults_of_scalarImm (exec_cmulI ..), fun h => ?_⟩
  have hmul := completesScalar_of_scalarImm (exec_cmulI rd rs1 re45 im45 s) h
  rwa [cmulSat_eq_sat64, imm_re_toInt, imm_im_toInt] at hmul

/-- Settles O50: both compare the exact squares of the magnitudes and answer the register where the comparison is not
strict. -/
theorem cmaxabsICminabsIResults : Obligations.CmaxabsICminabsIResults := by
  refine fun s rd rs1 re45 im45 => ⟨subop_encodeI .., subop_encodeI ..,
    emptyScalarFaults_of_scalarImm (exec_cmaxabsI ..), emptyScalarFaults_of_scalarImm (exec_cminabsI ..), fun h => ?_⟩
  simp only [← mag2_imm, ← mag2_eq_sq_add_sq]
  exact ⟨completesScalar_of_scalarImm (exec_cmaxabsI ..) h, completesScalar_of_scalarImm (exec_cminabsI ..) h⟩

end Sys2Proof
end

section
/-! PROOFS. The family Encoding (30_encoding.md): what the decoder answers on the word of each format, which words it
answers on at all, and that the rows of the opcode table name the same words. -/

namespace Sys2Proof

/-! ### Register fields and joined fields -/

@[simp] theorem regOf_regBits (r : Fin 8) : regOf (regBits r) = r := rfl

@[simp] theorem regBits_regOf (b : BitVec 3) : regBits (regOf b) = b := rfl

@[simp] theorem regBits_zero : regBits 0 = 0#3 := rfl

theorem regOf_eq_zero {b : BitVec 3} (h : (b == 0#3) = true) : regOf b = 0 := by
  rw [beq_iff_eq.1 h]; rfl

@[simp] theorem dirOf_dirBit (d : Dir) : dirOf (dirBit d) = d := by cases d <;> rfl

@[simp] theorem dirBit_dirOf (b : BitVec 1) : dirBit (dirOf b) = b := by revert b; decide

/-- Joins of parts of the same widths are equal only where the parts are. -/
theorem append_inj {m n : Nat} {x x' : BitVec m} {y y' : BitVec n} (h : x ++ y = x' ++ y') : x = x' ∧ y = y' := by
  constructor
  · rw [← BitVec.extractLsb'_append_eq_left (a := x) (b := y), h, BitVec.extractLsb'_append_eq_left]
  · rw [← BitVec.extractLsb'_append_eq_right (a := x) (b := y), h, BitVec.extractLsb'_append_eq_right]

/-- The 90 low bits of an R-type word: `rs2`, `imm16` and `[70:0]` (R84). -/
theorem lowR_eq_append (x : BitVec 90) :
    x = x.extractLsb' 87 3 ++ x.extractLsb' 71 16 ++ x.extractLsb' 0 71 := by
  rw [show (87 : Nat) = 71 + 16 from rfl, append_extractLsb' (lo := 71) (a := 16) (b := 3)]
  exact ((append_extractLsb' (lo := 0) (a := 71) (b := 19) x).trans (extractLsb'_all x)).symm

/-- The 90 low bits of an I-type word: Im and Re (R85). -/
theorem lowI_eq_append (x : BitVec 90) : x = x.extractLsb' 45 45 ++ x.extractLsb' 0 45 :=
  ((append_extractLsb' (lo := 0) (a := 45) (b := 45) x).trans (extractLsb'_all x)).symm

/-- The 90 low bits of a J-type word: the offset and `[56:0]` (R86). -/
theorem lowJ_eq_append (x : BitVec 90) : x = x.extractLsb' 57 33 ++ x.extractLsb' 0 57 :=
  ((append_extractLsb' (lo := 0) (a := 57) (b := 33) x).trans (extractLsb'_all x)).symm

/-- The 90 low bits of an S-type word: bit 89, two numbers and `[56:0]` (R87). -/
theorem lowS_eq_append (x : BitVec 90) :
    x = x.extractLsb' 89 1 ++ x.extractLsb' 73 16 ++ x.extractLsb' 57 16 ++ x.extractLsb' 0 57 := by
  rw [show (89 : Nat) = 73 + 16 from rfl, append_extractLsb' (lo := 73) (a := 16) (b := 1),
    show (73 : Nat) = 57 + 16 from rfl, append_extractLsb' (lo := 57) (a := 16) (b := 17)]
  exact ((append_extractLsb' (lo := 0) (a := 57) (b := 33) x).trans (extractLsb'_all x)).symm

/-- The flags of an R-type word: 14 zeros and the selector (R84). -/
theorem flagsR_eq_append (x : BitVec 16) : x = x.extractLsb' 2 14 ++ x.extractLsb' 0 2 :=
  ((append_extractLsb' (lo := 0) (a := 2) (b := 14) x).trans (extractLsb'_all x)).symm

/-- The flags of an S-type word: `rc` and 15 zeros (R87). -/
theorem flagsS_eq_append (x : BitVec 16) : x = x.extractLsb' 15 1 ++ x.extractLsb' 0 15 :=
  ((append_extractLsb' (lo := 0) (a := 15) (b := 1) x).trans (extractLsb'_all x)).symm

/-! ### The fields of the low bits of a word just built -/

theorem zeros_lowR (b : BitVec 3) (imm : BitVec 16) (z : BitVec 71) : (b ++ imm ++ z).extractLsb' 0 71 = z :=
  BitVec.extractLsb'_append_eq_right

theorem rs2_lowR (b : BitVec 3) (imm : BitVec 16) (z : BitVec 71) : (b ++ imm ++ z).extractLsb' 87 3 = b := by
  rw [extractLsb'_append_high _ _ (by decide)]; exact BitVec.extractLsb'_append_eq_left

theorem imm_lowR (b : BitVec 3) (imm : BitVec 16) (z : BitVec 71) : (b ++ imm ++ z).extractLsb' 71 16 = imm := by
  rw [extractLsb'_append_high _ _ (by decide)]; exact BitVec.extractLsb'_append_eq_right

theorem im_lowI (im re : BitVec 45) : (im ++ re).extractLsb' 45 45 = im := BitVec.extractLsb'_append_eq_left

theorem re_lowI (im re : BitVec 45) : (im ++ re).extractLsb' 0 45 = re := BitVec.extractLsb'_append_eq_right

theorem offs_lowJ (o : BitVec 33) (z : BitVec 57) : (o ++ z).extractLsb' 57 33 = o :=
  BitVec.extractLsb'_append_eq_left

theorem zeros_lowJ (o : BitVec 33) (z : BitVec 57) : (o ++ z).extractLsb' 0 57 = z :=
  BitVec.extractLsb'_append_eq_right

theorem rc_flagsS (rc : BitVec 1) (z : BitVec 15) : (rc ++ z).extractLsb' 15 1 = rc :=
  BitVec.extractLsb'_append_eq_left

theorem zeros_flagsS (rc : BitVec 1) (z : BitVec 15) : (rc ++ z).extractLsb' 0 15 = z :=
  BitVec.extractLsb'_append_eq_right

theorem zeros_lowS (z : BitVec 1) (i j : BitVec 16) (u : BitVec 57) : (z ++ i ++ j ++ u).extractLsb' 0 57 = u :=
  BitVec.extractLsb'_append_eq_right

theorem bit89_lowS (z : BitVec 1) (i j : BitVec 16) (u : BitVec 57) : (z ++ i ++ j ++ u).extractLsb' 89 1 = z := by
  repeat rw [extractLsb'_append_high _ _ (by decide)]
  exact extractLsb'_all z

theorem first_lowS (z : BitVec 1) (i j : BitVec 16) (u : BitVec 57) : (z ++ i ++ j ++ u).extractLsb' 73 16 = i := by
  rw [extractLsb'_append_high _ _ (by decide), extractLsb'_append_high _ _ (by decide)]
  exact BitVec.extractLsb'_append_eq_right

theorem second_lowS (z : BitVec 1) (i j : BitVec 16) (u : BitVec 57) : (z ++ i ++ j ++ u).extractLsb' 57 16 = j := by
  rw [extractLsb'_append_high _ _ (by decide)]; exact BitVec.extractLsb'_append_eq_right

/-! ### Decoding the word of each format -/

theorem decode_of_opcode_R {w : Word} (h : (Fields.ofWord w).opcode = 0x01#8) :
    decode w = decodeR (Fields.ofWord w) := by
  simp [decode, h]

theorem decode_of_opcode_J {w : Word} (h : (Fields.ofWord w).opcode = 0x03#8) :
    decode w = decodeJ (Fields.ofWord w) := by
  simp [decode, h]

theorem decode_of_opcode_S {w : Word} (h : (Fields.ofWord w).opcode = 0x04#8) :
    decode w = decodeS (Fields.ofWord w) := by
  simp [decode, h]

/-- A word joined from fields is decoded by the format its opcode names; so for the other formats. -/
theorem decode_toWord_R {f : Fields} (h : f.opcode = 0x01#8) : decode f.toWord = decodeR f := by
  rw [decode_of_opcode_R] <;> simp [Fields.ofWord_toWord, h]

theorem decode_toWord_I {f : Fields} (h : f.opcode = 0x02#8) : decode f.toWord = decodeI f := by
  rw [decode_of_opcode_I] <;> simp [Fields.ofWord_toWord, h]

theorem decode_toWord_J {f : Fields} (h : f.opcode = 0x03#8) : decode f.toWord = decodeJ f := by
  rw [decode_of_opcode_J] <;> simp [Fields.ofWord_toWord, h]

theorem decode_toWord_S {f : Fields} (h : f.opcode = 0x04#8) : decode f.toWord = decodeS f := by
  rw [decode_of_opcode_S] <;> simp [Fields.ofWord_toWord, h]

theorem decode_encodeR00 (sub : BitVec 8) (d a b : Fin 8) :
    decode (encodeR 0#2 sub d a b 0#16) = decode00 sub d a b (regBits b == 0#3) := by
  rw [encodeR, decode_toWord_R rfl]
  simp [decodeR, zeros_lowR, rs2_lowR, imm_lowR]

theorem decode_encodeR01 (sub : BitVec 8) (d a b : Fin 8) :
    decode (encodeR 1#2 sub d a b 0#16) = decode01 sub d a b (regBits b == 0#3) := by
  rw [encodeR, decode_toWord_R rfl]
  simp [decodeR, zeros_lowR, rs2_lowR, imm_lowR]

theorem decode_encodeR10 (sub : BitVec 8) (d a b : Fin 8) :
    decode (encodeR 2#2 sub d a b 0#16) = decode10 sub d a b (regBits b == 0#3) := by
  rw [encodeR, decode_toWord_R rfl]
  simp [decodeR, zeros_lowR, rs2_lowR, imm_lowR]

theorem decode_encodeR11 (sub : BitVec 8) (d a b : Fin 8) (imm : BitVec 16) :
    decode (encodeR 3#2 sub d a b imm) = decode11 sub d a b (regBits a == 0#3) imm := by
  rw [encodeR, decode_toWord_R rfl]
  simp [decodeR, zeros_lowR, rs2_lowR, imm_lowR]

theorem decode_encodeI (sub : BitVec 8) (d a : Fin 8) (re im : BitVec 45) :
    decode (encodeI sub d a re im) = decodeI ⟨0x02#8, sub, 0#16, regBits d, regBits a, im ++ re⟩ := by
  rw [encodeI, decode_toWord_I rfl]

theorem decode_encodeJ (offs : BitVec 33) : decode (encodeJ offs) = some (.jrel offs) := by
  rw [encodeJ, decode_toWord_J rfl]
  simp [decodeJ, legalIf, zeros_lowJ, offs_lowJ]

theorem decode_encodeS (sub : BitVec 8) (rc : BitVec 1) (r : Fin 8) (m : BitVec 3) (i j : BitVec 16) :
    decode (encodeS sub rc r m i j) =
      decodeS ⟨0x04#8, sub, rc ++ 0#15, regBits r, m, 0#1 ++ i ++ j ++ 0#57⟩ := by
  rw [encodeS, decode_toWord_S rfl]

/-- The decoder reads the fields the encoder wrote, and the row its subop names (R112). -/
theorem decode_encode {i : Instr} (h : WellFormed i = true) : decode (encode i) = some i := by
  cases i with
  | jrel => exact decode_encodeJ _
  | vld | vst | sldXy | sstXy =>
    simp only [WellFormed] at h
    simp [encode, decode_encodeS, decodeS, legalIf, zeros_flagsS, rc_flagsS, zeros_lowS, bit89_lowS, first_lowS,
      second_lowS, h]
  | vsadd | vssub | vsmul | vsdiv | vsload => exact decode_encodeR11 ..
  | dotc | dotu | iamax | sum | asum => exact decode_encodeR10 ..
  | vadd | vsub | vmul | vmac | vdiv | vconj => exact decode_encodeR01 ..
  | cloadi | caddI | cmulI | csubI | cdivI | cmaxabsI | cminabsI | cscaleI =>
    simp [encode, decode_encodeI, decodeI, legalIf, im_lowI, re_lowI]
  | _ => exact decode_encodeR00 ..

/-- No S-type row reads a bank number of 4 to 7 (R87). -/
theorem decode_encodeS_of_not_bankOk {sub : BitVec 8} {rc : BitVec 1} {r : Fin 8} {m : BitVec 3} {i j : BitVec 16}
    (h : bankOk m = false) : decode (encodeS sub rc r m i j) = none := by
  simp [decode_encodeS, decodeS, h]

/-! ### Words that decode are words the encoder writes (R107, R108) -/

theorem legalIf_eq_some {z : Bool} {i j : Instr} : legalIf z i = some j ↔ z = true ∧ i = j := by
  cases z <;> simp [legalIf]

theorem toWord_eq_encodeR {f : Fields} (hop : f.opcode = 0x01#8) (hfl : f.flags.extractLsb' 2 14 = 0#14)
    (hlow : f.low.extractLsb' 0 71 = 0#71) :
    f.toWord = encodeR (f.flags.extractLsb' 0 2) f.subop (regOf f.rd) (regOf f.rs1)
      (regOf (f.low.extractLsb' 87 3)) (f.low.extractLsb' 71 16) := by
  have hflags : 0#14 ++ f.flags.extractLsb' 0 2 = f.flags := by rw [← hfl]; exact (flagsR_eq_append _).symm
  have hlows : f.low.extractLsb' 87 3 ++ f.low.extractLsb' 71 16 ++ 0#71 = f.low := by
    rw [← hlow]; exact (lowR_eq_append _).symm
  simp only [encodeR, regBits_regOf, hflags, ← hop]
  exact congrArg (fun low => Fields.toWord ⟨f.opcode, _, _, _, _, low⟩) hlows.symm

theorem toWord_eq_encodeI {f : Fields} (hop : f.opcode = 0x02#8) (hfl : f.flags = 0#16) :
    f.toWord = encodeI f.subop (regOf f.rd) (regOf f.rs1) (f.low.extractLsb' 0 45) (f.low.extractLsb' 45 45) := by
  simp only [encodeI, regBits_regOf, ← hop, ← hfl]
  exact congrArg (fun low => Fields.toWord ⟨f.opcode, _, _, _, _, low⟩) (lowI_eq_append _)

theorem toWord_eq_encodeJ {f : Fields} (hop : f.opcode = 0x03#8) (hsub : f.subop = 0x00#8) (hfl : f.flags = 0#16)
    (hrd : f.rd = 0#3) (hrs1 : f.rs1 = 1#3) (hlow : f.low.extractLsb' 0 57 = 0#57) :
    f.toWord = encodeJ (f.low.extractLsb' 57 33) := by
  have hlows : f.low.extractLsb' 57 33 ++ 0#57 = f.low := by rw [← hlow]; exact (lowJ_eq_append _).symm
  simp only [encodeJ, ← hop, ← hsub, ← hfl, ← hrd, ← hrs1]
  exact congrArg (fun low => Fields.toWord ⟨f.opcode, _, _, _, _, low⟩) hlows.symm

theorem toWord_eq_encodeS {f : Fields} (hop : f.opcode = 0x04#8) (hfl : f.flags.extractLsb' 0 15 = 0#15)
    (h89 : f.low.extractLsb' 89 1 = 0#1) (hlow : f.low.extractLsb' 0 57 = 0#57) :
    f.toWord = encodeS f.subop (f.flags.extractLsb' 15 1) (regOf f.rd) f.rs1 (f.low.extractLsb' 73 16)
      (f.low.extractLsb' 57 16) := by
  have hflags : f.flags.extractLsb' 15 1 ++ 0#15 = f.flags := by rw [← hfl]; exact (flagsS_eq_append _).symm
  have hlows : 0#1 ++ f.low.extractLsb' 73 16 ++ f.low.extractLsb' 57 16 ++ 0#57 = f.low := by
    rw [← h89, ← hlow]; exact (lowS_eq_append _).symm
  simp only [encodeS, regBits_regOf, hflags, ← hop]
  exact congrArg (fun low => Fields.toWord ⟨f.opcode, _, _, _, _, low⟩) hlows.symm

/-- `i` is well formed and `w` is its word. -/
abbrev Encodes (i : Instr) (w : Word) : Prop := WellFormed i = true ∧ encode i = w

theorem encodes_of_decode00 {sub : BitVec 8} {d a b : Fin 8} {z2 : Bool} {i : Instr} (hz : z2 = true → b = 0)
    (h : decode00 sub d a b z2 = some i) : Encodes i (encodeR 0#2 sub d a b 0#16) := by
  unfold decode00 at h
  split at h <;> simp only [legalIf_eq_some, Option.some.injEq, reduceCtorEq] at h
  case h_1 | h_2 | h_3 | h_4 | h_5 | h_6 | h_7 | h_8 => obtain ⟨hz2, rfl⟩ := h; cases hz hz2; exact ⟨rfl, rfl⟩
  all_goals subst h; exact ⟨rfl, rfl⟩

theorem encodes_of_decode01 {sub : BitVec 8} {d a b : Fin 8} {z2 : Bool} {i : Instr} (hz : z2 = true → b = 0)
    (h : decode01 sub d a b z2 = some i) : Encodes i (encodeR 1#2 sub d a b 0#16) := by
  unfold decode01 at h
  split at h <;> simp only [legalIf_eq_some, Option.some.injEq, reduceCtorEq] at h
  case h_6 => obtain ⟨hz2, rfl⟩ := h; cases hz hz2; exact ⟨rfl, rfl⟩
  all_goals subst h; exact ⟨rfl, rfl⟩

theorem encodes_of_decode10 {sub : BitVec 8} {d a b : Fin 8} {z2 : Bool} {i : Instr} (hz : z2 = true → b = 0)
    (h : decode10 sub d a b z2 = some i) : Encodes i (encodeR 2#2 sub d a b 0#16) := by
  unfold decode10 at h
  split at h <;> simp only [legalIf_eq_some, Option.some.injEq, reduceCtorEq] at h
  case h_3 | h_4 | h_5 => obtain ⟨hz2, rfl⟩ := h; cases hz hz2; exact ⟨rfl, rfl⟩
  all_goals subst h; exact ⟨rfl, rfl⟩

theorem encodes_of_decode11 {sub : BitVec 8} {d a b : Fin 8} {z1 : Bool} {imm : BitVec 16} {i : Instr}
    (hz : z1 = true → a = 0) (h : decode11 sub d a b z1 imm = some i) : Encodes i (encodeR 3#2 sub d a b imm) := by
  unfold decode11 at h
  split at h <;> simp only [legalIf_eq_some, beq_iff_eq, reduceCtorEq] at h
  case h_5 => obtain ⟨hz1, rfl⟩ := h; cases hz hz1; exact ⟨rfl, rfl⟩
  all_goals obtain ⟨rfl, rfl⟩ := h; exact ⟨rfl, rfl⟩

theorem encodes_of_decodeR {f : Fields} {i : Instr} (hop : f.opcode = 0x01#8) (h : decodeR f = some i) :
    Encodes i f.toWord := by
  simp only [decodeR] at h
  split at h
  case isFalse => cases h
  case isTrue hz =>
    obtain ⟨hfl, hlow⟩ : f.flags.extractLsb' 2 14 = 0#14 ∧ f.low.extractLsb' 0 71 = 0#71 := by simpa using hz
    rw [toWord_eq_encodeR hop hfl hlow]
    split at h
    case h_1 hmap =>
      obtain ⟨himm, h⟩ := Option.ite_none_right_eq_some.1 h
      rw [hmap, beq_iff_eq.1 himm]; exact encodes_of_decode00 regOf_eq_zero h
    case h_2 hmap =>
      obtain ⟨himm, h⟩ := Option.ite_none_right_eq_some.1 h
      rw [hmap, beq_iff_eq.1 himm]; exact encodes_of_decode01 regOf_eq_zero h
    case h_3 hmap =>
      obtain ⟨himm, h⟩ := Option.ite_none_right_eq_some.1 h
      rw [hmap, beq_iff_eq.1 himm]; exact encodes_of_decode10 regOf_eq_zero h
    case h_4 h0 h1 h2 =>
      have three : ∀ m : BitVec 2, m ≠ 0#2 → m ≠ 1#2 → m ≠ 2#2 → m = 3#2 := by decide
      rw [three _ h0 h1 h2]
      exact encodes_of_decode11 regOf_eq_zero h

theorem encodes_of_decodeI {f : Fields} {i : Instr} (hop : f.opcode = 0x02#8) (h : decodeI f = some i) :
    Encodes i f.toWord := by
  simp only [decodeI] at h
  split at h
  case isFalse => cases h
  case isTrue hfl =>
    rw [toWord_eq_encodeI hop (beq_iff_eq.1 hfl)]
    split at h <;> simp only [legalIf_eq_some, Option.some.injEq, reduceCtorEq] at h
    case h_1 hsub =>
      obtain ⟨hrs1, rfl⟩ := h
      rw [hsub, regOf_eq_zero hrs1]; exact ⟨rfl, rfl⟩
    case h_8 hsub =>
      obtain ⟨him, rfl⟩ := h
      rw [hsub, beq_iff_eq.1 him]; exact ⟨rfl, rfl⟩
    all_goals
      rename_i hsub
      subst h
      rw [hsub]; exact ⟨rfl, rfl⟩

theorem encodes_of_decodeJ {f : Fields} {i : Instr} (hop : f.opcode = 0x03#8) (h : decodeJ f = some i) :
    Encodes i f.toWord := by
  simp only [decodeJ] at h
  split at h
  case h_1 hsub =>
    obtain ⟨hz, rfl⟩ := legalIf_eq_some.1 h
    simp only [Bool.and_eq_true, beq_iff_eq] at hz
    obtain ⟨⟨⟨hfl, hrd⟩, hrs1⟩, hlow⟩ := hz
    exact ⟨rfl, (toWord_eq_encodeJ hop hsub hfl hrd hrs1 hlow).symm⟩
  case h_2 => cases h

theorem encodes_of_decodeS {f : Fields} {i : Instr} (hop : f.opcode = 0x04#8) (h : decodeS f = some i) :
    Encodes i f.toWord := by
  simp only [decodeS] at h
  split at h
  case isFalse => cases h
  case isTrue hz =>
    simp only [Bool.and_eq_true, beq_iff_eq] at hz
    obtain ⟨⟨⟨hfl, hbank⟩, h89⟩, hlow⟩ := hz
    rw [toWord_eq_encodeS hop hfl h89 hlow]
    split at h <;> simp only [legalIf_eq_some, Option.some.injEq, beq_iff_eq, reduceCtorEq] at h
    case h_1 hsub | h_2 hsub =>
      subst h
      exact ⟨hbank, by simp [encode, hsub]⟩
    case h_3 hsub | h_4 hsub =>
      obtain ⟨hrc, rfl⟩ := h
      exact ⟨hbank, by simp [encode, hsub, hrc]⟩

/-- Whatever the format: a word that decodes is the word of the instruction it decodes to. -/
theorem encodes_of_decode {w : Word} {i : Instr} (h : decode w = some i) : Encodes i w := by
  rw [← Fields.toWord_ofWord w]
  simp only [decode] at h
  split at h
  case h_1 hop => exact encodes_of_decodeR hop h
  case h_2 hop => exact encodes_of_decodeI hop h
  case h_3 hop => exact encodes_of_decodeJ hop h
  case h_4 hop => exact encodes_of_decodeS hop h
  case h_5 => cases h

/-! ### Words a row of the opcode table matches (R108) -/

/-- Masking a word masks each of its fields (R83). -/
theorem fields_of_and_toWord {w : Word} {g p : Fields} (h : w &&& g.toWord = p.toWord) :
    (Fields.ofWord w).opcode &&& g.opcode = p.opcode ∧ (Fields.ofWord w).subop &&& g.subop = p.subop ∧
    (Fields.ofWord w).flags &&& g.flags = p.flags ∧ (Fields.ofWord w).rd &&& g.rd = p.rd ∧
    (Fields.ofWord w).rs1 &&& g.rs1 = p.rs1 ∧ (Fields.ofWord w).low &&& g.low = p.low := by
  rw [← Fields.toWord_ofWord w, Fields.toWord_and] at h
  have e := congrArg Fields.ofWord h
  simp only [Fields.ofWord_toWord] at e
  rw [← e]
  exact ⟨rfl, rfl, rfl, rfl, rfl, rfl⟩

/-- The row's words are legal. -/
abbrev RowIsLegal (r : OpRow) : Prop := ∀ w, r.hits w → (decode w).isSome = true

theorem isSome_decode_of_eq {i : Instr} {w w' : Word} (hw : w = w') (h : Encodes i w') :
    (decode w).isSome = true := by
  obtain ⟨hi, rfl⟩ := h
  rw [hw, decode_encode hi]; rfl

theorem and_ff (x : BitVec 8) : x &&& 0xFF#8 = x := BitVec.and_allOnes

theorem and_ffff (x : BitVec 16) : x &&& 0xFFFF#16 = x := BitVec.and_allOnes

theorem and_seven (x : BitVec 3) : x &&& 7#3 = x := BitVec.and_allOnes

theorem bankOk_of_and_four {m : BitVec 3} (h : m &&& 4#3 = 0#3) : bankOk m = true := by
  revert m; decide

/-- A row with every register free (R84). -/
theorem rowIsLegal_three {s : String} (map : BitVec 2) (sub : BitVec 8) (i : Fin 8 → Fin 8 → Fin 8 → Instr)
    (hi : ∀ d a b, Encodes (i d a b) (encodeR map sub d a b 0#16)) :
    RowIsLegal ⟨s, 0xFFFFFFFF007FFFFFFFFFFFFFFFFFFFFF#128, encodeR map sub 0 0 0 0#16⟩ := by
  intro w h
  have hm : (0xFFFFFFFF007FFFFFFFFFFFFFFFFFFFFF#128 : Word) =
      Fields.toWord ⟨0xFF#8, 0xFF#8, 0xFFFF#16, 0#3, 0#3, 0#3 ++ 0xFFFF#16 ++ BitVec.allOnes 71⟩ := by decide
  obtain ⟨hop, hsub, hfl, -, -, hlow⟩ := fields_of_and_toWord (hm ▸ h)
  rw [and_ff] at hop hsub
  rw [and_ffff] at hfl
  have himm := congrArg (BitVec.extractLsb' 71 16) hlow
  have hz := congrArg (BitVec.extractLsb' 0 71) hlow
  simp only [BitVec.extractLsb'_and, imm_lowR, zeros_lowR, and_ffff, BitVec.and_allOnes] at himm hz
  have hw := toWord_eq_encodeR hop (by rw [hfl]; exact BitVec.extractLsb'_append_eq_left) hz
  rw [hsub, himm, hfl, BitVec.extractLsb'_append_eq_right, Fields.toWord_ofWord] at hw
  exact isSome_decode_of_eq hw (hi _ _ _)

/-- A row with `rs2` zero (R89). -/
theorem rowIsLegal_two {s : String} (map : BitVec 2) (sub : BitVec 8) (i : Fin 8 → Fin 8 → Instr)
    (hi : ∀ d a, Encodes (i d a) (encodeR map sub d a 0 0#16)) :
    RowIsLegal ⟨s, 0xFFFFFFFF03FFFFFFFFFFFFFFFFFFFFFF#128, encodeR map sub 0 0 0 0#16⟩ := by
  intro w h
  have hm : (0xFFFFFFFF03FFFFFFFFFFFFFFFFFFFFFF#128 : Word) =
      Fields.toWord ⟨0xFF#8, 0xFF#8, 0xFFFF#16, 0#3, 0#3, BitVec.allOnes 90⟩ := by decide
  obtain ⟨hop, hsub, hfl, -, -, hlow⟩ := fields_of_and_toWord (hm ▸ h)
  rw [and_ff] at hop hsub
  rw [and_ffff] at hfl
  rw [BitVec.and_allOnes] at hlow
  have hw := toWord_eq_encodeR hop (by rw [hfl]; exact BitVec.extractLsb'_append_eq_left)
    (by rw [hlow]; exact zeros_lowR ..)
  rw [hsub, hlow, hfl, BitVec.extractLsb'_append_eq_right, rs2_lowR, imm_lowR, Fields.toWord_ofWord] at hw
  exact isSome_decode_of_eq hw (hi _ _)

/-- The row of `vsload`: `imm16` is free, `rs1` is zero (R225). -/
theorem rowIsLegal_vsload {s : String} (map : BitVec 2) (sub : BitVec 8) (i : Fin 8 → Fin 8 → BitVec 16 → Instr)
    (hi : ∀ d b imm, Encodes (i d b imm) (encodeR map sub d 0 b imm)) :
    RowIsLegal ⟨s, 0xFFFFFFFF1C00007FFFFFFFFFFFFFFFFF#128, encodeR map sub 0 0 0 0#16⟩ := by
  intro w h
  have hm : (0xFFFFFFFF1C00007FFFFFFFFFFFFFFFFF#128 : Word) =
      Fields.toWord ⟨0xFF#8, 0xFF#8, 0xFFFF#16, 0#3, 7#3, 0#3 ++ 0#16 ++ BitVec.allOnes 71⟩ := by decide
  obtain ⟨hop, hsub, hfl, -, hrs1, hlow⟩ := fields_of_and_toWord (hm ▸ h)
  rw [and_ff] at hop hsub
  rw [and_ffff] at hfl
  rw [and_seven] at hrs1
  have hz := congrArg (BitVec.extractLsb' 0 71) hlow
  simp only [BitVec.extractLsb'_and, zeros_lowR, BitVec.and_allOnes] at hz
  have hw := toWord_eq_encodeR hop (by rw [hfl]; exact BitVec.extractLsb'_append_eq_left) hz
  rw [hsub, hrs1, hfl, BitVec.extractLsb'_append_eq_right, Fields.toWord_ofWord] at hw
  exact isSome_decode_of_eq hw (hi _ _ _)

/-- A row with `sA` and the immediate free (R85). -/
theorem rowIsLegal_immediate {s : String} (sub : BitVec 8) (i : Fin 8 → Fin 8 → BitVec 45 → BitVec 45 → Instr)
    (hi : ∀ d a re im, Encodes (i d a re im) (encodeI sub d a re im)) :
    RowIsLegal ⟨s, 0xFFFFFFFF000000000000000000000000#128, encodeI sub 0 0 0#45 0#45⟩ := by
  intro w h
  have hm : (0xFFFFFFFF000000000000000000000000#128 : Word) =
      Fields.toWord ⟨0xFF#8, 0xFF#8, 0xFFFF#16, 0#3, 0#3, 0#90⟩ := by decide
  obtain ⟨hop, hsub, hfl, -, -, -⟩ := fields_of_and_toWord (hm ▸ h)
  rw [and_ff] at hop hsub
  rw [and_ffff] at hfl
  have hw := toWord_eq_encodeI hop hfl
  rw [hsub, Fields.toWord_ofWord] at hw
  exact isSome_decode_of_eq hw (hi _ _ _ _)

/-- The row of `cloadi`: `rs1` is zero (R242). -/
theorem rowIsLegal_cloadi {s : String} (sub : BitVec 8) (i : Fin 8 → BitVec 45 → BitVec 45 → Instr)
    (hi : ∀ d re im, Encodes (i d re im) (encodeI sub d 0 re im)) :
    RowIsLegal ⟨s, 0xFFFFFFFF1C0000000000000000000000#128, encodeI sub 0 0 0#45 0#45⟩ := by
  intro w h
  have hm : (0xFFFFFFFF1C0000000000000000000000#128 : Word) =
      Fields.toWord ⟨0xFF#8, 0xFF#8, 0xFFFF#16, 0#3, 7#3, 0#90⟩ := by decide
  obtain ⟨hop, hsub, hfl, -, hrs1, -⟩ := fields_of_and_toWord (hm ▸ h)
  rw [and_ff] at hop hsub
  rw [and_ffff] at hfl
  rw [and_seven] at hrs1
  have hw := toWord_eq_encodeI hop hfl
  rw [hsub, hrs1, Fields.toWord_ofWord] at hw
  exact isSome_decode_of_eq hw (hi _ _ _)

/-- The row of `cscale_i`: the Im half is zero (R91). -/
theorem rowIsLegal_cscale {s : String} (sub : BitVec 8) (i : Fin 8 → Fin 8 → BitVec 45 → Instr)
    (hi : ∀ d a re, Encodes (i d a re) (encodeI sub d a re 0#45)) :
    RowIsLegal ⟨s, 0xFFFFFFFF03FFFFFFFFFFE00000000000#128, encodeI sub 0 0 0#45 0#45⟩ := by
  intro w h
  have hm : (0xFFFFFFFF03FFFFFFFFFFE00000000000#128 : Word) =
      Fields.toWord ⟨0xFF#8, 0xFF#8, 0xFFFF#16, 0#3, 0#3, BitVec.allOnes 45 ++ 0#45⟩ := by decide
  obtain ⟨hop, hsub, hfl, -, -, hlow⟩ := fields_of_and_toWord (hm ▸ h)
  rw [and_ff] at hop hsub
  rw [and_ffff] at hfl
  have him := congrArg (BitVec.extractLsb' 45 45) hlow
  simp only [BitVec.extractLsb'_and, im_lowI, BitVec.and_allOnes] at him
  have hw := toWord_eq_encodeI hop hfl
  rw [hsub, him, Fields.toWord_ofWord] at hw
  exact isSome_decode_of_eq hw (hi _ _ _)

/-- The row of `jrel`: only the offset is free (R86). -/
theorem rowIsLegal_jrel {s : String} :
    RowIsLegal ⟨s, 0xFFFFFFFFFC00000001FFFFFFFFFFFFFF#128, encodeJ 0#33⟩ := by
  intro w h
  have hm : (0xFFFFFFFFFC00000001FFFFFFFFFFFFFF#128 : Word) =
      Fields.toWord ⟨0xFF#8, 0xFF#8, 0xFFFF#16, 7#3, 7#3, 0#33 ++ BitVec.allOnes 57⟩ := by decide
  obtain ⟨hop, hsub, hfl, hrd, hrs1, hlow⟩ := fields_of_and_toWord (hm ▸ h)
  rw [and_ff] at hop hsub
  rw [and_ffff] at hfl
  rw [and_seven] at hrd hrs1
  have hz := congrArg (BitVec.extractLsb' 0 57) hlow
  simp only [BitVec.extractLsb'_and, zeros_lowJ, BitVec.and_allOnes] at hz
  have hw := toWord_eq_encodeJ hop hsub hfl hrd hrs1 hz
  rw [Fields.toWord_ofWord] at hw
  exact isSome_decode_of_eq (i := .jrel _) hw ⟨rfl, rfl⟩

/-- A row of a vector access: `rc`, the register, two bits of `mbid` and the two numbers are free (R87). -/
theorem rowIsLegal_access {s : String} (sub : BitVec 8) (i : Fin 8 → BitVec 3 → Dir → BitVec 16 → BitVec 16 → Instr)
    (hi : ∀ r m rc x l, bankOk m = true → Encodes (i r m rc x l) (encodeS sub (dirBit rc) r m x l)) :
    RowIsLegal ⟨s, 0xFFFF7FFF1200000001FFFFFFFFFFFFFF#128, encodeS sub 0#1 0 0#3 0#16 0#16⟩ := by
  intro w h
  have hm : (0xFFFF7FFF1200000001FFFFFFFFFFFFFF#128 : Word) =
      Fields.toWord ⟨0xFF#8, 0xFF#8, 0#1 ++ BitVec.allOnes 15, 0#3, 4#3,
        BitVec.allOnes 1 ++ 0#16 ++ 0#16 ++ BitVec.allOnes 57⟩ := by decide
  obtain ⟨hop, hsub, hfl, -, hbank, hlow⟩ := fields_of_and_toWord (hm ▸ h)
  rw [and_ff] at hop hsub
  have hfz := congrArg (BitVec.extractLsb' 0 15) hfl
  have h89 := congrArg (BitVec.extractLsb' 89 1) hlow
  have hz := congrArg (BitVec.extractLsb' 0 57) hlow
  simp only [BitVec.extractLsb'_and, zeros_flagsS, bit89_lowS, zeros_lowS, BitVec.and_allOnes] at hfz h89 hz
  have hw := toWord_eq_encodeS hop hfz h89 hz
  rw [hsub, Fields.toWord_ofWord, ← dirBit_dirOf (BitVec.extractLsb' 15 1 _)] at hw
  exact isSome_decode_of_eq hw (hi _ _ _ _ _ (bankOk_of_and_four hbank))

/-- A row of an element access: `rc` is zero too (R276). -/
theorem rowIsLegal_element {s : String} (sub : BitVec 8) (i : Fin 8 → BitVec 3 → BitVec 16 → BitVec 16 → Instr)
    (hi : ∀ r m x y, bankOk m = true → Encodes (i r m x y) (encodeS sub 0#1 r m x y)) :
    RowIsLegal ⟨s, 0xFFFFFFFF1200000001FFFFFFFFFFFFFF#128, encodeS sub 0#1 0 0#3 0#16 0#16⟩ := by
  intro w h
  have hm : (0xFFFFFFFF1200000001FFFFFFFFFFFFFF#128 : Word) =
      Fields.toWord ⟨0xFF#8, 0xFF#8, 0xFFFF#16, 0#3, 4#3,
        BitVec.allOnes 1 ++ 0#16 ++ 0#16 ++ BitVec.allOnes 57⟩ := by decide
  obtain ⟨hop, hsub, hfl, -, hbank, hlow⟩ := fields_of_and_toWord (hm ▸ h)
  rw [and_ff] at hop hsub
  rw [and_ffff] at hfl
  have h89 := congrArg (BitVec.extractLsb' 89 1) hlow
  have hz := congrArg (BitVec.extractLsb' 0 57) hlow
  simp only [BitVec.extractLsb'_and, bit89_lowS, zeros_lowS, BitVec.and_allOnes] at h89 hz
  have hw := toWord_eq_encodeS hop (by rw [hfl]; exact zeros_flagsS ..) h89 hz
  rw [hsub, hfl, rc_flagsS, Fields.toWord_ofWord] at hw
  exact isSome_decode_of_eq hw (hi _ _ _ _ (bankOk_of_and_four hbank))

theorem table00_isLegal : ∀ r ∈ table00, RowIsLegal r := by
  simp only [table00, List.forall_mem_cons, List.not_mem_nil, false_imp_iff, implies_true, and_true]
  exact ⟨rowIsLegal_two 0#2 0x00#8 .cneg fun _ _ => ⟨rfl, rfl⟩,
    rowIsLegal_two 0#2 0x01#8 .conj fun _ _ => ⟨rfl, rfl⟩,
    rowIsLegal_two 0#2 0x02#8 .csqrt fun _ _ => ⟨rfl, rfl⟩,
    rowIsLegal_two 0#2 0x03#8 .cabs2 fun _ _ => ⟨rfl, rfl⟩,
    rowIsLegal_two 0#2 0x04#8 .cabs fun _ _ => ⟨rfl, rfl⟩,
    rowIsLegal_two 0#2 0x05#8 .creal fun _ _ => ⟨rfl, rfl⟩,
    rowIsLegal_two 0#2 0x06#8 .cimag fun _ _ => ⟨rfl, rfl⟩,
    rowIsLegal_two 0#2 0x07#8 .crecip fun _ _ => ⟨rfl, rfl⟩,
    rowIsLegal_three 0#2 0x08#8 .cadd fun _ _ _ => ⟨rfl, rfl⟩,
    rowIsLegal_three 0#2 0x09#8 .csub fun _ _ _ => ⟨rfl, rfl⟩,
    rowIsLegal_three 0#2 0x0A#8 .cmul fun _ _ _ => ⟨rfl, rfl⟩,
    rowIsLegal_three 0#2 0x0B#8 .cdiv fun _ _ _ => ⟨rfl, rfl⟩,
    rowIsLegal_three 0#2 0x0C#8 .cmaxabs fun _ _ _ => ⟨rfl, rfl⟩,
    rowIsLegal_three 0#2 0x0D#8 .cminabs fun _ _ _ => ⟨rfl, rfl⟩,
    rowIsLegal_three 0#2 0x0E#8 .cmpltRe fun _ _ _ => ⟨rfl, rfl⟩,
    rowIsLegal_three 0#2 0x0F#8 .cmpgtRe fun _ _ _ => ⟨rfl, rfl⟩,
    rowIsLegal_three 0#2 0x10#8 .cmpleRe fun _ _ _ => ⟨rfl, rfl⟩⟩

theorem table01_isLegal : ∀ r ∈ table01, RowIsLegal r := by
  simp only [table01, List.forall_mem_cons, List.not_mem_nil, false_imp_iff, implies_true, and_true]
  exact ⟨rowIsLegal_three 1#2 0x00#8 .vadd fun _ _ _ => ⟨rfl, rfl⟩,
    rowIsLegal_three 1#2 0x01#8 .vsub fun _ _ _ => ⟨rfl, rfl⟩,
    rowIsLegal_three 1#2 0x02#8 .vmul fun _ _ _ => ⟨rfl, rfl⟩,
    rowIsLegal_three 1#2 0x03#8 .vmac fun _ _ _ => ⟨rfl, rfl⟩,
    rowIsLegal_three 1#2 0x04#8 .vdiv fun _ _ _ => ⟨rfl, rfl⟩,
    rowIsLegal_two 1#2 0x05#8 .vconj fun _ _ => ⟨rfl, rfl⟩⟩

theorem table10_isLegal : ∀ r ∈ table10, RowIsLegal r := by
  simp only [table10, List.forall_mem_cons, List.not_mem_nil, false_imp_iff, implies_true, and_true]
  exact ⟨rowIsLegal_three 2#2 0x00#8 .dotc fun _ _ _ => ⟨rfl, rfl⟩,
    rowIsLegal_three 2#2 0x01#8 .dotu fun _ _ _ => ⟨rfl, rfl⟩,
    rowIsLegal_two 2#2 0x02#8 .iamax fun _ _ => ⟨rfl, rfl⟩,
    rowIsLegal_two 2#2 0x03#8 .sum fun _ _ => ⟨rfl, rfl⟩,
    rowIsLegal_two 2#2 0x04#8 .asum fun _ _ => ⟨rfl, rfl⟩⟩

theorem table11_isLegal : ∀ r ∈ table11, RowIsLegal r := by
  simp only [table11, List.forall_mem_cons, List.not_mem_nil, false_imp_iff, implies_true, and_true]
  exact ⟨rowIsLegal_three 3#2 0x18#8 .vsadd fun _ _ _ => ⟨rfl, rfl⟩,
    rowIsLegal_three 3#2 0x19#8 .vssub fun _ _ _ => ⟨rfl, rfl⟩,
    rowIsLegal_three 3#2 0x1A#8 .vsmul fun _ _ _ => ⟨rfl, rfl⟩,
    rowIsLegal_three 3#2 0x1B#8 .vsdiv fun _ _ _ => ⟨rfl, rfl⟩,
    rowIsLegal_vsload 3#2 0x1C#8 .vsload fun _ _ _ => ⟨rfl, rfl⟩⟩

theorem tableI_isLegal : ∀ r ∈ tableI, RowIsLegal r := by
  simp only [tableI, List.forall_mem_cons, List.not_mem_nil, false_imp_iff, implies_true, and_true]
  exact ⟨rowIsLegal_cloadi 0x00#8 .cloadi fun _ _ _ => ⟨rfl, rfl⟩,
    rowIsLegal_immediate 0x01#8 .caddI fun _ _ _ _ => ⟨rfl, rfl⟩,
    rowIsLegal_immediate 0x02#8 .cmulI fun _ _ _ _ => ⟨rfl, rfl⟩,
    rowIsLegal_immediate 0x03#8 .csubI fun _ _ _ _ => ⟨rfl, rfl⟩,
    rowIsLegal_immediate 0x04#8 .cdivI fun _ _ _ _ => ⟨rfl, rfl⟩,
    rowIsLegal_immediate 0x05#8 .cmaxabsI fun _ _ _ _ => ⟨rfl, rfl⟩,
    rowIsLegal_immediate 0x06#8 .cminabsI fun _ _ _ _ => ⟨rfl, rfl⟩,
    rowIsLegal_cscale 0x10#8 .cscaleI fun _ _ _ => ⟨rfl, rfl⟩⟩

theorem tableJS_isLegal : ∀ r ∈ tableJS, RowIsLegal r := by
  simp only [tableJS, List.forall_mem_cons, List.not_mem_nil, false_imp_iff, implies_true, and_true]
  exact ⟨rowIsLegal_jrel,
    rowIsLegal_access 0x00#8 .vld fun _ _ _ _ _ h => ⟨h, rfl⟩,
    rowIsLegal_access 0x01#8 .vst fun _ _ _ _ _ h => ⟨h, rfl⟩,
    rowIsLegal_element 0x02#8 .sldXy fun _ _ _ _ h => ⟨h, rfl⟩,
    rowIsLegal_element 0x03#8 .sstXy fun _ _ _ _ h => ⟨h, rfl⟩⟩

theorem opcodeTable_isLegal : ∀ r ∈ opcodeTable, RowIsLegal r := by
  simp only [opcodeTable, List.forall_mem_append]
  exact ⟨⟨⟨⟨⟨table00_isLegal, table01_isLegal⟩, table10_isLegal⟩, table11_isLegal⟩, tableI_isLegal⟩, tableJS_isLegal⟩

/-- The word of every well-formed instruction matches the row of its mnemonic. -/
theorem tableRow_statement : ∀ i : Instr, Laws.TableRow.Statement i
  | .cneg a b => Laws.TableRow.cneg a b
  | .conj a b => Laws.TableRow.conj a b
  | .csqrt a b => Laws.TableRow.csqrt a b
  | .cabs2 a b => Laws.TableRow.cabs2 a b
  | .cabs a b => Laws.TableRow.cabs a b
  | .creal a b => Laws.TableRow.creal a b
  | .cimag a b => Laws.TableRow.cimag a b
  | .crecip a b => Laws.TableRow.crecip a b
  | .cadd a b c => Laws.TableRow.cadd a b c
  | .csub a b c => Laws.TableRow.csub a b c
  | .cmul a b c => Laws.TableRow.cmul a b c
  | .cdiv a b c => Laws.TableRow.cdiv a b c
  | .cmaxabs a b c => Laws.TableRow.cmaxabs a b c
  | .cminabs a b c => Laws.TableRow.cminabs a b c
  | .cmpltRe a b c => Laws.TableRow.cmpltRe a b c
  | .cmpgtRe a b c => Laws.TableRow.cmpgtRe a b c
  | .cmpleRe a b c => Laws.TableRow.cmpleRe a b c
  | .vadd a b c => Laws.TableRow.vadd a b c
  | .vsub a b c => Laws.TableRow.vsub a b c
  | .vmul a b c => Laws.TableRow.vmul a b c
  | .vmac a b c => Laws.TableRow.vmac a b c
  | .vdiv a b c => Laws.TableRow.vdiv a b c
  | .vconj a b => Laws.TableRow.vconj a b
  | .dotc a b c => Laws.TableRow.dotc a b c
  | .dotu a b c => Laws.TableRow.dotu a b c
  | .iamax a b => Laws.TableRow.iamax a b
  | .sum a b => Laws.TableRow.sum a b
  | .asum a b => Laws.TableRow.asum a b
  | .vsadd a b c => Laws.TableRow.vsadd a b c
  | .vssub a b c => Laws.TableRow.vssub a b c
  | .vsmul a b c => Laws.TableRow.vsmul a b c
  | .vsdiv a b c => Laws.TableRow.vsdiv a b c
  | .vsload a b c => Laws.TableRow.vsload a b c
  | .cloadi a b c => Laws.TableRow.cloadi a b c
  | .caddI a b c d => Laws.TableRow.caddI a b c d
  | .cmulI a b c d => Laws.TableRow.cmulI a b c d
  | .csubI a b c d => Laws.TableRow.csubI a b c d
  | .cdivI a b c d => Laws.TableRow.cdivI a b c d
  | .cmaxabsI a b c d => Laws.TableRow.cmaxabsI a b c d
  | .cminabsI a b c d => Laws.TableRow.cminabsI a b c d
  | .cscaleI a b c => Laws.TableRow.cscaleI a b c
  | .jrel a => Laws.TableRow.jrel a
  | .vld a b c d e => Laws.TableRow.vld a b c d e
  | .vst a b c d e => Laws.TableRow.vst a b c d e
  | .sldXy a b c d => Laws.TableRow.sldXy a b c d
  | .sstXy a b c d => Laws.TableRow.sstXy a b c d

end Sys2Proof

namespace Sys2Proof
/-- Settles O2, format by format: the decoder reads the fields the encoder wrote, and the row its subop names. -/
theorem decodeOfEncodeIsIdentity : Obligations.DecodeOfEncodeIsIdentity := fun _ => decode_encode

/-- Settles O3, format by format: the fields the decoder asks to be zero are those the encoder writes as zero. -/
theorem encodeOfDecodeIsIdentity : Obligations.EncodeOfDecodeIsIdentity := fun _ _ => encodes_of_decode

/-- Settles O4: the word of a well-formed instruction matches the row of its mnemonic, and the words of each row are
words of the encoder. -/
theorem legalWordsAreTableRows : Obligations.LegalWordsAreTableRows := by
  refine fun w => ⟨fun h => ?_, fun ⟨r, hr, hits⟩ => opcodeTable_isLegal r hr w hits⟩
  obtain ⟨i, hi⟩ := Option.isSome_iff_exists.1 h
  obtain ⟨hwf, rfl⟩ := encodes_of_decode hi
  obtain ⟨r, hr, -, hits⟩ := tableRow_statement i hwf
  exact ⟨r, hr, hits⟩

/-- Settles O5: only an S-type instruction is ill formed, and the S-type rows ask for a bank number below 4. -/
theorem illFormedBankNumbersAreNotDecoded : Obligations.IllFormedBankNumbersAreNotDecoded := by
  intro i h
  cases i with
  | vld | vst | sldXy | sstXy => exact decode_encodeS_of_not_bankOk h
  | _ => cases h

/-- Settles O1: the words are those of the decoder's tests. -/
theorem decodeReadsSpecWords : Obligations.DecodeReadsSpecWords := by
  obtain ⟨-, vsload⟩ := Tests.test_decode_vsload
  obtain ⟨cloadi, -⟩ := Tests.test_decode_cloadi
  obtain ⟨jrel, -⟩ := Tests.test_decode_jrel
  obtain ⟨vld, -⟩ := Tests.test_decode_vld
  obtain ⟨-, -, -, imm16, -⟩ := Tests.test_illegal_words_a
  obtain ⟨-, -, -, -, bank, -⟩ := Tests.test_illegal_words_c
  exact ⟨Tests.test_decode_cadd, Tests.test_decode_vmac, Tests.test_decode_iamax, vsload, cloadi, jrel, vld,
    Tests.test_decode_sldXy, imm16, bank⟩

end Sys2Proof
end

section
/-! PROOFS. The family Steps, faults and frames (00_scope.md, 10_state.md, 60_exceptions.md): when there is a step and
what it is (R15, R345), and, by cases on the effects of an instruction, what every instruction leaves alone. -/

namespace Sys2Proof.Machine

/-! ### When a step stops, and what it fetches (R15, R304, R345) -/

theorem stopReason_of_fault {s : State} (h : s.fault ≠ none) : stopReason s = some .faulted :=
  if_pos (Option.isSome_iff_ne_none.2 h)

theorem stopReason_of_finished {s : State} (h : Finished s) : stopReason s = some .runOver := by
  obtain ⟨hf, hpc⟩ := h
  rw [stopReason, hf, if_neg (by simp), if_pos hpc]

theorem stopReason_eq_none {s : State} : stopReason s = none ↔ s.fault = none ∧ s.pc ≠ s.prog.length := by
  unfold stopReason
  cases s.fault <;> simp

theorem step_of_stopReason {s : State} {f : Fault} (h : stopReason s = some f) : step s = .fault f := by
  simp [step, h]

theorem step_of_fetch_ok {s : State} {i : Instr} (h : stopReason s = none) (hi : fetchInstr s = .ok i) :
    step s = exec i s := by
  simp [step, h, hi]

theorem step_of_fetch_error {s : State} {c : FaultCause} (h : stopReason s = none) (hc : fetchInstr s = .error c) :
    step s = takeFault c s := by
  simp [step, h, hc]

theorem fetchWord_ok {s : State} {w : Word} (hpc : 0 ≤ s.pc) (hw : s.prog[s.pc.toNat]? = some w) :
    fetchWord s = .ok w := by
  rw [fetchWord, if_neg (by omega), hw]

theorem fetchWord_error {s : State} (h : s.pc < 0 ∨ (s.prog.length : Int) < s.pc) :
    fetchWord s = .error .fetchFault := by
  unfold fetchWord
  split
  case isTrue => rfl
  case isFalse => rw [List.getElem?_eq_none (by omega)]

/-- There is no word only outside the program. -/
theorem fetchWord_eq_error {s : State} {c : FaultCause} (h : fetchWord s = .error c) : c = .fetchFault := by
  unfold fetchWord at h
  split at h
  case isTrue => cases h; rfl
  case isFalse => split at h <;> cases h; rfl

theorem pc_ne_length_of_getElem? {s : State} {w : Word} (hpc : 0 ≤ s.pc) (hw : s.prog[s.pc.toNat]? = some w) :
    s.pc ≠ s.prog.length := by
  obtain ⟨h, -⟩ := List.getElem?_eq_some_iff.1 hw
  omega

theorem decodeBytes_wordBytes (w : Word) : decodeBytes (wordBytes w) = (decode w).map fun i => (i, []) := by
  simpa using decodeBytes_wordBytes_append w []

/-- The fetch answers an instruction, or one of the two faults of the fetch: never `UninitializedRead`. -/
theorem fetchInstr_eq_error {s : State} {c : FaultCause} (h : fetchInstr s = .error c) (p : Place) :
    c ≠ .uninitializedRead p := by
  unfold fetchInstr at h
  split at h
  case h_1 hw => cases h; rw [fetchWord_eq_error hw]; simp
  case h_2 hw => split at h <;> cases h; simp

/-- Everything a step to a next state can be: an instruction's meaning, or a fault of the fetch, taken. -/
theorem step_eq_next {s t : State} (h : step s = .next t) :
    s.fault = none ∧
      ((∃ i, exec i s = .next t) ∨
        ∃ c, (∀ p, c ≠ .uninitializedRead p) ∧ t = { s with fault := some ⟨s.pc, c⟩ }) := by
  unfold step at h
  split at h
  case h_1 => cases h
  case h_2 hs =>
    obtain ⟨hf, -⟩ := stopReason_eq_none.1 hs
    refine ⟨hf, ?_⟩
    split at h
    case h_1 c hc => cases h; exact .inr ⟨c, fetchInstr_eq_error hc, rfl⟩
    case h_2 i hi => exact .inl ⟨i, h⟩

/-! ### What the effects have in common -/

@[simp] theorem setElems_params (s : State) (b : Nat) (e : Nat → Nat × Nat) (t : Nat → Cplx) (n : Nat) :
    (setElems s b e t n).params = s.params := by rw [setElems_eq]
@[simp] theorem setElems_prog (s : State) (b : Nat) (e : Nat → Nat × Nat) (t : Nat → Cplx) (n : Nat) :
    (setElems s b e t n).prog = s.prog := by rw [setElems_eq]
@[simp] theorem setElems_pc (s : State) (b : Nat) (e : Nat → Nat × Nat) (t : Nat → Cplx) (n : Nat) :
    (setElems s b e t n).pc = s.pc := by rw [setElems_eq]
@[simp] theorem setElems_sregs (s : State) (b : Nat) (e : Nat → Nat × Nat) (t : Nat → Cplx) (n : Nat) :
    (setElems s b e t n).sregs = s.sregs := by rw [setElems_eq]
@[simp] theorem setElems_vregs (s : State) (b : Nat) (e : Nat → Nat × Nat) (t : Nat → Cplx) (n : Nat) :
    (setElems s b e t n).vregs = s.vregs := by rw [setElems_eq]
@[simp] theorem setElems_fault (s : State) (b : Nat) (e : Nat → Nat × Nat) (t : Nat → Cplx) (n : Nat) :
    (setElems s b e t n).fault = s.fault := by rw [setElems_eq]

/-- An effect leaves the fault record alone, or is a fault the instruction may raise, recorded. -/
theorem Effect.fault_cases {i : Instr} {s t : State} (h : Effect i s t) :
    t.fault = s.fault ∨
      ∃ c, mayRaise i c ∧ (∀ p, c = .uninitializedRead p → HoldsNothing s p) ∧
        t = { s with fault := some ⟨s.pc, c⟩ } := by
  cases h with
  | fault c hm hp => exact .inr ⟨c, hm, hp, rfl⟩
  | store | storeOne => left; simp
  | _ => left; rfl

theorem Effect.params_prog {i : Instr} {s t : State} (h : Effect i s t) :
    t.params = s.params ∧ t.prog = s.prog := by
  cases h with
  | store | storeOne => simp
  | _ => exact ⟨rfl, rfl⟩

/-- An instruction other than `jrel` that records no fault moves the pc on by one (R27). -/
theorem Effect.pc_eq {i : Instr} {s t : State} (h : Effect i s t) (hi : ∀ off, i ≠ .jrel off) (ht : t.fault = none) :
    t.pc = s.pc + 1 := by
  cases h with
  | jump off e => exact absurd e (hi off)
  | fault c => cases ht
  | store | storeOne => simp
  | _ => rfl

/-- Only the S-type writes the banks (R59). -/
theorem Effect.mem_eq {i : Instr} {s t : State} (h : Effect i s t) (hi : reachesBanks i = false) : t.mem = s.mem := by
  cases h with
  | store r m rc x l f e => subst e; cases hi
  | storeOne r m x y e => subst e; cases hi
  | _ => rfl

theorem sameVector_setLanes_of_ne_dest {s : State} {d r : VReg} (h : some d ≠ some r) (f : Nat → Reg) :
    SameVector s (setLanes s d f) r :=
  sameVector_setLanes fun e => h (congrArg some e.symm)

theorem Effect.sameScalar {i : Instr} {s t : State} (h : Effect i s t) {r : SReg} (hr : scalarDest i ≠ some r) :
    SameScalar s t r := by
  cases h with
  | scalar d c e =>
    have hd : r ≠ d := fun e' => hr (e' ▸ e)
    simp [SameScalar, sAt_writeS, hd]
  | store | storeOne => exact sameScalar_of_sregs (by simp) r
  | _ => exact sameScalar_of_sregs rfl r

theorem Effect.sameVector {i : Instr} {s t : State} (h : Effect i s t) {r : VReg} (hr : vectorDest i ≠ some r) :
    SameVector s t r := by
  cases h with
  | lanes d f e => exact sameVector_setLanes fun e' => hr (e' ▸ e)
  | lane d a x c e => subst e; exact sameVector_setLanes fun e' => hr (e' ▸ rfl)
  | load d m rc x l f e => subst e; exact sameVector_setLanes fun e' => hr (e' ▸ rfl)
  | store | storeOne => exact sameVector_of_vregs (by simp) r
  | _ => exact sameVector_of_vregs rfl r

/-! ### Writes to `s0` and `v0` (R22, R23) -/

@[simp] theorem writeS_zero (s : State) (c : Cplx) : writeS s 0 c = s := rfl

@[simp] theorem setLanes_zero (s : State) (f : Nat → Reg) : setLanes s 0 f = s := rfl

theorem vectorDest_eq_none {i : Instr} {d : SReg} (h : scalarDest i = some d) : vectorDest i = none := by
  cases i <;> simp_all [scalarDest, vectorDest]

/-- With `s0` or `v0` as destination, an instruction that records no fault writes nothing. -/
theorem Effect.eq_of_zero_dest {i : Instr} {s t : State} (h : Effect i s t)
    (hd : scalarDest i = some 0 ∨ vectorDest i = some 0) (ht : t.fault = none) : t = nextPc s := by
  cases h with
  | scalar d c e =>
    rw [e, vectorDest_eq_none e] at hd
    obtain rfl : d = 0 := by simpa using hd
    rfl
  | lanes d f e =>
    obtain hs | hv := hd
    · rw [vectorDest_eq_none hs] at e; cases e
    · obtain rfl : d = 0 := by simpa [e] using hv
      rfl
  | lane d a x c e => subst e; obtain ⟨⟨⟩⟩ | ⟨⟨⟩⟩ := hd; rfl
  | load d m rc x l f e => subst e; obtain ⟨⟨⟩⟩ | ⟨⟨⟩⟩ := hd; rfl
  | fault c => cases ht
  | store r m rc x l f e | storeOne r m x y e | jump off e | fall off e => subst e; obtain ⟨⟨⟩⟩ | ⟨⟨⟩⟩ := hd

end Sys2Proof.Machine

namespace Sys2Proof

open Machine

/-- Settles O7: there is a word at the pc, so the run is not over, and the fetch answers `i`. -/
theorem stepRunsDecodedInstruction : Obligations.StepRunsDecodedInstruction := by
  intro s w i rest hf hpc hw hi
  refine step_of_fetch_ok (stopReason_eq_none.2 ⟨hf, pc_ne_length_of_getElem? hpc hw⟩) ?_
  simp [fetchInstr, fetchWord_ok hpc hw, hi]

/-- Settles O8: the fetch raises the fault, and taking it writes the record only. -/
theorem stepFaultsWithoutLegalWord : Obligations.StepFaultsWithoutLegalWord := by
  refine fun s hf => ⟨fun hpc => ?_, fun w hpc hw hd => ?_⟩
  · refine step_of_fetch_error (stopReason_eq_none.2 ⟨hf, by omega⟩) ?_
    simp [fetchInstr, fetchWord_error hpc]
  · refine step_of_fetch_error (stopReason_eq_none.2 ⟨hf, pc_ne_length_of_getElem? hpc hw⟩) ?_
    simp [fetchInstr, fetchWord_ok hpc hw, decodeBytes_wordBytes, hd]

/-- Settles O9: past the two reasons to stop, the fetch takes a fault or `exec` answers a next state. -/
theorem stepStopsOnlyWhenFaultedOrFinished : Obligations.StepStopsOnlyWhenFaultedOrFinished := by
  refine fun s => ⟨fun hf => step_of_stopReason (stopReason_of_fault hf),
    fun hs => step_of_stopReason (stopReason_of_finished hs), fun hf hpc => ?_⟩
  have hs : stopReason s = none := stopReason_eq_none.2 ⟨hf, hpc⟩
  cases hi : fetchInstr s with
  | error c => exact ⟨_, step_of_fetch_error hs hi⟩
  | ok i => rw [step_of_fetch_ok hs hi]; exact exec_total i s

/-- Settles O10. -/
theorem faultsArePrecise : Obligations.FaultsArePrecise := by
  intro i s t h
  obtain hf | ⟨c, -, -, ht⟩ := (exec_effect h).fault_cases
  · exact .inl hf
  · exact .inr ⟨c, ht⟩

/-- Settles O11. -/
theorem faultsComeOnlyFromTheirInstructions : Obligations.FaultsComeOnlyFromTheirInstructions := by
  intro i s t c hs h ht
  obtain hf | ⟨c', hm, -, rfl⟩ := (exec_effect h).fault_cases
  · rw [hf, hs] at ht; cases ht
  · cases ht; exact hm

/-- Settles O12: neither a fault of the fetch nor an effect without a fault records `UninitializedRead`. -/
theorem uninitializedReadOnlyWhereNothingIsHeld : Obligations.UninitializedReadOnlyWhereNothingIsHeld := by
  intro s t pc p hs h ht
  obtain ⟨-, ⟨i, hi⟩ | ⟨c, hc, rfl⟩⟩ := step_eq_next h
  · obtain hf | ⟨c, -, hp, rfl⟩ := (exec_effect hi).fault_cases
    · rw [hf, hs] at ht; cases ht
    · cases ht; exact ⟨rfl, hp p rfl⟩
  · cases ht; exact absurd rfl (hc p)

/-- Settles O14. -/
theorem parametersAndProgramNeverChange : Obligations.ParametersAndProgramNeverChange := by
  intro s t h
  obtain ⟨-, ⟨i, hi⟩ | ⟨c, -, rfl⟩⟩ := step_eq_next h
  · exact (exec_effect hi).params_prog
  · exact ⟨rfl, rfl⟩

/-- Settles O15. -/
theorem onlyJrelLeavesTheSequence : Obligations.OnlyJrelLeavesTheSequence :=
  fun _ _ _ hi _ h ht => (exec_effect h).pc_eq hi ht

/-- Settles O17. -/
theorem registersOtherThanTheDestinationAreUnchanged : Obligations.RegistersOtherThanTheDestinationAreUnchanged :=
  fun _ _ _ h => ⟨fun _ => (exec_effect h).sameScalar, fun _ => (exec_effect h).sameVector⟩

/-- Settles O18. -/
theorem zeroDestinationDiscardsTheResult : Obligations.ZeroDestinationDiscardsTheResult :=
  fun _ _ _ hd _ h ht => (exec_effect h).eq_of_zero_dest hd ht

end Sys2Proof
end

section
/-! PROOFS. The family Invariant (00_scope.md, 10_state.md, 20_memory.md): every step keeps the parameter bounds, the
lane counts, the memory's canonical form, and whole elements in the banks; the reset state has them. -/

namespace Sys2Proof.Machine

/-! ### Whole elements in the banks (R50, R51) -/

/-- The cells of an element begin at a multiple of its size: a cell of it is numbered from there. -/
theorem elemCell_eq_of_cell {p : Params} {b r c a : Nat} (h1 : elemCell p b r c ≤ a) (h2 : a < elemCell p b r c + 16) :
    elementBytes * (a / elementBytes) = elemCell p b r c := by
  unfold elemCell elementBytes at *
  omega

/-- Storing an element of a bank keeps every element whole and inside the banks. -/
theorem wholeElements_setElem {s : State} (h : WholeElements s) {b r c : Nat} (hb : b < 4) (hr : r < side s.params)
    (hc : c < side s.params) (x : Cplx) : WholeElements (setElem s b r c x) := by
  intro a ha
  rw [lookup_setElem] at ha
  rw [setElem_params]
  by_cases hin : elemCell s.params b r c ≤ a ∧ a < elemCell s.params b r c + 16
  · have hend := elemCell_end hb hr hc
    refine ⟨by omega, fun j hj => ?_⟩
    rw [elemCell_eq_of_cell hin.1 hin.2, lookup_setElem, if_pos (by unfold elementBytes at hj; omega)]
    rfl
  · rw [if_neg hin] at ha
    obtain ⟨hend, hall⟩ := h a ha
    refine ⟨hend, fun j hj => ?_⟩
    rw [lookup_setElem]
    split
    · rfl
    · exact hall j hj

theorem wholeElements_setElems {s : State} (h : WholeElements s) {b n : Nat} {e : Nat → Nat × Nat} (t : Nat → Cplx)
    (hb : b < 4) (he : ∀ k, k < n → inBounds s.params (e k).1 (e k).2 = true) :
    WholeElements (setElems s b e t n) := by
  induction n with
  | zero => exact h
  | succ n ih =>
    obtain ⟨hr, hc⟩ := lt_of_inBounds (he n (by omega))
    exact wholeElements_setElem (ih fun k hk => he k (by omega)) hb (by simpa using hr) (by simpa using hc) _

/-! ### The invariant under the updates of the state -/

/-- States with the same parameters, vector registers and memory satisfy the invariant together. -/
theorem Inv.congr {s t : State} (h : Inv s) (hp : t.params = s.params) (hv : t.vregs = s.vregs) (hm : t.mem = s.mem) :
    Inv t where
  params := hp ▸ h.params
  lanes := by rw [hp, hv]; exact h.lanes
  mem := hm ▸ h.mem
  whole := by unfold WholeElements; rw [hp, hm]; exact h.whole

theorem Inv.setLanes {s : State} (h : Inv s) (d : VReg) (f : Nat → Reg) : Inv (setLanes s d f) where
  params := h.params
  lanes := setLanes_length h.lanes d f
  mem := h.mem
  whole := h.whole

theorem Inv.nextPc {s : State} (h : Inv s) : Inv (nextPc s) := h.congr rfl rfl rfl

/-- Storing elements of a bank keeps the invariant. -/
theorem Inv.setElems {s : State} (h : Inv s) {b n : Nat} {e : Nat → Nat × Nat} (t : Nat → Cplx) (hb : b < 4)
    (he : ∀ k, k < n → inBounds s.params (e k).1 (e k).2 = true) : Inv (setElems s b e t n) where
  params := by simpa using h.params
  lanes := by simpa using h.lanes
  mem := setElems_wf h.mem ..
  whole := wholeElements_setElems h.whole t hb he

/-- Every effect of an instruction keeps the invariant. -/
theorem Inv.effect {i : Instr} {s t : State} (h : Inv s) (he : Effect i s t) : Inv t := by
  cases he with
  | lanes | lane | load => exact (h.setLanes _ _).nextPc
  | store r m rc x l f _ hm hin => exact (h.setElems f (lt_of_bankOk hm) hin).nextPc
  | storeOne r m x y _ hm hin =>
    exact (h.setElems (n := 1) (e := fun _ => (y.toNat, x.toNat)) (fun _ => sVal s r) (lt_of_bankOk hm)
      fun _ _ => hin).nextPc
  | scalar | jump | fall | fault => exact h.congr rfl rfl rfl

end Sys2Proof.Machine

namespace Sys2Proof

open Machine

/-- Settles O19: every effect of an instruction keeps the invariant, and a fault of the fetch writes the record only. -/
theorem invariantIsKeptByEveryStep : Obligations.InvariantIsKeptByEveryStep := by
  intro s t hs h
  obtain ⟨-, ⟨i, hi⟩ | ⟨c, -, rfl⟩⟩ := step_eq_next h
  · exact hs.effect (exec_effect hi)
  · exact hs.congr rfl rfl rfl

/-- Settles O20: at reset every vector register has its lanes and the memory lists nothing. -/
theorem invariantHoldsAtReset : Obligations.InvariantHoldsAtReset where
  params := by decide
  lanes := by decide
  mem := Memory.wf_reset
  whole := fun _ h => by cases h

end Sys2Proof
end

section
/-! PROOFS. The family S-type (47_s_matrix.md, 20_memory.md): each of the four instructions, check by check in the
order of R303, and with every check passed what it answers; then what a load brings back after a store. -/

namespace Sys2Proof.Machine

/-! ### Element accesses (R276 to R278) -/

theorem memRead_outOfBounds {s : State} {b r c : Nat} (h : inBounds s.params r c = false) :
    memRead s b r c = .error (.outOfBounds b r c) := by
  simp [memRead, h]

section Element

variable {s : State} {m : BitVec 3} {x y : BitVec 16}

theorem sldXy_ok {rd : SReg} (hm : bankOk m = true) (hi : inBounds s.params y.toNat x.toNat = true)
    (h : ElemReadable s m.toNat y.toNat x.toNat) :
    exec (.sldXy rd m x y) s = .next (nextPc (writeS s rd (elemVal s m.toNat y.toNat x.toNat))) := by
  simp [exec, execSldXy, bankOf_ok hm, memRead_ok hi h]

theorem sldXy_outOfBounds {rd : SReg} (hm : bankOk m = true) (hi : inBounds s.params y.toNat x.toNat = false) :
    TakesFault (.sldXy rd m x y) s (.outOfBounds m.toNat y.toNat x.toNat) := by
  simp [TakesFault, exec, execSldXy, bankOf_ok hm, memRead_outOfBounds hi]

theorem sldXy_empty {rd : SReg} (hm : bankOk m = true) (hi : inBounds s.params y.toNat x.toNat = true)
    (h : elemValued s m.toNat y.toNat x.toNat = false) :
    TakesFault (.sldXy rd m x y) s (.uninitializedRead (.element m.toNat y.toNat x.toNat)) := by
  simp [TakesFault, exec, execSldXy, bankOf_ok hm, memRead_error hi h]

theorem sstXy_ok {rs : SReg} (hm : bankOk m = true) (hi : inBounds s.params y.toNat x.toNat = true)
    (h : SReadable s rs) :
    exec (.sstXy rs m x y) s = .next (nextPc (setElem s m.toNat y.toNat x.toNat (sVal s rs))) := by
  simp [exec, execSstXy, bankOf_ok hm, hi, readS_ok h, memWrite]

theorem sstXy_outOfBounds {rs : SReg} (hm : bankOk m = true) (hi : inBounds s.params y.toNat x.toNat = false) :
    TakesFault (.sstXy rs m x y) s (.outOfBounds m.toNat y.toNat x.toNat) := by
  simp [TakesFault, exec, execSstXy, bankOf_ok hm, hi]

theorem sstXy_empty {rs : SReg} (hm : bankOk m = true) (hi : inBounds s.params y.toNat x.toNat = true)
    (h : sValued s rs = false) : TakesFault (.sstXy rs m x y) s (.uninitializedRead (.scalar rs)) := by
  simp [TakesFault, exec, execSstXy, bankOf_ok hm, hi, readS_error h]

end Element

/-! ### Vector accesses (R271, R272, R274) -/

/-- The length and the elements of an access, in the model's own functions. -/
theorem IsAccess.eq {p : Params} {rc : Dir} {x l : BitVec 16} {L : Nat} {E : Nat → Nat × Nat}
    (h : IsAccess p rc x l L E) : L = accessLen p l ∧ E = accessElem rc x := by
  obtain ⟨hL, hE⟩ := h
  refine ⟨hL, funext fun k => ?_⟩
  rw [hE k]
  cases rc <;> rfl

/-- A bank with a coordinate in it has a whole vector's worth of them. -/
theorem vlen_le_side {p : Params} {x : Nat} (h : x < side p) : p.vlen ≤ side p := by
  unfold side at *
  exact Nat.le_mul_of_pos_left _ (Nat.pos_of_mul_pos_right (by omega : 0 < p.n * p.vlen))

/-- Where the checks of an access pass, all its elements are in bounds. -/
theorem accessElem_inBounds_of_lt {p : Params} {rc : Dir} {x : BitVec 16} {n k : Nat} (hn : n ≤ p.vlen)
    (hx : x.toNat < side p) (hk : k < n) :
    inBounds p (accessElem rc x k).1 (accessElem rc x k).2 = true := by
  have := vlen_le_side hx
  cases rc <;> exact inBounds_of_lt (by simp only [accessElem]; omega) (by simp only [accessElem]; omega)

theorem checkAccess_tooLong {p : Params} {b : Nat} {rc : Dir} {x l : BitVec 16} (h : p.vlen < accessLen p l) :
    checkAccess p b rc x l = .error (.vectorLengthFault (accessLen p l)) := if_pos h

theorem checkAccess_outOfBounds {p : Params} {b : Nat} {rc : Dir} {x l : BitVec 16} (hl : accessLen p l ≤ p.vlen)
    (hx : side p ≤ x.toNat) :
    checkAccess p b rc x l = .error (.outOfBounds b (accessElem rc x 0).1 (accessElem rc x 0).2) := by
  rw [checkAccess, if_neg (by omega), if_pos hx]

section Access

variable {s : State} {r : VReg} {m : BitVec 3} {rc : Dir} {x l : BitVec 16}

theorem vld_illFormed (hm : bankOk m = false) :
    TakesFault (.vld r m rc x l) s (.illegalInstruction (encode (.vld r m rc x l))) := by
  simp [TakesFault, exec, execVld, bankOf_error hm]

theorem vst_illFormed (hm : bankOk m = false) :
    TakesFault (.vst r m rc x l) s (.illegalInstruction (encode (.vst r m rc x l))) := by
  simp [TakesFault, exec, execVst, bankOf_error hm]

/-- The faults of the field checks are those of both accesses. -/
theorem access_of_checkAccess_error {c : FaultCause} (hm : bankOk m = true)
    (h : checkAccess s.params m.toNat rc x l = .error c) :
    TakesFault (.vld r m rc x l) s c ∧ TakesFault (.vst r m rc x l) s c := by
  constructor
  · simp [TakesFault, exec, execVld, bankOf_ok hm, h]
  · simp [TakesFault, exec, execVst, bankOf_ok hm, h]

section Checked

variable (hm : bankOk m = true) (hl : accessLen s.params l ≤ s.params.vlen) (hx : x.toNat < side s.params)
include hm hl hx

theorem vld_ok (h : ∀ k, k < accessLen s.params l →
      ElemReadable s m.toNat (accessElem rc x k).1 (accessElem rc x k).2) :
    exec (.vld r m rc x l) s = .next (nextPc (writePrefix s r (accessLen s.params l) fun k =>
      elemVal s m.toNat (accessElem rc x k).1 (accessElem rc x k).2)) := by
  have hread := memReadSeq_ok fun k hk => ⟨accessElem_inBounds_of_lt hl hx hk, h k hk⟩
  simp [exec, execVld, bankOf_ok hm, checkAccess_ok hl hx, hread]

theorem vst_ok (h : LanesReadable s r (accessLen s.params l)) :
    exec (.vst r m rc x l) s = .next (nextPc
      (setElems s m.toNat (accessElem rc x) (laneVal s r) (accessLen s.params l))) := by
  have hwrite := memWriteSeq_ok (s := s) (b := m.toNat) (laneVal s r) fun k hk =>
    accessElem_inBounds_of_lt (rc := rc) hl hx hk
  simp [exec, execVst, bankOf_ok hm, checkAccess_ok hl hx, readLanes_ok h, hwrite]

theorem vld_empty {k : Nat} (hk : k < accessLen s.params l)
    (h : elemValued s m.toNat (accessElem rc x k).1 (accessElem rc x k).2 = false)
    (hj : ∀ j, j < k → ElemReadable s m.toNat (accessElem rc x j).1 (accessElem rc x j).2) :
    TakesFault (.vld r m rc x l) s
      (.uninitializedRead (.element m.toNat (accessElem rc x k).1 (accessElem rc x k).2)) := by
  have hread := memReadSeq_error (fun j hj => accessElem_inBounds_of_lt hl hx hj) hk h hj
  simp [TakesFault, exec, execVld, bankOf_ok hm, checkAccess_ok hl hx, hread]

theorem vst_empty {k : Nat} (hk : k < accessLen s.params l) (h : laneValued s r k = false)
    (hj : LanesReadable s r k) : TakesFault (.vst r m rc x l) s (.uninitializedRead (.lane r k)) := by
  simp [TakesFault, exec, execVst, bankOf_ok hm, checkAccess_ok hl hx, readLanes_error hk h hj]

end Checked

/-- After a store every element of the access holds the lane stored into it. -/
theorem elemAt_setElems_access {k : Nat} {t : Nat → Cplx} (hl : accessLen s.params l ≤ s.params.vlen)
    (hx : x.toNat < side s.params) (hk : k < accessLen s.params l) :
    elemAt (setElems s m.toNat (accessElem rc x) t (accessLen s.params l)) m.toNat
      (accessElem rc x k).1 (accessElem rc x k).2 = some (t k) :=
  elemAt_setElems (fun _ hj => lt_of_inBounds (accessElem_inBounds_of_lt hl hx hj))
    (fun _ _ _ _ => accessElem_injective) hk

end Access

/-! ### What a load writes (R272) -/

theorem laneAt_writePrefix {s : State} {rd : VReg} {n k : Nat} {f : Nat → Cplx} (hk : k < n) (hn : n ≤ s.params.vlen) :
    laneAt (writePrefix s rd n f) rd k = some (if rd = 0 then Cplx.zero else f k) := by
  rw [writePrefix, laneAt_setLanes (by omega), if_pos hk]
  split <;> rfl

/-- The lanes from the length on lose their value. -/
theorem laneAt_writePrefix_of_le {s : State} {rd : VReg} {n k : Nat} {f : Nat → Cplx} (hk : n ≤ k)
    (hv : k < s.params.vlen) (hd : rd ≠ 0) : laneAt (writePrefix s rd n f) rd k = none := by
  rw [writePrefix, laneAt_setLanes hv, if_neg hd, if_neg (by omega)]

theorem elemVal_of_elemAt {s : State} {b r c : Nat} {x : Cplx} (h : elemAt s b r c = some x) : elemVal s b r c = x := by
  simp [elemVal, h]

theorem elemReadable_of_elemAt {s : State} {b r c : Nat} {x : Cplx} (h : elemAt s b r c = some x) :
    ElemReadable s b r c := by
  simp [ElemReadable, elemValued, h]

end Sys2Proof.Machine

namespace Sys2Proof

open Machine

/-- Settles O52: bounds first, then the element's value. -/
theorem sldXyResult : Obligations.SldXyResult := fun _ _ _ _ _ hm =>
  ⟨fun hy hx h => completesScalar_of (sldXy_ok (bankOk_of_lt hm) (inBounds_of_lt hy hx) h),
    fun h => sldXy_outOfBounds (bankOk_of_lt hm) (inBounds_of_le h),
    fun hy hx h => sldXy_empty (bankOk_of_lt hm) (inBounds_of_lt hy hx) h⟩

/-- Settles O53: bounds first, then the register; the one element written is sixteen bytes. -/
theorem sstXyResult : Obligations.SstXyResult := by
  refine fun s rs m x y hm => ⟨fun hy hx h => ?_, fun h => sstXy_outOfBounds (bankOk_of_lt hm) (inBounds_of_le h),
    fun hy hx h => sstXy_empty (bankOk_of_lt hm) (inBounds_of_lt hy hx) h⟩
  refine ⟨_, sstXy_ok (bankOk_of_lt hm) (inBounds_of_lt hy hx) h, by simp, ?_, fun a ha => ?_,
    sameScalar_of_sregs (by simp), sameVector_of_vregs (by simp), ⟨by simp, by simp, by simp⟩⟩
  · rw [elemAt_nextPc, elemAt_setElem]
  · rw [nextPc_mem, lookup_setElem, if_neg (by omega)]

/-- Settles O54: with its checks passed `vld` writes a prefix of the lanes, and takes the value of the others away. -/
theorem vldResult : Obligations.VldResult := by
  intro s rd m rc x l L E hA _ hm hL hx h
  obtain ⟨rfl, rfl⟩ := hA.eq
  exact ⟨_, vld_ok (bankOk_of_lt hm) hL hx h, rfl, fun k hk => laneAt_writePrefix hk hL,
    fun k => laneAt_writePrefix_of_le, fun r hr => sameVector_setLanes hr, sameScalar_of_sregs rfl, fun _ => rfl,
    rfl, rfl, rfl⟩

/-- Settles O55: with its checks passed `vst` writes the elements of the access and no other byte. -/
theorem vstResult : Obligations.VstResult := by
  intro s rs m rc x l L E hA _ hm hL hx h
  obtain ⟨rfl, rfl⟩ := hA.eq
  refine ⟨_, vst_ok (bankOk_of_lt hm) hL hx h, by simp, fun k hk => ?_, fun a ha => ?_,
    sameScalar_of_sregs (by simp), sameVector_of_vregs (by simp), ⟨by simp, by simp, by simp⟩⟩
  · exact elemAt_setElems_access hL hx hk
  · exact lookup_setElems_of_outside ha

/-- Settles O56: one lemma for each check, in the order of R303. -/
theorem vectorAccessFaults : Obligations.VectorAccessFaults := by
  intro s r m rc x l L E hA
  obtain ⟨rfl, rfl⟩ := hA.eq
  refine ⟨fun hm => ?_, fun hm hL => ?_, fun hm hL hx => ?_, fun _ hm hL hx k hk => ⟨fun h hj => ?_, fun h hj => ?_⟩⟩
  · have hbank : bankOk m = false := by simpa [bankOk] using hm
    exact ⟨vld_illFormed hbank, vst_illFormed hbank⟩
  · exact access_of_checkAccess_error (bankOk_of_lt hm) (checkAccess_tooLong hL)
  · exact access_of_checkAccess_error (bankOk_of_lt hm) (checkAccess_outOfBounds hL hx)
  · exact vld_empty (bankOk_of_lt hm) hL hx hk h hj
  · exact vst_empty (bankOk_of_lt hm) hL hx hk h hj

/-- Settles O57: of the effects, an `sst.xy` has the one store and the faults, which write the record only. -/
theorem storeLeavesOtherElementsAlone : Obligations.StoreLeavesOtherElementsAlone := by
  intro s t rs m x y b r c h hr hc hne
  cases exec_effect h with
  | storeOne r' m' x' y' e hm hin =>
    cases e
    obtain ⟨hy, hx⟩ := lt_of_inBounds hin
    rw [elemAt_nextPc, elemAt_setElem_of_ne hr hc hy hx hne]
  | fault => rfl
  | scalar d c hd => cases hd
  | lanes d f hd => cases hd
  | lane d a x c hi | load d m rc x l f hi | store r m rc x l f hi | jump off hi | fall off hi => cases hi

/-- Settles O58: the load passes the checks the store passed, and the elements it reads hold what was stored. -/
theorem loadSeesTheLatestStore : Obligations.LoadSeesTheLatestStore := by
  constructor
  · intro s rs rd m x y hm hy hx h
    have hi : inBounds s.params y.toNat x.toNat = true := inBounds_of_lt hy hx
    have he : elemAt (nextPc (setElem s m.toNat y.toNat x.toNat (sVal s rs))) m.toNat y.toNat x.toNat =
        some (sVal s rs) := by rw [elemAt_nextPc, elemAt_setElem]
    refine ⟨_, _, sstXy_ok (bankOk_of_lt hm) hi h,
      sldXy_ok (bankOk_of_lt hm) (by simpa using hi) (elemReadable_of_elemAt he), by simp, ?_⟩
    rw [sAt_nextPc, sAt_writeS, if_pos rfl, elemVal_of_elemAt he]
  · intro s rs rd m rc x l L E hA _ hm hL hx h
    obtain ⟨rfl, rfl⟩ := hA.eq
    have he {k : Nat} (hk : k < accessLen s.params l) :
        elemAt (nextPc (setElems s m.toNat (accessElem rc x) (laneVal s rs) (accessLen s.params l))) m.toNat
          (accessElem rc x k).1 (accessElem rc x k).2 = some (laneVal s rs k) := by
      rw [elemAt_nextPc, elemAt_setElems_access hL hx hk]
    have hload := vld_ok (r := rd) (s := nextPc (setElems s m.toNat (accessElem rc x) (laneVal s rs) (accessLen s.params l)))
      (bankOk_of_lt hm) (l := l) (x := x) (rc := rc)
    simp only [nextPc_params, setElems_params] at hload
    refine ⟨_, _, vst_ok (bankOk_of_lt hm) hL hx h, hload hL hx fun k hk => elemReadable_of_elemAt (he hk), by simp,
      fun k hk => ?_⟩
    rw [laneAt_nextPc, laneAt_writePrefix hk (by simpa using hL), elemVal_of_elemAt (he hk)]

end Sys2Proof
end

section
/-! PROOFS. The family Register form: an instruction that does not reach the banks reads its sources in their order,
then does one write computed from what it read and the parameters (R151, R180, R200, R220, R240, R261). What holds of
all such instructions is proved from this form: the fault of the first unreadable place (R303), and that places
without a value, the banks and `BANK_LAYOUT` have no part in them (R29, R58, R59). -/

namespace Sys2Proof.Machine

/-! ### Reading sources -/

/-- What reading a source yields: a value, or a value per lane. -/
inductive Operand where
  | scalar (c : Cplx)
  | vector (f : Nat → Cplx)

/-- The lanes below `n`. Past them there is nothing to read; zero stands there. -/
def lanesBelow (n : Nat) (f : Nat → Cplx) (k : Nat) : Cplx := if k < n then f k else Cplx.zero

theorem lanesBelow_of_lt {n k : Nat} (f : Nat → Cplx) (h : k < n) : lanesBelow n f k = f k := if_pos h

/-- Reads all of a source (R11). -/
def readSource (s : State) : Source → Res Operand
  | .scalar r => do
    let c ← readS s r
    .ok (.scalar c)
  | .vector r => do
    let f ← readV s r
    .ok (.vector (lanesBelow s.params.vlen f))

/-- Reads sources in their order. -/
def readSources (s : State) : List Source → Res (List Operand)
  | [] => .ok []
  | q :: qs => do
    let v ← readSource s q
    let vs ← readSources s qs
    .ok (v :: vs)

/-- The `k`-th operand read, where it is a scalar. -/
def scalarArg (vs : List Operand) (k : Nat) : Cplx :=
  match vs[k]? with
  | some (.scalar c) => c
  | _ => Cplx.zero

/-- The `k`-th operand read, where it is a vector. -/
def vectorArg (vs : List Operand) (k : Nat) : Nat → Cplx :=
  match vs[k]? with
  | some (.vector f) => f
  | _ => fun _ => Cplx.zero

@[simp] theorem scalarArg_zero (c : Cplx) (vs : List Operand) : scalarArg (.scalar c :: vs) 0 = c := rfl
@[simp] theorem vectorArg_zero (f : Nat → Cplx) (vs : List Operand) : vectorArg (.vector f :: vs) 0 = f := rfl
@[simp] theorem scalarArg_succ (v : Operand) (vs : List Operand) (k : Nat) :
    scalarArg (v :: vs) (k + 1) = scalarArg vs k := rfl
@[simp] theorem vectorArg_succ (v : Operand) (vs : List Operand) (k : Nat) :
    vectorArg (v :: vs) (k + 1) = vectorArg vs k := rfl

/-- The one write of an instruction that does not reach the banks. -/
inductive Write where
  | scalar (d : SReg) (c : Cplx)
  | vector (d : VReg) (f : Nat → Cplx)
  | lane (d : VReg) (i : Nat) (c : Cplx)
  | jump (off : Int)

/-- The state after the write and the move of the pc. -/
def Write.apply (s : State) : Write → State
  | .scalar d c => nextPc (writeS s d c)
  | .vector d f => nextPc (writeV s d f)
  | .lane d i c => nextPc (writeLane s d i c)
  | .jump off => jumpBy off s

/-- The instruction checks a field of its word, reads its sources in their order, and does the write `F` computes from
the parameters and what was read; `BANK_LAYOUT` has no part in it. -/
structure RegisterForm (i : Instr) (check : Params → Res Unit) (F : Params → List Operand → Write) : Prop where
  exec_eq : ∀ s, exec i s = commit s do
    check s.params
    let vs ← readSources s (sources i)
    .ok ((F s.params vs).apply s)
  check_layout : ∀ p l, check { p with layout := l } = check p
  layout : ∀ p l vs, F { p with layout := l } vs = F p vs

/-- Moving on is a jump by one word (R27). -/
theorem nextPc_eq_jumpBy (s : State) : nextPc s = jumpBy 1 s := rfl

/-- There is nothing to check in the word. -/
def noCheck (_ : Params) : Res Unit := .ok ()

/-! ### Every shape is a register form -/

/-- A vector written is what its lanes below `VLEN` are. -/
theorem writeV_congr {s : State} {f g : Nat → Cplx} (d : VReg) (h : ∀ k, k < s.params.vlen → f k = g k) :
    writeV s d f = writeV s d g := by
  have e : (List.range s.params.vlen).map (fun k => some (f k)) =
      (List.range s.params.vlen).map fun k => some (g k) :=
    List.map_congr_left fun k hk => by rw [h k (List.mem_range.1 hk)]
  simp only [writeV, setLanes, e]

section Shapes

variable {i : Instr}

theorem RegisterForm.of_scalarUnary {f : Params → Cplx → Cplx} {rd rs1 : SReg}
    (h : ∀ s, exec i s = scalarUnary f rd rs1 s) (hs : sources i = [.scalar rs1])
    (hl : ∀ p l a, f { p with layout := l } a = f p a) :
    RegisterForm i noCheck fun p vs => .scalar rd (f p (scalarArg vs 0)) where
  exec_eq s := by
    cases e : readS s rs1 <;> simp [h, hs, scalarUnary, readSources, readSource, noCheck, Write.apply, e]
  check_layout _ _ := rfl
  layout p l vs := by simp only [hl]

theorem RegisterForm.of_scalarBinary {f : Params → Cplx → Cplx → Cplx} {rd rs1 rs2 : SReg}
    (h : ∀ s, exec i s = scalarBinary f rd rs1 rs2 s) (hs : sources i = [.scalar rs1, .scalar rs2])
    (hl : ∀ p l a b, f { p with layout := l } a b = f p a b) :
    RegisterForm i noCheck fun p vs => .scalar rd (f p (scalarArg vs 0) (scalarArg vs 1)) where
  exec_eq s := by
    cases e : readS s rs1 <;> cases e' : readS s rs2 <;>
      simp [h, hs, scalarBinary, readSources, readSource, noCheck, Write.apply, e, e']
  check_layout _ _ := rfl
  layout p l vs := by simp only [hl]

theorem RegisterForm.of_laneUnary {f : Params → Cplx → Cplx} {rd rs1 : VReg}
    (h : ∀ s, exec i s = laneUnary f rd rs1 s) (hs : sources i = [.vector rs1])
    (hl : ∀ p l a, f { p with layout := l } a = f p a) :
    RegisterForm i noCheck fun p vs => .vector rd fun k => f p (vectorArg vs 0 k) where
  exec_eq s := by
    cases e : readV s rs1 <;> simp [h, hs, laneUnary, readSources, readSource, noCheck, Write.apply, e]
    exact congrArg nextPc (writeV_congr rd fun k hk => by rw [lanesBelow_of_lt _ hk])
  check_layout _ _ := rfl
  layout p l vs := by simp only [hl]

theorem RegisterForm.of_laneBinary {f : Params → Cplx → Cplx → Cplx} {rd rs1 rs2 : VReg}
    (h : ∀ s, exec i s = laneBinary f rd rs1 rs2 s) (hs : sources i = [.vector rs1, .vector rs2])
    (hl : ∀ p l a b, f { p with layout := l } a b = f p a b) :
    RegisterForm i noCheck fun p vs => .vector rd fun k => f p (vectorArg vs 0 k) (vectorArg vs 1 k) where
  exec_eq s := by
    cases e : readV s rs1 <;> cases e' : readV s rs2 <;>
      simp [h, hs, laneBinary, readSources, readSource, noCheck, Write.apply, e, e']
    exact congrArg nextPc (writeV_congr rd fun k hk => by simp only [lanesBelow_of_lt _ hk])
  check_layout _ _ := rfl
  layout p l vs := by simp only [hl]

theorem RegisterForm.of_laneTernary {f : Cplx → Cplx → Cplx → Cplx} {rd rs1 rs2 : VReg}
    (h : ∀ s, exec i s = laneTernary f rd rs1 rs2 s) (hs : sources i = [.vector rs1, .vector rs2, .vector rd]) :
    RegisterForm i noCheck fun _ vs =>
      .vector rd fun k => f (vectorArg vs 2 k) (vectorArg vs 0 k) (vectorArg vs 1 k) where
  exec_eq s := by
    cases e : readV s rs1 <;> cases e' : readV s rs2 <;> cases e'' : readV s rd <;>
      simp [h, hs, laneTernary, readSources, readSource, noCheck, Write.apply, e, e', e'']
    exact congrArg nextPc (writeV_congr rd fun k hk => by simp only [lanesBelow_of_lt _ hk])
  check_layout _ _ := rfl
  layout _ _ _ := rfl

theorem RegisterForm.of_broadcast {f : Params → Cplx → Cplx → Cplx} {rd rs1 : VReg} {rs2 : SReg}
    (h : ∀ s, exec i s = broadcast f rd rs1 rs2 s) (hs : sources i = [.vector rs1, .scalar rs2])
    (hl : ∀ p l a b, f { p with layout := l } a b = f p a b) :
    RegisterForm i noCheck fun p vs => .vector rd fun k => f p (vectorArg vs 0 k) (scalarArg vs 1) where
  exec_eq s := by
    cases e : readV s rs1 <;> cases e' : readS s rs2 <;>
      simp [h, hs, broadcast, readSources, readSource, noCheck, Write.apply, e, e']
    exact congrArg nextPc (writeV_congr rd fun k hk => by rw [lanesBelow_of_lt _ hk])
  check_layout _ _ := rfl
  layout p l vs := by simp only [hl]

theorem RegisterForm.of_reduceUnary {f : Params → (Nat → Cplx) → Cplx} {rd : SReg} {rs1 : VReg}
    (h : ∀ s, exec i s = reduceUnary f rd rs1 s) (hs : sources i = [.vector rs1])
    (hl : ∀ p l a, f { p with layout := l } a = f p a) (hf : ∀ p a, f p (lanesBelow p.vlen a) = f p a) :
    RegisterForm i noCheck fun p vs => .scalar rd (f p (vectorArg vs 0)) where
  exec_eq s := by
    cases e : readV s rs1 <;> simp [h, hs, reduceUnary, readSources, readSource, noCheck, Write.apply, e, hf]
  check_layout _ _ := rfl
  layout p l vs := by simp only [hl]

theorem RegisterForm.of_reduceBinary {f : Params → (Nat → Cplx) → (Nat → Cplx) → Cplx} {rd : SReg} {rs1 rs2 : VReg}
    (h : ∀ s, exec i s = reduceBinary f rd rs1 rs2 s) (hs : sources i = [.vector rs1, .vector rs2])
    (hl : ∀ p l a b, f { p with layout := l } a b = f p a b)
    (hf : ∀ p a b, f p (lanesBelow p.vlen a) (lanesBelow p.vlen b) = f p a b) :
    RegisterForm i noCheck fun p vs => .scalar rd (f p (vectorArg vs 0) (vectorArg vs 1)) where
  exec_eq s := by
    cases e : readV s rs1 <;> cases e' : readV s rs2 <;>
      simp [h, hs, reduceBinary, readSources, readSource, noCheck, Write.apply, e, e', hf]
  check_layout _ _ := rfl
  layout p l vs := by simp only [hl]

end Shapes

theorem RegisterForm.of_cloadi (rd : SReg) (re45 im45 : BitVec 45) :
    RegisterForm (.cloadi rd re45 im45) noCheck fun _ _ => .scalar rd (imm re45 im45) where
  exec_eq _ := rfl
  check_layout _ _ := rfl
  layout _ _ _ := rfl

theorem RegisterForm.of_jrel (off : BitVec 33) :
    RegisterForm (.jrel off) noCheck fun _ vs =>
      .jump (if predicateHolds (scalarArg vs 0) then off.toInt else 1) where
  exec_eq s := by
    cases e : readS s 1 with
    | error c => simp [exec, execJrel, sources, readSources, readSource, noCheck, e]
    | ok a =>
      cases hp : predicateHolds a <;>
        simp [exec, execJrel, sources, readSources, readSource, noCheck, Write.apply, e, hp, nextPc_eq_jumpBy]
  check_layout _ _ := rfl
  layout _ _ _ := rfl

/-- The check of `vsload` (R226). -/
def laneCheck (k : BitVec 16) (p : Params) : Res Unit :=
  if p.vlen ≤ k.toNat then .error (.laneIndexFault k.toNat) else .ok ()

theorem RegisterForm.of_vsload (rd : VReg) (rs2 : SReg) (k : BitVec 16) :
    RegisterForm (.vsload rd rs2 k) (laneCheck k) fun _ vs => .lane rd k.toNat (scalarArg vs 0) where
  exec_eq s := by
    by_cases hk : s.params.vlen ≤ k.toNat <;> cases e : readS s rs2 <;>
      simp [exec, execVsload, laneCheck, sources, readSources, readSource, Write.apply, hk, e]
  check_layout _ _ := rfl
  layout _ _ _ := rfl

/-! ### A reduction depends on the lanes only (R136, R200) -/

theorem sumTo_congr {f g : Nat → Int} {n : Nat} (h : ∀ k, k < n → f k = g k) : sumTo f n = sumTo g n := by
  rw [sumTo_eq_sum, sumTo_eq_sum]
  exact Finset.sum_congr rfl fun k hk => h k (Finset.mem_range.1 hk)

theorem xsum_congr {f g : Nat → Exact} {n : Nat} (h : ∀ k, k < n → f k = g k) : xsum f n = xsum g n := by
  rw [xsum, xsum, sumTo_congr fun k hk => congrArg Exact.re (h k hk), sumTo_congr fun k hk => congrArg Exact.im (h k hk)]

/-- The greatest lane is one of the lanes. -/
theorem argmax_lt (f : Nat → Int) {n : Nat} (hn : 0 < n) : argmax f n < n := by
  obtain ⟨m, rfl⟩ := Nat.exists_eq_succ_of_ne_zero hn.ne'
  exact (argmax_spec f m).1

theorem argmax_congr {f g : Nat → Int} {n : Nat} (h : ∀ k, k < n → f k = g k) : argmax f n = argmax g n := by
  induction n with
  | zero => rfl
  | succ n ih =>
    have e := ih fun k hk => h k (by omega)
    have hle : argmax g n ≤ n := by
      obtain rfl | hn := Nat.eq_zero_or_pos n
      · exact le_rfl
      · exact (argmax_lt g hn).le
    rw [argmax, argmax, e, h _ (by omega), h n (by omega)]

theorem dotcResult_lanesBelow (p : Params) (a b : Nat → Cplx) :
    dotcResult p (lanesBelow p.vlen a) (lanesBelow p.vlen b) = dotcResult p a b := by
  rw [dotcResult, dotcResult, xsum_congr fun k hk => by rw [lanesBelow_of_lt a hk, lanesBelow_of_lt b hk]]

theorem dotuResult_lanesBelow (p : Params) (a b : Nat → Cplx) :
    dotuResult p (lanesBelow p.vlen a) (lanesBelow p.vlen b) = dotuResult p a b := by
  rw [dotuResult, dotuResult, xsum_congr fun k hk => by rw [lanesBelow_of_lt a hk, lanesBelow_of_lt b hk]]

theorem iamaxResult_lanesBelow (p : Params) (a : Nat → Cplx) :
    iamaxResult p (lanesBelow p.vlen a) = iamaxResult p a := by
  rw [iamaxResult, iamaxResult, argmax_congr fun k hk => by rw [lanesBelow_of_lt a hk]]

theorem sumResult_lanesBelow (p : Params) (a : Nat → Cplx) : sumResult p (lanesBelow p.vlen a) = sumResult p a := by
  rw [sumResult, sumResult, xsum_congr fun k hk => by rw [lanesBelow_of_lt a hk]]

theorem asumResult_lanesBelow (p : Params) (a : Nat → Cplx) :
    asumResult p (lanesBelow p.vlen a) = asumResult p a := by
  rw [asumResult, asumResult, sumTo_congr fun k hk => by rw [lanesBelow_of_lt a hk]]

/-! ### Every instruction that does not reach the banks is a register form -/

/-- But for `vsload`, without a check. -/
theorem exists_registerForm_noCheck {i : Instr} (hb : reachesBanks i = false) (hv : ∀ d a k, i ≠ .vsload d a k) :
    ∃ F, RegisterForm i noCheck F := by
  cases i with
  | cneg => exact ⟨_, .of_scalarUnary (f := fun _ => cneg) (fun _ => rfl) rfl fun _ _ _ => rfl⟩
  | conj => exact ⟨_, .of_scalarUnary (f := fun _ => conj) (fun _ => rfl) rfl fun _ _ _ => rfl⟩
  | csqrt => exact ⟨_, .of_scalarUnary (f := csqrtFn) (fun _ => rfl) rfl fun _ _ _ => rfl⟩
  | cabs2 => exact ⟨_, .of_scalarUnary (f := fun _ => cabs2) (fun _ => rfl) rfl fun _ _ _ => rfl⟩
  | cabs => exact ⟨_, .of_scalarUnary (f := cabs) (fun _ => rfl) rfl fun _ _ _ => rfl⟩
  | creal => exact ⟨_, .of_scalarUnary (f := fun _ => creal) (fun _ => rfl) rfl fun _ _ _ => rfl⟩
  | cimag => exact ⟨_, .of_scalarUnary (f := fun _ => cimag) (fun _ => rfl) rfl fun _ _ _ => rfl⟩
  | crecip => exact ⟨_, .of_scalarUnary (f := fun p a => cdivFn p cone a) (fun _ => rfl) rfl fun _ _ _ => rfl⟩
  | cadd => exact ⟨_, .of_scalarBinary (f := fun _ => cadd) (fun _ => rfl) rfl fun _ _ _ _ => rfl⟩
  | csub => exact ⟨_, .of_scalarBinary (f := fun _ => csub) (fun _ => rfl) rfl fun _ _ _ _ => rfl⟩
  | cmul => exact ⟨_, .of_scalarBinary (f := fun _ => cmul) (fun _ => rfl) rfl fun _ _ _ _ => rfl⟩
  | cdiv => exact ⟨_, .of_scalarBinary (f := cdivFn) (fun _ => rfl) rfl fun _ _ _ _ => rfl⟩
  | cmaxabs => exact ⟨_, .of_scalarBinary (f := fun _ => cmaxabs) (fun _ => rfl) rfl fun _ _ _ _ => rfl⟩
  | cminabs => exact ⟨_, .of_scalarBinary (f := fun _ => cminabs) (fun _ => rfl) rfl fun _ _ _ _ => rfl⟩
  | cmpltRe => exact ⟨_, .of_scalarBinary (f := cmplt) (fun _ => rfl) rfl fun _ _ _ _ => rfl⟩
  | cmpgtRe => exact ⟨_, .of_scalarBinary (f := cmpgt) (fun _ => rfl) rfl fun _ _ _ _ => rfl⟩
  | cmpleRe => exact ⟨_, .of_scalarBinary (f := cmple) (fun _ => rfl) rfl fun _ _ _ _ => rfl⟩
  | vadd => exact ⟨_, .of_laneBinary (f := fun _ => caddSat) (fun _ => rfl) rfl fun _ _ _ _ => rfl⟩
  | vsub => exact ⟨_, .of_laneBinary (f := fun _ => csubSat) (fun _ => rfl) rfl fun _ _ _ _ => rfl⟩
  | vmul => exact ⟨_, .of_laneBinary (f := fun _ => cmul) (fun _ => rfl) rfl fun _ _ _ _ => rfl⟩
  | vmac => exact ⟨_, .of_laneTernary (f := cmac) (fun _ => rfl) rfl⟩
  | vdiv => exact ⟨_, .of_laneBinary (f := cdivFn) (fun _ => rfl) rfl fun _ _ _ _ => rfl⟩
  | vconj => exact ⟨_, .of_laneUnary (f := fun _ => conj) (fun _ => rfl) rfl fun _ _ _ => rfl⟩
  | dotc => exact ⟨_, .of_reduceBinary (f := dotcResult) (fun _ => rfl) rfl (fun _ _ _ _ => rfl) dotcResult_lanesBelow⟩
  | dotu => exact ⟨_, .of_reduceBinary (f := dotuResult) (fun _ => rfl) rfl (fun _ _ _ _ => rfl) dotuResult_lanesBelow⟩
  | iamax => exact ⟨_, .of_reduceUnary (f := iamaxResult) (fun _ => rfl) rfl (fun _ _ _ => rfl) iamaxResult_lanesBelow⟩
  | sum => exact ⟨_, .of_reduceUnary (f := sumResult) (fun _ => rfl) rfl (fun _ _ _ => rfl) sumResult_lanesBelow⟩
  | asum => exact ⟨_, .of_reduceUnary (f := asumResult) (fun _ => rfl) rfl (fun _ _ _ => rfl) asumResult_lanesBelow⟩
  | vsadd => exact ⟨_, .of_broadcast (f := fun _ => caddSat) (fun _ => rfl) rfl fun _ _ _ _ => rfl⟩
  | vssub => exact ⟨_, .of_broadcast (f := fun _ => csubSat) (fun _ => rfl) rfl fun _ _ _ _ => rfl⟩
  | vsmul => exact ⟨_, .of_broadcast (f := fun _ => cmul) (fun _ => rfl) rfl fun _ _ _ _ => rfl⟩
  | vsdiv => exact ⟨_, .of_broadcast (f := cdivFn) (fun _ => rfl) rfl fun _ _ _ _ => rfl⟩
  | vsload d a k => exact absurd rfl (hv d a k)
  | cloadi => exact ⟨_, .of_cloadi ..⟩
  | caddI d a re im =>
    exact ⟨_, .of_scalarUnary (f := fun _ x => caddSat x (imm re im)) (fun _ => rfl) rfl fun _ _ _ => rfl⟩
  | cmulI d a re im =>
    exact ⟨_, .of_scalarUnary (f := fun _ x => cmulSat x (imm re im)) (fun _ => rfl) rfl fun _ _ _ => rfl⟩
  | csubI d a re im =>
    exact ⟨_, .of_scalarUnary (f := fun _ x => csubSat x (imm re im)) (fun _ => rfl) rfl fun _ _ _ => rfl⟩
  | cdivI d a re im =>
    exact ⟨_, .of_scalarUnary (f := fun p x => cdivFn p x (imm re im)) (fun _ => rfl) rfl fun _ _ _ => rfl⟩
  | cmaxabsI d a re im =>
    exact ⟨_, .of_scalarUnary (f := fun _ x => cmaxabs x (imm re im)) (fun _ => rfl) rfl fun _ _ _ => rfl⟩
  | cminabsI d a re im =>
    exact ⟨_, .of_scalarUnary (f := fun _ x => cminabs x (imm re im)) (fun _ => rfl) rfl fun _ _ _ => rfl⟩
  | cscaleI d a re =>
    exact ⟨_, .of_scalarUnary (f := fun _ x => cscaleSat x (immHalf re)) (fun _ => rfl) rfl fun _ _ _ => rfl⟩
  | jrel => exact ⟨_, .of_jrel ..⟩
  | vld | vst | sldXy | sstXy => cases hb

theorem exists_registerForm {i : Instr} (hb : reachesBanks i = false) : ∃ check F, RegisterForm i check F := by
  by_cases hv : ∃ d a k, i = .vsload d a k
  · obtain ⟨d, a, k, rfl⟩ := hv
    exact ⟨_, _, .of_vsload d a k⟩
  · exact ⟨_, exists_registerForm_noCheck hb fun d a k e => hv ⟨d, a, k, e⟩⟩

/-! ### The first place that cannot be read (R303) -/

theorem readSource_of_readable {s : State} {q : Source} (h : SourceReadable s q) : ∃ v, readSource s q = .ok v := by
  cases q with
  | scalar r => exact ⟨_, by rw [readSource, readS_ok h, ok_bind]⟩
  | vector r => exact ⟨_, by rw [readSource, readV_ok h, ok_bind]⟩

theorem readSource_of_firstUnreadable {s : State} {q : Source} {p : Place} (h : FirstUnreadable s q p) :
    readSource s q = .error (.uninitializedRead p) := by
  cases q with
  | scalar r =>
    obtain ⟨hr, rfl⟩ := h
    rw [readSource, readS_error hr, error_bind]
  | vector r =>
    obtain ⟨k, hk, rfl⟩ := h
    rw [readSource, readV_error hk, error_bind]

/-- Reading stops at the first source that cannot be read, with its fault. -/
theorem readSources_of_firstUnreadable {s : State} {before after : List Source} {q : Source} {p : Place}
    (hb : ∀ q' ∈ before, SourceReadable s q') (h : FirstUnreadable s q p) :
    readSources s (before ++ q :: after) = .error (.uninitializedRead p) := by
  induction before with
  | nil => rw [List.nil_append, readSources, readSource_of_firstUnreadable h, error_bind]
  | cons q' before ih =>
    obtain ⟨v, hv⟩ := readSource_of_readable (hb q' (by simp))
    rw [List.cons_append, readSources, hv, ok_bind, ih fun q hq => hb q (by simp [hq]), error_bind]

/-! ### Changes of the state that registers do not show (R58, R59) -/

/-- `φ` changes nothing that an instruction reads from registers or parameters, and keeps out of its writes. -/
structure Unseen (φ : State → State) : Prop where
  read : ∀ s q, readSource (φ s) q = readSource s q
  write : ∀ s w, Write.apply (φ s) w = φ (w.apply s)
  params : ∀ s, ∃ l, (φ s).params = { s.params with layout := l }
  fault : ∀ s c, takeFault c (φ s) = .next (φ { s with fault := some ⟨s.pc, c⟩ })

theorem Unseen.readSources {φ : State → State} (hφ : Unseen φ) (s : State) (qs : List Source) :
    readSources (φ s) qs = readSources s qs := by
  induction qs with
  | nil => rfl
  | cons q qs ih => rw [Machine.readSources, Machine.readSources, hφ.read, ih]

/-- An instruction's end commutes with an unseen change. -/
theorem Unseen.commit {φ : State → State} (hφ : Unseen φ) {s t : State} {r : Res State} (h : commit s r = .next t) :
    Machine.commit (φ s) (φ <$> r) = .next (φ t) := by
  cases r with
  | ok u => cases h; rfl
  | error c => cases h; exact hφ.fault s c

/-- So does an instruction in register form. -/
theorem RegisterForm.exec_unseen {i : Instr} {check : Params → Res Unit} {F : Params → List Operand → Write}
    (hf : RegisterForm i check F) {φ : State → State} (hφ : Unseen φ) {s t : State} (h : exec i s = .next t) :
    exec i (φ s) = .next (φ t) := by
  obtain ⟨l, hl⟩ := hφ.params s
  rw [hf.exec_eq] at h
  rw [← hφ.commit h, hf.exec_eq, hl, hf.check_layout, hφ.readSources]
  simp only [hf.layout, hφ.write, map_bind]
  rfl

/-- The state with other contents of the banks. -/
def withMem (m : List Host.Cell) (s : State) : State := { s with mem := m }

theorem unseen_withMem (m : List Host.Cell) : Unseen (withMem m) where
  read _ q := by cases q <;> rfl
  write _ w := by cases w <;> rfl
  params s := ⟨s.params.layout, rfl⟩
  fault _ _ := rfl

theorem unseen_withLayout (l : BankLayout) : Unseen fun s => withLayout s l where
  read _ q := by cases q <;> rfl
  write _ w := by cases w <;> rfl
  params _ := ⟨l, rfl⟩
  fault _ _ := rfl

/-! ### The S-type and `BANK_LAYOUT` (R58) -/

/-- Past the checks of a `vst` no write is out of bounds: it ends with all of them done. -/
theorem exec_vst_eq (r : VReg) (m : BitVec 3) (rc : Dir) (x l : BitVec 16) (s : State) :
    exec (.vst r m rc x l) s = commit s (do
      let b ← bankOf (.vst r m rc x l) m
      let n ← checkAccess s.params b rc x l
      let t ← readLanes s r n
      .ok (nextPc (setElems s b (accessElem rc x) t n))) := by
  cases hm : bankOk m with
  | false => simp [exec, execVst, bankOf_error hm]
  | true =>
    obtain ⟨hl, hx, e⟩ | ⟨-, e⟩ | ⟨-, -, r', c', e⟩ := checkAccess_cases s.params m.toNat rc x l
    · have hwrite (t : Nat → Cplx) := memWriteSeq_ok (s := s) (b := m.toNat) t fun k hk =>
        accessElem_inBounds_of_lt (rc := rc) hl hx hk
      simp [exec, execVst, bankOf_ok hm, e, hwrite]
    · simp [exec, execVst, bankOf_ok hm, e]
    · simp [exec, execVst, bankOf_ok hm, e]

/-- Past its check the write of an `sst.xy` is not out of bounds. -/
theorem exec_sstXy_eq (r : SReg) (m : BitVec 3) (x y : BitVec 16) (s : State) :
    exec (.sstXy r m x y) s = commit s (do
      let b ← bankOf (.sstXy r m x y) m
      if inBounds s.params y.toNat x.toNat then do
        let c ← readS s r
        .ok (nextPc (setElem s b y.toNat x.toNat c))
      else .error (.outOfBounds b y.toNat x.toNat)) := by
  cases hi : inBounds s.params y.toNat x.toNat <;> simp [exec, execSstXy, memWrite, hi]

theorem setElems_withLayout (s : State) (l : BankLayout) (b : Nat) (e : Nat → Nat × Nat) (t : Nat → Cplx) (n : Nat) :
    setElems (withLayout s l) b e t n = withLayout (setElems s b e t n) l := by
  induction n with
  | zero => rfl
  | succ n ih => rw [setElems, ih]; rfl

/-- Whatever the layout, an instruction does the same. -/
theorem exec_withLayout {i : Instr} {s t : State} (l : BankLayout) (h : exec i s = .next t) :
    exec i (withLayout s l) = .next (withLayout t l) := by
  have hφ := unseen_withLayout l
  cases hb : reachesBanks i with
  | false =>
    obtain ⟨check, F, hf⟩ := exists_registerForm hb
    exact hf.exec_unseen hφ h
  | true =>
    cases i with
    | vld r m rc x l' => rw [← hφ.commit h]; simp only [map_bind]; rfl
    | vst r m rc x l' =>
      rw [exec_vst_eq] at h
      rw [← hφ.commit h, exec_vst_eq]
      simp only [map_bind, setElems_withLayout]
      rfl
    | sldXy r m x y => rw [← hφ.commit h]; simp only [map_bind]; rfl
    | sstXy r m x y =>
      rw [exec_sstXy_eq] at h
      rw [← hφ.commit h, exec_sstXy_eq]
      simp only [map_bind, apply_ite (Functor.map _)]
      rfl
    | _ => cases hb

end Sys2Proof.Machine

namespace Sys2Proof

open Machine

/-- Settles O22: reading its sources in order, the instruction stops at the first place it cannot read. -/
theorem firstUnreadablePlaceIsReported : Obligations.FirstUnreadablePlaceIsReported := by
  intro i s before after q p hb hv hs hbefore h
  obtain ⟨F, hf⟩ := exists_registerForm_noCheck hb hv
  rw [TakesFault, hf.exec_eq, hs, readSources_of_firstUnreadable hbefore h]
  rfl

/-- Settles O16: no effect but the S-type's is on the banks, and an instruction in register form does not see them. -/
theorem onlySTypeReachesTheBanks : Obligations.OnlySTypeReachesTheBanks := by
  intro i s t m hb h
  obtain ⟨check, F, hf⟩ := exists_registerForm hb
  exact ⟨(exec_effect h).mem_eq hb, hf.exec_unseen (unseen_withMem m) h⟩

/-- Settles O60: no instruction sees the layout; the host's reads and its image go through it element by element, each
byte of an element bits of `Im ++ Re`. -/
theorem bankLayoutPlacesElementsForTheHostOnly : Obligations.BankLayoutPlacesElementsForTheHostOnly := by
  refine ⟨fun i s t l h => exec_withLayout l h, fun p base b r c hb hp => ?_,
    fun s b r c a j x hs hb hr hc ha hx hj => ?_, fun s image b r c a x hb hr hc ha hx => ?_⟩
  · simp [layoutAddr, hp, hb, elementBytes, side]
  · rw [hostRead_eq hs hb hr hc ha hj, elemAt_eq_some_iff.1 hx j hj, elementByte_eq x hj]
  · refine elemAt_loadImage hb hr hc ha (Memory.elemAt_of_lookup fun j hj => ?_)
    rw [hx j hj, elementByte_eq x hj]

end Sys2Proof
end

section
/-! PROOFS. The family Places without a value (10_state.md section 6, 70_reset_and_hazards.md section 1): in a state
that has more values an instruction that records no fault reads the same and writes the same (R29, R340). -/

namespace Sys2Proof.Machine

/-! ### What can be read in a state can be read, the same, where more values are filled in -/

theorem exists_of_readPlace_eq_ok {p : Place} {o : Option Cplx} {c : Cplx} (h : readPlace p o = .ok c) :
    o = some c := by
  cases o with
  | none => cases h
  | some x => cases h; rfl

/-- Where one branch of a choice answers a value, more values in the branches leave that answer. -/
theorem ite_eq_some_mono {α : Type} {p : Prop} [Decidable p] {a a' b b' : Option α} {c : α}
    (ha : p → a = some c → a' = some c) (hb : ¬p → b = some c → b' = some c)
    (h : (if p then a else b) = some c) : (if p then a' else b') = some c := by
  by_cases hp : p
  · rw [if_pos hp] at h ⊢; exact ha hp h
  · rw [if_neg hp] at h ⊢; exact hb hp h

section Reads

variable {s s' : State} (h : FillsIn s s')
include h

theorem FillsIn.readS {r : SReg} {c : Cplx} (hr : readS s r = .ok c) : readS s' r = .ok c := by
  rw [Machine.readS, h.scalars r c (exists_of_readPlace_eq_ok hr), readPlace_some]

theorem FillsIn.laneValued {r : VReg} {k : Nat} (hk : laneValued s r k = true) :
    laneValued s' r k = true ∧ laneVal s' r k = laneVal s r k := by
  have e := h.lanes r k _ (laneAt_of_readable hk)
  exact ⟨laneValued_of_laneAt e, laneVal_of_laneAt e⟩

/-- A vector that can be read can be read there, with the same lanes. -/
theorem FillsIn.readLanes {r : VReg} {n : Nat} {f : Nat → Cplx} (hr : readLanes s r n = .ok f) :
    ∃ f', readLanes s' r n = .ok f' ∧ ∀ k, k < n → f' k = f k := by
  obtain ⟨hl, e⟩ | ⟨k, -, -, -, e⟩ := readLanes_cases s r n <;> rw [e] at hr <;> cases hr
  exact ⟨_, readLanes_ok fun k hk => (h.laneValued (hl k hk)).1, fun k hk => (h.laneValued (hl k hk)).2⟩

theorem FillsIn.readSource {q : Source} {v : Operand} (hq : readSource s q = .ok v) : readSource s' q = .ok v := by
  cases q with
  | scalar r =>
    obtain ⟨c, hc, e⟩ := bind_eq_ok hq
    rw [Machine.readSource, h.readS hc]
    exact e
  | vector r =>
    obtain ⟨f, hf, e⟩ := bind_eq_ok hq
    obtain ⟨f', hf', hk⟩ := h.readLanes hf
    have hsame : lanesBelow s.params.vlen f' = lanesBelow s.params.vlen f := by
      funext k
      unfold lanesBelow
      split
      case isTrue hlt => exact hk k hlt
      case isFalse => rfl
    rw [Machine.readSource, readV, h.params, hf', ok_bind, hsame]
    exact e

theorem FillsIn.readSources {qs : List Source} {vs : List Operand} (hq : readSources s qs = .ok vs) :
    readSources s' qs = .ok vs := by
  induction qs generalizing vs with
  | nil => exact hq
  | cons q qs ih =>
    obtain ⟨v, hv, hq⟩ := bind_eq_ok hq
    obtain ⟨us, hus, e⟩ := bind_eq_ok hq
    rw [Machine.readSources, h.readSource hv, ok_bind, ih hus]
    exact e

theorem FillsIn.elemAt {b r c : Nat} {x : Cplx} (he : elemAt s b r c = some x) : elemAt s' b r c = some x := by
  rw [elemAt_eq_some_iff] at he ⊢
  rw [h.params]
  exact fun j hj => h.bytes _ _ (he j hj)

theorem FillsIn.elemReadable {b r c : Nat} (he : ElemReadable s b r c) :
    ElemReadable s' b r c ∧ elemVal s' b r c = elemVal s b r c := by
  have e := h.elemAt (elemAt_of_readable he)
  exact ⟨elemReadable_of_elemAt e, elemVal_of_elemAt e⟩

/-! ### The same write leaves more values filled in -/

theorem FillsIn.nextPc : FillsIn (nextPc s) (nextPc s') :=
  { h with pc := congrArg (· + 1) h.pc }

theorem FillsIn.jumpBy (off : Int) : FillsIn (jumpBy off s) (jumpBy off s') :=
  { h with pc := congrArg (· + off) h.pc }

theorem FillsIn.writeS (d : SReg) (x : Cplx) : FillsIn (writeS s d x) (writeS s' d x) :=
  { h with
    scalars := fun r c hc => by
      rw [sAt_writeS] at hc ⊢
      exact ite_eq_some_mono (fun _ e => e) (fun _ => h.scalars r c) hc }

theorem FillsIn.setLanes (d : VReg) {f f' : Nat → Reg} (hf : ∀ k c, f k = some c → f' k = some c) :
    FillsIn (setLanes s d f) (setLanes s' d f') :=
  { h with
    lanes := fun r k c hc => by
      by_cases hr : r = d
      · subst hr
        by_cases hk : k < s.params.vlen
        · rw [laneAt_setLanes hk] at hc
          rw [laneAt_setLanes (by rwa [h.params])]
          exact ite_eq_some_mono (fun _ e => e) (fun _ => hf k c) hc
        · by_cases h0 : r = 0
          · subst h0; exact hc
          · rw [laneAt_setLanes_of_le h0 (by omega)] at hc; cases hc
      · rw [sameVector_setLanes hr k] at hc ⊢
        exact h.lanes r k c hc }

theorem FillsIn.writeV (d : VReg) (f : Nat → Cplx) : FillsIn (writeV s d f) (writeV s' d f) :=
  h.setLanes d fun _ _ hc => hc

theorem FillsIn.writeLane (d : VReg) (i : Nat) (x : Cplx) : FillsIn (writeLane s d i x) (writeLane s' d i x) :=
  h.setLanes d fun k c => ite_eq_some_mono (fun _ e => e) fun _ => h.lanes d k c

theorem FillsIn.writePrefix (d : VReg) {n : Nat} {f f' : Nat → Cplx} (hf : ∀ k, k < n → f' k = f k) :
    FillsIn (writePrefix s d n f) (writePrefix s' d n f') :=
  h.setLanes d fun k _ => ite_eq_some_mono (fun hk e => by rwa [hf k hk]) fun _ e => e

theorem FillsIn.apply (w : Write) : FillsIn (w.apply s) (w.apply s') := by
  cases w with
  | scalar d c => exact (h.writeS d c).nextPc
  | vector d f => exact (h.writeV d f).nextPc
  | lane d i c => exact (h.writeLane d i c).nextPc
  | jump off => exact h.jumpBy off

theorem FillsIn.setElem (b r c : Nat) (x : Cplx) : FillsIn (setElem s b r c x) (setElem s' b r c x) where
  params := by simpa using h.params
  prog := by simpa using h.prog
  pc := by simpa using h.pc
  fault := by simpa using h.fault
  scalars r' y hy := by
    rw [sameScalar_of_sregs (setElem_sregs ..)] at hy ⊢
    exact h.scalars r' y hy
  lanes r' k y hy := by
    rw [sameVector_of_vregs (setElem_vregs ..)] at hy ⊢
    exact h.lanes r' k y hy
  bytes a y hy := by
    rw [lookup_setElem] at hy ⊢
    rw [h.params]
    exact ite_eq_some_mono (fun _ e => e) (fun _ => h.bytes a y) hy

theorem FillsIn.setElems (b : Nat) (e : Nat → Nat × Nat) {t t' : Nat → Cplx} {n : Nat}
    (ht : ∀ k, k < n → t' k = t k) : FillsIn (setElems s b e t n) (setElems s' b e t' n) := by
  induction n with
  | zero => exact h
  | succ n ih =>
    rw [Machine.setElems, Machine.setElems, ht n (by omega)]
    exact (ih fun k hk => ht k (by omega)).setElem ..

end Reads

/-! ### An instruction that records no fault -/

/-- An instruction that records no fault has got through its reads and checks. -/
theorem eq_ok_of_commit {s t : State} {r : Res State} (h : commit s r = .next t) (ht : t.fault = none) : r = .ok t := by
  obtain h | ⟨c, -, rfl⟩ := commit_eq_next h
  · exact h
  · cases ht

theorem bankOf_eq_ok {i : Instr} {m : BitVec 3} {b : Nat} (h : bankOf i m = .ok b) :
    bankOk m = true ∧ b = m.toNat := by
  cases hm : bankOk m with
  | false => rw [bankOf_error hm] at h; cases h
  | true => rw [bankOf_ok hm] at h; cases h; exact ⟨rfl, rfl⟩

theorem checkAccess_eq_ok {p : Params} {b n : Nat} {rc : Dir} {x l : BitVec 16}
    (h : checkAccess p b rc x l = .ok n) :
    accessLen p l ≤ p.vlen ∧ x.toNat < side p ∧ n = accessLen p l := by
  obtain ⟨hl, hx, e⟩ | ⟨-, e⟩ | ⟨-, -, r, c, e⟩ := checkAccess_cases p b rc x l <;> rw [e] at h <;> cases h
  exact ⟨hl, hx, rfl⟩

section Completes

variable {s s' t : State} (h : FillsIn s s') (ht : t.fault = none)
include h ht

theorem RegisterForm.exec_fillsIn {i : Instr} {check : Params → Res Unit} {F : Params → List Operand → Write}
    (hf : RegisterForm i check F) (hi : exec i s = .next t) : ∃ t', exec i s' = .next t' ∧ FillsIn t t' := by
  rw [hf.exec_eq] at hi
  obtain ⟨u, hc, hi⟩ := bind_eq_ok (eq_ok_of_commit hi ht)
  obtain ⟨vs, hvs, hi⟩ := bind_eq_ok hi
  cases hi
  refine ⟨(F s.params vs).apply s', ?_, h.apply _⟩
  rw [hf.exec_eq, h.params, hc, ok_bind, h.readSources hvs, ok_bind, commit_ok]

theorem sldXy_fillsIn {rd : SReg} {m : BitVec 3} {x y : BitVec 16} (hi : exec (.sldXy rd m x y) s = .next t) :
    ∃ t', exec (.sldXy rd m x y) s' = .next t' ∧ FillsIn t t' := by
  obtain ⟨b, hb, hi⟩ := bind_eq_ok (eq_ok_of_commit hi ht)
  obtain ⟨c, hc, hi⟩ := bind_eq_ok hi
  cases hi
  obtain ⟨hm, rfl⟩ := bankOf_eq_ok hb
  obtain ⟨hin, hr, e⟩ | ⟨-, e⟩ | ⟨-, -, e⟩ := memRead_cases s m.toNat y.toNat x.toNat <;> rw [e] at hc <;> cases hc
  obtain ⟨hr', hv⟩ := h.elemReadable hr
  exact ⟨_, sldXy_ok hm (by rwa [h.params]) hr', by rw [hv]; exact (h.writeS _ _).nextPc⟩

theorem sstXy_fillsIn {rs : SReg} {m : BitVec 3} {x y : BitVec 16} (hi : exec (.sstXy rs m x y) s = .next t) :
    ∃ t', exec (.sstXy rs m x y) s' = .next t' ∧ FillsIn t t' := by
  rw [exec_sstXy_eq] at hi
  obtain ⟨b, hb, hi⟩ := bind_eq_ok (eq_ok_of_commit hi ht)
  split at hi
  case isFalse => cases hi
  case isTrue hin =>
    obtain ⟨c, hc, hi⟩ := bind_eq_ok hi
    cases hi
    refine ⟨_, ?_, (h.setElem b y.toNat x.toNat c).nextPc⟩
    simp [exec_sstXy_eq, hb, h.params, hin, h.readS hc]

theorem vld_fillsIn {rd : VReg} {m : BitVec 3} {rc : Dir} {x l : BitVec 16}
    (hi : exec (.vld rd m rc x l) s = .next t) : ∃ t', exec (.vld rd m rc x l) s' = .next t' ∧ FillsIn t t' := by
  obtain ⟨b, hb, hi⟩ := bind_eq_ok (eq_ok_of_commit hi ht)
  obtain ⟨n, hn, hi⟩ := bind_eq_ok hi
  obtain ⟨f, hf, hi⟩ := bind_eq_ok hi
  cases hi
  obtain ⟨hm, rfl⟩ := bankOf_eq_ok hb
  obtain ⟨hl, hx, rfl⟩ := checkAccess_eq_ok hn
  obtain ⟨hr, e⟩ | ⟨k, -, e | ⟨-, -, e⟩⟩ := memReadSeq_cases s m.toNat (accessElem rc x) (accessLen s.params l) <;>
    rw [e] at hf <;> cases hf
  have hload := vld_ok (r := rd) (rc := rc) (s := s') (l := l) (x := x) hm
  rw [h.params] at hload
  exact ⟨_, hload hl hx fun k hk => (h.elemReadable (hr k hk)).1,
    (h.writePrefix rd fun k hk => (h.elemReadable (hr k hk)).2).nextPc⟩

theorem vst_fillsIn {rs : VReg} {m : BitVec 3} {rc : Dir} {x l : BitVec 16}
    (hi : exec (.vst rs m rc x l) s = .next t) : ∃ t', exec (.vst rs m rc x l) s' = .next t' ∧ FillsIn t t' := by
  rw [exec_vst_eq] at hi
  obtain ⟨b, hb, hi⟩ := bind_eq_ok (eq_ok_of_commit hi ht)
  obtain ⟨n, hn, hi⟩ := bind_eq_ok hi
  obtain ⟨f, hf, hi⟩ := bind_eq_ok hi
  cases hi
  obtain ⟨f', hf', hk⟩ := h.readLanes hf
  refine ⟨_, ?_, (h.setElems b (accessElem rc x) hk).nextPc⟩
  simp [exec_vst_eq, hb, h.params, hn, hf']

end Completes

end Sys2Proof.Machine

namespace Sys2Proof

open Machine

/-- Settles O13: what was read can be read, with the same value, so the same is written. -/
theorem fillingInValuesChangesNothing : Obligations.FillingInValuesChangesNothing := by
  intro i s s' t h _ hi ht
  cases hb : reachesBanks i with
  | false =>
    obtain ⟨check, F, hf⟩ := exists_registerForm hb
    exact hf.exec_fillsIn h ht hi
  | true =>
    cases i with
    | vld => exact vld_fillsIn h ht hi
    | vst => exact vst_fillsIn h ht hi
    | sldXy => exact sldXy_fillsIn h ht hi
    | sstXy => exact sstXy_fillsIn h ht hi
    | _ => cases hb

end Sys2Proof
end

section
/-! PROOFS. The family Results: what the remaining arithmetic instructions of 41 to 46 leave in their destination, over
the raw halves; and what the start states hold (R340). -/

namespace Sys2Proof.Machine

/-! ### The parameters' choices (R128, R131, R134, R135) -/

theorem csqrtFn_eq (p : Params) (a : Cplx) :
    csqrtFn p a = if p.csqrtFn = .reference then csqrtRef a else Config.ownCsqrt a := by
  unfold csqrtFn
  split <;> simp [*]

theorem isqrtFn_eq (p : Params) (n : Nat) :
    isqrtFn p n = (if p.isqrtFn = .reference then isqrtRef else Config.ownIsqrt) n := by
  unfold isqrtFn
  split <;> simp [*]

theorem magRoot_eq (p : Params) (a : Cplx) :
    magRoot p a =
      (if p.isqrtFn = .reference then isqrtRef else Config.ownIsqrt) (a.re.toInt ^ 2 + a.im.toInt ^ 2).toNat := by
  rw [magRoot, isqrtFn_eq, mag2_eq_sq_add_sq]

/-- An integer in the signed range is kept by the wrap (R122). -/
theorem toInt_wrap64_of_range {z : Int} (h1 : -2 ^ 63 ≤ z) (h2 : z ≤ 2 ^ 63 - 1) : (wrap64 z).toInt = z := by
  rw [wrap64, BitVec.toInt_ofInt]
  exact Int.bmod_eq_of_le (by norm_num at *; omega) (by norm_num at *; omega)

/-- Where a half can hold the integer, it is written as that raw half (R131). -/
theorem intHalf_toInt {e : IntEnc} {n : Int} (h1 : -2 ^ 63 ≤ intRaw e n) (h2 : intRaw e n ≤ 2 ^ 63 - 1) :
    (intHalf e n).toInt = intRaw e n := by
  rw [intHalf, if_pos ⟨h1, h2⟩, toInt_wrap64_of_range h1 h2]

/-- The half written for 1 (R166 to R168). -/
theorem intHalf_one (e : IntEnc) : intHalf e 1 = if e = .value then 0x100000000#64 else 1#64 := by
  cases e <;> rfl

theorem truth_eq (p : Params) (b : Bool) :
    truth p b = if b = true then ⟨if p.intEnc = .value then 0x100000000#64 else 1#64, 0#64⟩ else Cplx.zero := by
  rw [truth, intResult, intHalf_one]

/-! ### The functions over the raw halves -/

theorem cabs2_eq_wrap64 (a : Cplx) : cabs2 a = ⟨wrap64 ((a.re.toInt ^ 2 + a.im.toInt ^ 2) / 2 ^ 32), 0#64⟩ := by
  rw [cabs2, mag2_eq_sq_add_sq]; rfl

theorem cabs_eq_wrap64 (p : Params) (a : Cplx) :
    cabs p a =
      ⟨wrap64 ((if p.isqrtFn = .reference then isqrtRef else Config.ownIsqrt)
        (a.re.toInt ^ 2 + a.im.toInt ^ 2).toNat), 0#64⟩ := by
  rw [cabs, trunc_one, magRoot_eq]

/-- An integer added before the floor may be added after it (R184, corner case). -/
theorem trunc_add_mul (d z : Int) : trunc (d * 2 ^ 32 + z) (2 ^ 32) = wrap64 (d + z / 2 ^ 32) := by
  rw [trunc, floorDiv, Int.add_comm, Int.add_mul_ediv_right _ _ (by norm_num), Int.add_comm]

theorem cmac_eq_wrap64 (d a b : Cplx) :
    cmac d a b =
      ⟨wrap64 (d.re.toInt + (a.re.toInt * b.re.toInt - a.im.toInt * b.im.toInt) / 2 ^ 32),
        wrap64 (d.im.toInt + (a.re.toInt * b.im.toInt + a.im.toInt * b.re.toInt) / 2 ^ 32)⟩ := by
  simp only [cmac, Exact.trunc, trunc_add_mul, xmul]

theorem cscaleSat_eq_sat64 (a : Cplx) (c : Half) :
    cscaleSat a c = ⟨sat64 (a.re.toInt * c.toInt / 2 ^ 32), sat64 (a.im.toInt * c.toInt / 2 ^ 32)⟩ := rfl

/-! ### The reductions as finite sums (R136) -/

theorem dotcResult_eq_sum (p : Params) (a b : Nat → Cplx) :
    dotcResult p a b =
      ⟨wrap64 ((∑ k ∈ Finset.range p.vlen, ((a k).re.toInt * (b k).re.toInt + (a k).im.toInt * (b k).im.toInt))
          / 2 ^ 32),
        wrap64 ((∑ k ∈ Finset.range p.vlen, ((a k).re.toInt * (b k).im.toInt - (a k).im.toInt * (b k).re.toInt))
          / 2 ^ 32)⟩ := by
  simp only [dotcResult, Exact.trunc, xsum, sumTo_eq_sum, xmulc, trunc, floorDiv]

theorem dotuResult_eq_sum (p : Params) (a b : Nat → Cplx) :
    dotuResult p a b =
      ⟨wrap64 ((∑ k ∈ Finset.range p.vlen, ((a k).re.toInt * (b k).re.toInt - (a k).im.toInt * (b k).im.toInt))
          / 2 ^ 32),
        wrap64 ((∑ k ∈ Finset.range p.vlen, ((a k).re.toInt * (b k).im.toInt + (a k).im.toInt * (b k).re.toInt))
          / 2 ^ 32)⟩ := by
  simp only [dotuResult, Exact.trunc, xsum, sumTo_eq_sum, xmul, trunc, floorDiv]

theorem sumResult_eq_sum (p : Params) (a : Nat → Cplx) :
    sumResult p a =
      ⟨wrap64 (∑ k ∈ Finset.range p.vlen, (a k).re.toInt), wrap64 (∑ k ∈ Finset.range p.vlen, (a k).im.toInt)⟩ := by
  simp only [sumResult, Exact.trunc, xsum, sumTo_eq_sum, exact, trunc_one]

theorem asumResult_eq_sum (p : Params) (a : Nat → Cplx) :
    asumResult p a =
      ⟨wrap64 (∑ k ∈ Finset.range p.vlen, ((if p.isqrtFn = .reference then isqrtRef else Config.ownIsqrt)
        ((a k).re.toInt ^ 2 + (a k).im.toInt ^ 2).toNat : Int)), 0#64⟩ := by
  simp only [asumResult, sumTo_eq_sum, trunc_one, magRoot_eq]

/-! ### Instructions of the other shapes complete -/

section Completes

variable {i : Instr} {s : State}

theorem completesVector_of_laneUnary {f : Params → Cplx → Cplx} {rd rs1 : VReg}
    (h : exec i s = laneUnary f rd rs1 s) (h1 : VReadable s rs1) :
    CompletesVector i s rd fun k => f s.params (laneVal s rs1 k) :=
  completesVector_of (h.trans (laneUnary_ok h1))

theorem completesVector_of_laneTernary {f : Cplx → Cplx → Cplx → Cplx} {rd rs1 rs2 : VReg}
    (h : exec i s = laneTernary f rd rs1 rs2 s) (h1 : VReadable s rs1) (h2 : VReadable s rs2) (hd : VReadable s rd) :
    CompletesVector i s rd fun k => f (laneVal s rd k) (laneVal s rs1 k) (laneVal s rs2 k) :=
  completesVector_of (h.trans (laneTernary_ok h1 h2 hd))

theorem completesScalar_of_reduceUnary {f : Params → (Nat → Cplx) → Cplx} {rd : SReg} {rs1 : VReg}
    (h : exec i s = reduceUnary f rd rs1 s) (h1 : VReadable s rs1) :
    CompletesScalar i s rd (f s.params (laneVal s rs1)) :=
  completesScalar_of (h.trans (reduceUnary_ok h1))

theorem completesScalar_of_reduceBinary {f : Params → (Nat → Cplx) → (Nat → Cplx) → Cplx} {rd : SReg}
    {rs1 rs2 : VReg} (h : exec i s = reduceBinary f rd rs1 rs2 s) (h1 : VReadable s rs1) (h2 : VReadable s rs2) :
    CompletesScalar i s rd (f s.params (laneVal s rs1) (laneVal s rs2)) :=
  completesScalar_of (h.trans (reduceBinary_ok h1 h2))

end Completes

/-! ### The shape of each instruction -/

section Exec

variable (s : State)

theorem exec_conj (rd rs1 : SReg) : exec (.conj rd rs1) s = scalarUnary (fun _ => conj) rd rs1 s := rfl

theorem exec_csqrt (rd rs1 : SReg) : exec (.csqrt rd rs1) s = scalarUnary csqrtFn rd rs1 s := rfl

theorem exec_cabs2 (rd rs1 : SReg) : exec (.cabs2 rd rs1) s = scalarUnary (fun _ => cabs2) rd rs1 s := rfl

theorem exec_cabs (rd rs1 : SReg) : exec (.cabs rd rs1) s = scalarUnary cabs rd rs1 s := rfl

theorem exec_crecip (rd rs1 : SReg) :
    exec (.crecip rd rs1) s = scalarUnary (fun p a => cdivFn p cone a) rd rs1 s := rfl

theorem exec_cdiv (rd rs1 rs2 : SReg) : exec (.cdiv rd rs1 rs2) s = scalarBinary cdivFn rd rs1 rs2 s := rfl

theorem exec_cmpltRe (rd rs1 rs2 : SReg) : exec (.cmpltRe rd rs1 rs2) s = scalarBinary cmplt rd rs1 rs2 s := rfl

theorem exec_cmpgtRe (rd rs1 rs2 : SReg) : exec (.cmpgtRe rd rs1 rs2) s = scalarBinary cmpgt rd rs1 rs2 s := rfl

theorem exec_cmpleRe (rd rs1 rs2 : SReg) : exec (.cmpleRe rd rs1 rs2) s = scalarBinary cmple rd rs1 rs2 s := rfl

theorem exec_vconj (rd rs1 : VReg) : exec (.vconj rd rs1) s = laneUnary (fun _ => conj) rd rs1 s := rfl

theorem exec_vmul (rd rs1 rs2 : VReg) : exec (.vmul rd rs1 rs2) s = laneBinary (fun _ => cmul) rd rs1 rs2 s := rfl

theorem exec_vmac (rd rs1 rs2 : VReg) : exec (.vmac rd rs1 rs2) s = laneTernary cmac rd rs1 rs2 s := rfl

theorem exec_vdiv (rd rs1 rs2 : VReg) : exec (.vdiv rd rs1 rs2) s = laneBinary cdivFn rd rs1 rs2 s := rfl

theorem exec_vsdiv (rd rs1 : VReg) (rs2 : SReg) :
    exec (.vsdiv rd rs1 rs2) s = broadcast cdivFn rd rs1 rs2 s := rfl

theorem exec_dotc (rd : SReg) (rs1 rs2 : VReg) :
    exec (.dotc rd rs1 rs2) s = reduceBinary dotcResult rd rs1 rs2 s := rfl

theorem exec_dotu (rd : SReg) (rs1 rs2 : VReg) :
    exec (.dotu rd rs1 rs2) s = reduceBinary dotuResult rd rs1 rs2 s := rfl

theorem exec_iamax (rd : SReg) (rs1 : VReg) : exec (.iamax rd rs1) s = reduceUnary iamaxResult rd rs1 s := rfl

theorem exec_sum (rd : SReg) (rs1 : VReg) : exec (.sum rd rs1) s = reduceUnary sumResult rd rs1 s := rfl

theorem exec_asum (rd : SReg) (rs1 : VReg) : exec (.asum rd rs1) s = reduceUnary asumResult rd rs1 s := rfl

theorem exec_cdivI (rd rs1 : SReg) (re45 im45 : BitVec 45) :
    exec (.cdivI rd rs1 re45 im45) s = scalarImm cdivFn rd rs1 (imm re45 im45) s := rfl

theorem exec_cscaleI (rd rs1 : SReg) (re45 : BitVec 45) :
    exec (.cscaleI rd rs1 re45) s = scalarUnary (fun _ a => cscaleSat a (immHalf re45)) rd rs1 s := rfl

end Exec

/-! ### `vsload` and `jrel` (R226, R261) -/

section Vsload

variable {s : State} {rd : VReg} {rs2 : SReg} {idx : BitVec 16}

theorem vsload_ok (hi : idx.toNat < s.params.vlen) (h : SReadable s rs2) :
    exec (.vsload rd rs2 idx) s = .next (nextPc (writeLane s rd idx.toNat (sVal s rs2))) := by
  simp [exec, execVsload, not_le.2 hi, readS_ok h]

theorem vsload_noLane (hi : s.params.vlen ≤ idx.toNat) :
    TakesFault (.vsload rd rs2 idx) s (.laneIndexFault idx.toNat) := by
  simp [TakesFault, exec, execVsload, hi]

theorem vsload_empty (hi : idx.toNat < s.params.vlen) (h : sValued s rs2 = false) :
    TakesFault (.vsload rd rs2 idx) s (.uninitializedRead (.scalar rs2)) := by
  simp [TakesFault, exec, execVsload, not_le.2 hi, readS_error h]

end Vsload

/-- One lane gets the value (R226). -/
theorem laneAt_writeLane {s : State} {rd : VReg} {i : Nat} {c : Cplx} (hi : i < s.params.vlen) :
    laneAt (writeLane s rd i c) rd i = some (if rd = 0 then Cplx.zero else c) := by
  rw [writeLane, laneAt_setLanes hi, if_pos rfl]
  split <;> rfl

/-- The other lanes keep what they had (R30). -/
theorem laneAt_writeLane_of_ne {s : State} {rd : VReg} {i k : Nat} {c : Cplx} (hk : k < s.params.vlen) (h : k ≠ i) :
    laneAt (writeLane s rd i c) rd k = laneAt s rd k := by
  rw [writeLane, laneAt_setLanes hk, if_neg h]
  split
  case isTrue h0 => rw [h0, laneAt_zero]
  case isFalse => rfl

theorem predicateHolds_iff (a : Cplx) : predicateHolds a = true ↔ a.re ≠ 0#64 ∨ a.im ≠ 0#64 := by
  simp [predicateHolds]

theorem jrel_ok {s : State} {off : BitVec 33} (h : SReadable s 1) :
    exec (.jrel off) s = .next (if predicateHolds (sVal s 1) then jumpBy off.toInt s else nextPc s) := by
  simp [exec, execJrel, readS_ok h]

end Sys2Proof.Machine

namespace Sys2Proof

open Machine

/-- Settles O39: one floor of the fused sum is the old lane plus the floor of the product. -/
theorem vmacResult : Obligations.VmacResult := by
  intro s rd rs1 rs2 h1 h2 hd
  simp only [← cmac_eq_wrap64]
  exact completesVector_of_laneTernary (exec_vmac ..) h1 h2 hd

/-- Settles O41: the sums over lanes are finite sums, narrowed over the denominator `2^32`. -/
theorem dotProductResults : Obligations.DotProductResults := by
  intro s rd rs1 rs2 h1 h2
  simp only [← dotcResult_eq_sum, ← dotuResult_eq_sum]
  exact ⟨completesScalar_of_reduceBinary (exec_dotc ..) h1 h2, completesScalar_of_reduceBinary (exec_dotu ..) h1 h2⟩

/-- Settles O42: with a lane at all, the index found is that of a greatest lane with none as great before it. -/
theorem iamaxResult : Obligations.IamaxResult := by
  intro s rd rs1 hv h
  obtain ⟨m, hm⟩ := Nat.exists_eq_add_of_le' hv
  obtain ⟨hlt, hmax, hleast⟩ := argmax_spec (fun k => mag2 (laneVal s rs1 k)) m
  rw [← hm] at hlt hmax hleast
  exact ⟨_, hlt, hmax, hleast, completesScalar_of_reduceUnary (exec_iamax ..) h⟩

/-- Settles O43: the sums over lanes are finite sums, and narrowing over the denominator 1 is the wrap. -/
theorem sumAsumResults : Obligations.SumAsumResults := by
  intro s rd rs1 h
  simp only [← sumResult_eq_sum, ← asumResult_eq_sum]
  exact ⟨completesScalar_of_reduceUnary (exec_sum ..) h, completesScalar_of_reduceUnary (exec_asum ..) h⟩

/-- Settles O45: the index is checked before the scalar is read; of the lanes only the indexed one is written. -/
theorem vsloadResult : Obligations.VsloadResult := fun _ _ _ _ =>
  ⟨fun hi h => ⟨_, vsload_ok hi h, rfl, laneAt_writeLane hi, fun _ => laneAt_writeLane_of_ne,
      fun _ hr => sameVector_setLanes hr, sameScalar_of_sregs rfl, fun _ => rfl, rfl, rfl, rfl⟩,
    vsload_noLane, vsload_empty⟩

/-- Settles O30: `conj` and `vconj` are of the unary shapes. -/
theorem conjugateResults : Obligations.ConjugateResults :=
  ⟨fun _ _ _ h => completesScalar_of_scalarUnary (exec_conj ..) h,
    fun _ _ _ h => completesVector_of_laneUnary (exec_vconj ..) h⟩

/-- Settles O31: the three are of the unary shape; the parameters choose the root. -/
theorem rootAndMagnitudeResults : Obligations.RootAndMagnitudeResults := by
  intro s rd rs1 h
  rw [← csqrtFn_eq, ← cabs2_eq_wrap64, ← cabs_eq_wrap64]
  exact ⟨completesScalar_of_scalarUnary (exec_csqrt ..) h, completesScalar_of_scalarUnary (exec_cabs2 ..) h,
    completesScalar_of_scalarUnary (exec_cabs ..) h⟩

/-- Settles O34: the three divide by one function; the dividend of `crecip` is the raw half `2^32`. -/
theorem scalarDivisionResults : Obligations.ScalarDivisionResults := fun _ _ _ h =>
  ⟨completesScalar_of_scalarUnary (exec_crecip ..) h, fun _ _ => completesScalar_of_scalarImm (exec_cdivI ..) h,
    fun _ h2 => completesScalar_of_scalarBinary (exec_cdiv ..) h h2⟩

/-- Settles O36: a compare writes the truth value of its comparison of the real halves. -/
theorem compareResults : Obligations.CompareResults := by
  intro s rd rs1 rs2 h1 h2
  have hlt := completesScalar_of_scalarBinary (exec_cmpltRe s rd rs1 rs2) h1 h2
  have hgt := completesScalar_of_scalarBinary (exec_cmpgtRe s rd rs1 rs2) h1 h2
  have hle := completesScalar_of_scalarBinary (exec_cmpleRe s rd rs1 rs2) h1 h2
  simp only [cmplt, cmpgt, cmple, truth_eq, decide_eq_true_eq] at hlt hgt hle
  exact ⟨hlt, hgt, hle⟩

/-- Settles O38: lane by lane the wrapping product of `cmul`. -/
theorem vmulResult : Obligations.VmulResult := by
  intro s rd rs1 rs2 h1 h2
  simp only [← cmul_eq_wrap64]
  exact completesVector_of_laneBinary (exec_vmul ..) h1 h2

/-- Settles O40: the lane-wise and the broadcast shape, with the division function. -/
theorem vectorDivisionResults : Obligations.VectorDivisionResults := fun _ _ _ h1 =>
  ⟨fun _ h2 => completesVector_of_laneBinary (exec_vdiv ..) h1 h2,
    fun _ h2 => completesVector_of_broadcast (exec_vsdiv ..) h1 h2⟩

/-- Settles O49: both halves times the exact immediate. -/
theorem cscaleIResult : Obligations.CscaleIResult := by
  intro s rd rs1 re45 h
  rw [← immHalf_toInt, ← cscaleSat_eq_sat64]
  exact completesScalar_of_scalarUnary (exec_cscaleI ..) h

/-- Settles O51: a jump, taken or not, changes the pc only. -/
theorem jrelResult : Obligations.JrelResult := by
  intro s off h
  rw [jrel_ok h]
  by_cases hp : predicateHolds (sVal s 1) = true
  · rw [if_pos hp, if_pos ((predicateHolds_iff _).1 hp)]; rfl
  · rw [if_neg hp, if_neg (mt (predicateHolds_iff _).2 hp)]; rfl

/-- Settles O27. -/
theorem integersAreWrittenAsIntEncSays : Obligations.IntegersAreWrittenAsIntEncSays := fun n =>
  ⟨intHalf_toInt (e := .value) (n := n), intHalf_toInt (e := .raw) (n := n)⟩

end Sys2Proof
end

section
/-! PROOFS. The family Numerics (40_numerics.md): narrowing (R122 to R124), division (R128), and the integer and complex
roots (R134, R135) as floors and ceilings of real square roots. -/

namespace Sys2Proof.Machine

/-! ### Narrowing (R122 to R124) -/

theorem toInt_wrap64 (z : Int) : (wrap64 z).toInt = Int.bmod z (2 ^ 64) := BitVec.toInt_ofInt z

theorem toInt_sat64 (z : Int) : (sat64 z).toInt = max (-2 ^ 63) (min (2 ^ 63 - 1) z) := by
  unfold sat64 rawMin rawMax
  split
  case isTrue h => rw [toInt_wrap64_of_range (by norm_num) (by norm_num)]; omega
  case isFalse h =>
    split
    case isTrue h' => rw [toInt_wrap64_of_range (by norm_num) (by norm_num)]; omega
    case isFalse h' => rw [toInt_wrap64_of_range (by omega) (by omega)]; omega

/-- Integer division by a positive denominator is the floor of the rational (R9). -/
theorem floorDiv_eq_floor {num den : Int} (h : 0 < den) : floorDiv num den = ⌊(num : ℚ) / (den : ℚ)⌋ := by
  lift den to ℕ using h.le
  exact (Rat.floor_intCast_div_natCast num den).symm

/-! ### Division (R128) -/

@[simp] theorem cdivFn_zero (p : Params) (a : Cplx) : cdivFn p a Cplx.zero = Cplx.zero := by
  unfold cdivFn
  split
  · exact if_pos rfl
  · exact if_pos rfl

theorem cdivFn_of_reference {p : Params} (h : p.cdivFn = .reference) (a b : Cplx) : cdivFn p a b = cdivRef a b := by
  simp [cdivFn, h]

theorem mag2_pos {a : Cplx} (h : a ≠ Cplx.zero) : 0 < mag2 a := by
  rw [mag2_eq_sq_add_sq]
  have hne : a.re.toInt ≠ 0 ∨ a.im.toInt ≠ 0 := by
    by_contra hc
    obtain ⟨hre, him⟩ : a.re.toInt = 0 ∧ a.im.toInt = 0 := by simpa using hc
    obtain ⟨re, im⟩ := a
    exact h (congrArg₂ Cplx.mk (BitVec.toInt_inj.1 hre) (BitVec.toInt_inj.1 him))
  obtain hre | him := hne <;> positivity

/-- A value by itself is 1: the exact quotient is `2^32`, and nothing is lost (R163). -/
theorem cdivRef_self {a : Cplx} (h : a ≠ Cplx.zero) : cdivRef a a = ⟨0x100000000#64, 0#64⟩ := by
  have hre : 2 ^ 32 * (a.re.toInt * a.re.toInt + a.im.toInt * a.im.toInt) = 2 ^ 32 * mag2 a := rfl
  have him : 2 ^ 32 * (a.im.toInt * a.re.toInt - a.re.toInt * a.im.toInt) = 0 := by ring
  rw [cdivRef, if_neg h, hre, him]
  simp only [Exact.trunc, trunc, floorDiv, Int.mul_ediv_cancel _ (mag2_pos h).ne', Int.zero_ediv]
  rfl

/-! ### The integer root (R135) -/

/-- Bit by bit: a root that is too small by less than `2^k` becomes one that is too small by less than 1. -/
theorem isqrtBits_spec {n k r : Nat} (h1 : r * r ≤ n) (h2 : n < (r + 2 ^ k) * (r + 2 ^ k)) :
    isqrtBits n k r * isqrtBits n k r ≤ n ∧ n < (isqrtBits n k r + 1) * (isqrtBits n k r + 1) := by
  induction k generalizing r with
  | zero => exact ⟨h1, h2⟩
  | succ k ih =>
    rw [isqrtBits]
    split
    case isTrue h => exact ih h (by rwa [Nat.add_assoc, ← Nat.two_mul, ← Nat.pow_succ'])
    case isFalse h => exact ih h1 (not_le.1 h)

/-- No operand has more bits than the root begins with. -/
theorem lt_two_pow_mul_self (n : Nat) : n < 2 ^ (n.log2 / 2 + 1) * 2 ^ (n.log2 / 2 + 1) := by
  rw [← Nat.pow_add]
  exact Nat.lt_log2_self.trans_le (Nat.pow_le_pow_right (by decide) (by omega))

theorem isqrtRef_eq_sqrt (n : Nat) : isqrtRef n = Nat.sqrt n := by
  obtain ⟨hle, hlt⟩ := isqrtBits_spec (Nat.zero_le n) (r := 0) (k := n.log2 / 2 + 1)
    (by rw [Nat.zero_add]; exact lt_two_pow_mul_self n)
  exact Nat.eq_sqrt.2 ⟨hle, hlt⟩

/-- The rounded-up root is the least whose square is not below its operand. -/
theorem isqrtCeil_le_iff {n k : Nat} : isqrtCeil n ≤ k ↔ n ≤ k * k := by
  rw [isqrtCeil, isqrtRef_eq_sqrt]
  split
  case isTrue h =>
    conv_rhs => rw [← h]
    exact Nat.mul_self_le_mul_self_iff.symm
  case isFalse h =>
    rw [Nat.succ_le_iff, Nat.sqrt_lt, le_iff_lt_or_eq, or_iff_left]
    rintro rfl
    exact h (by rw [Nat.sqrt_eq])

/-! ### Roots of real numbers (R134) -/

theorem floor_sqrt {x : ℝ} (hx : 0 ≤ x) : ⌊√x⌋ = (isqrtRef ⌊x⌋.toNat : Int) := by
  rw [isqrtRef_eq_sqrt, Int.floor_toNat, ← Int.natCast_floor_eq_floor (Real.sqrt_nonneg x), Nat.cast_inj]
  refine eq_of_forall_le_iff fun k => ?_
  rw [Nat.le_floor_iff (Real.sqrt_nonneg x), Real.le_sqrt (Nat.cast_nonneg k) hx, Nat.le_sqrt', Nat.le_floor_iff hx,
    Nat.cast_pow]

theorem ceil_sqrt (x : ℝ) : ⌈√x⌉ = (isqrtCeil ⌈x⌉.toNat : Int) := by
  rw [Int.ceil_toNat, ← Int.natCast_ceil_eq_ceil (Real.sqrt_nonneg x), Nat.cast_inj]
  refine eq_of_forall_ge_iff fun k => ?_
  rw [Nat.ceil_le, Real.sqrt_le_left (Nat.cast_nonneg k), isqrtCeil_le_iff, Nat.ceil_le, sq, Nat.cast_mul]

/-! ### The complex root (R134) -/

/-- The modulus `m` of R134, over the raw halves. -/
noncomputable def modulus (a : Cplx) : ℝ := √((a.re.toInt : ℝ) ^ 2 + (a.im.toInt : ℝ) ^ 2)

/-- The exact square of the magnitude, under the root scaled by `2^31`. -/
theorem sqrt_scaled_mag2 (a : Cplx) : √((2 ^ 62 * mag2 a : Int) : ℝ) = 2 ^ 31 * modulus a := by
  have hscale : ((2 ^ 62 * mag2 a : Int) : ℝ) = (2 ^ 31) ^ 2 * ((a.re.toInt : ℝ) ^ 2 + (a.im.toInt : ℝ) ^ 2) := by
    rw [mag2_eq_sq_add_sq]; push_cast; norm_num
  rw [hscale, Real.sqrt_mul (by positivity), Real.sqrt_sq (by positivity), modulus]

theorem scaled_mag2_nonneg (a : Cplx) : 0 ≤ 2 ^ 62 * mag2 a := by
  rw [mag2_eq_sq_add_sq]; positivity

theorem isqrtRef_scaled_mag2 (a : Cplx) : (isqrtRef (2 ^ 62 * mag2 a).toNat : Int) = ⌊2 ^ 31 * modulus a⌋ := by
  rw [← sqrt_scaled_mag2, floor_sqrt (by exact_mod_cast scaled_mag2_nonneg a), Int.floor_intCast]

theorem isqrtCeil_scaled_mag2 (a : Cplx) : (isqrtCeil (2 ^ 62 * mag2 a).toNat : Int) = ⌈2 ^ 31 * modulus a⌉ := by
  rw [← sqrt_scaled_mag2, ceil_sqrt, Int.ceil_intCast]

theorem abs_re_le_modulus (a : Cplx) : |(a.re.toInt : ℝ)| ≤ modulus a :=
  Real.abs_le_sqrt (le_add_of_nonneg_right (sq_nonneg _))

theorem sq_toInt_le (h : Half) : (h.toInt : ℝ) ^ 2 ≤ (2 ^ 63) ^ 2 := by
  have hlo : (-2 ^ 63 : Int) ≤ h.toInt := h.le_toInt
  have hhi : h.toInt < (2 ^ 63 : Int) := h.toInt_lt
  have hsq : h.toInt ^ 2 ≤ (2 ^ 63 : Int) ^ 2 := sq_le_sq' hlo hhi.le
  exact_mod_cast hsq

theorem modulus_le (a : Cplx) : modulus a ≤ 2 ^ 64 := by
  refine (Real.sqrt_le_left (by positivity)).2 ?_
  have hre := sq_toInt_le a.re
  have him := sq_toInt_le a.im
  norm_num at *
  linarith

theorem scaled_cast (d : Int) : ((2 ^ 31 * d : Int) : ℝ) = 2 ^ 31 * (d : ℝ) := by norm_num

section Root

variable {m : ℝ} {d : Int} (hd : |(d : ℝ)| ≤ m)
include hd

theorem scaled_add_nonneg : 0 ≤ 2 ^ 31 * (m + d) := by
  have := (abs_le.1 hd).1
  exact mul_nonneg (by positivity) (by linarith)

/-- The floor of the root is the integer root of the floor (log 30). -/
theorem isqrtRef_floor_add : (isqrtRef (⌊2 ^ 31 * m⌋ + 2 ^ 31 * d).toNat : Int) = ⌊√(2 ^ 31 * (m + d))⌋ := by
  rw [floor_sqrt (scaled_add_nonneg hd), ← Int.floor_add_intCast, scaled_cast, mul_add]

omit hd in
/-- The ceiling of the root is the rounded-up root of the ceiling (log 30). -/
theorem isqrtCeil_ceil_add : (isqrtCeil (⌈2 ^ 31 * m⌉ + 2 ^ 31 * d).toNat : Int) = ⌈√(2 ^ 31 * (m + d))⌉ := by
  rw [ceil_sqrt, ← Int.ceil_add_intCast, scaled_cast, mul_add]

/-- The roots are far inside the range of a half. -/
theorem sqrt_scaled_add_le (hm : m ≤ 2 ^ 64) : √(2 ^ 31 * (m + d)) ≤ 2 ^ 62 := by
  have := (abs_le.1 hd).2
  exact (Real.sqrt_le_left (by positivity)).2 (by norm_num at *; linarith)

theorem toInt_wrap64_floor_sqrt (hm : m ≤ 2 ^ 64) :
    (wrap64 ⌊√(2 ^ 31 * (m + d))⌋).toInt = ⌊√(2 ^ 31 * (m + d))⌋ := by
  have hlo : 0 ≤ ⌊√(2 ^ 31 * (m + d))⌋ := Int.floor_nonneg.2 (Real.sqrt_nonneg _)
  have hhi : ⌊√(2 ^ 31 * (m + d))⌋ ≤ 2 ^ 62 :=
    Int.floor_le_iff.2 ((sqrt_scaled_add_le hd hm).trans_lt (by norm_num))
  exact toInt_wrap64_of_range (by omega) (by omega)

theorem toInt_wrap64_neg_ceil_sqrt (hm : m ≤ 2 ^ 64) :
    (wrap64 (-⌈√(2 ^ 31 * (m + d))⌉)).toInt = -⌈√(2 ^ 31 * (m + d))⌉ := by
  have hlo : 0 ≤ ⌈√(2 ^ 31 * (m + d))⌉ := Int.ceil_nonneg (Real.sqrt_nonneg _)
  have hhi : ⌈√(2 ^ 31 * (m + d))⌉ ≤ 2 ^ 62 := Int.ceil_le.2 (by exact_mod_cast sqrt_scaled_add_le hd hm)
  exact toInt_wrap64_of_range (by omega) (by omega)

end Root

theorem csqrtRef_re_toInt (a : Cplx) : (csqrtRef a).re.toInt = ⌊√(2 ^ 31 * (modulus a + a.re.toInt))⌋ := by
  rw [csqrtRef, isqrtRef_scaled_mag2, isqrtRef_floor_add (abs_re_le_modulus a),
    toInt_wrap64_floor_sqrt (abs_re_le_modulus a) (modulus_le a)]

theorem csqrtRef_im_toInt (a : Cplx) :
    (csqrtRef a).im.toInt =
      ⌊(if 0 ≤ a.im.toInt then 1 else -1) * √(2 ^ 31 * (modulus a - a.re.toInt))⌋ := by
  have hneg : modulus a - a.re.toInt = modulus a + ((-a.re.toInt : Int) : ℝ) := by push_cast; ring
  have hd : |((-a.re.toInt : Int) : ℝ)| ≤ modulus a := by simpa using abs_re_le_modulus a
  rw [csqrtRef, isqrtRef_scaled_mag2, isqrtCeil_scaled_mag2, hneg]
  simp only [Int.sub_eq_add_neg, ← Int.mul_neg]
  split
  case isTrue => rw [isqrtRef_floor_add hd, toInt_wrap64_floor_sqrt hd (modulus_le a), one_mul]
  case isFalse =>
    rw [isqrtCeil_ceil_add, toInt_wrap64_neg_ceil_sqrt hd (modulus_le a), neg_one_mul, Int.floor_neg]

end Sys2Proof.Machine

namespace Sys2Proof

open Machine

/-- Settles O23. -/
theorem narrowingLaws : Obligations.NarrowingLaws :=
  ⟨toInt_wrap64, toInt_sat64, fun _ _ h =>
    ⟨congrArg wrap64 (floorDiv_eq_floor h), congrArg sat64 (floorDiv_eq_floor h)⟩⟩

/-- Settles O24. -/
theorem divisionFunctionLaws : Obligations.DivisionFunctionLaws := by
  refine ⟨cdivFn_zero, fun p a b hp hb => ?_, fun _ => cdivRef_self⟩
  rw [cdivFn_of_reference hp, cdivRef, if_neg hb]
  rfl

/-- Settles O25: the reference root is the library's. -/
theorem integerRootIsTheGreatest : Obligations.IntegerRootIsTheGreatest := by
  intro n
  rw [isqrtRef_eq_sqrt]
  exact ⟨Nat.sqrt_le n, fun _ => Nat.le_sqrt.2⟩

/-- Settles O26: floors and ceilings go through the two roots, and the results are far inside the range of a half. -/
theorem complexRootIsTheFloorOfThePrincipalRoot : Obligations.ComplexRootIsTheFloorOfThePrincipalRoot :=
  fun a => ⟨csqrtRef_re_toInt a, csqrtRef_im_toInt a⟩

end Sys2Proof
end

section
/-! PROOFS. The family Start states (10_state.md section 8, 70_reset_and_hazards.md section 1): what the start state
with nothing supplied and the reset state hold (R340). -/

namespace Sys2Proof.Machine

/-- Where no byte is listed no element holds a value (R29). -/
theorem elemAt_of_mem_nil {s : State} (h : s.mem = []) (b r c : Nat) : elemAt s b r c = none := by
  refine Option.eq_none_iff_forall_ne_some.2 fun x hx => ?_
  have hbyte := elemAt_eq_some_iff.1 hx 0 (by decide)
  rw [h] at hbyte
  cases hbyte

theorem sAt_blank {p : Params} {prog : List Word} {entry : Int} {r : SReg} (h : r ≠ 0) :
    sAt (State.blank p prog entry) r = none := by
  simp [sAt, h, State.blank]

theorem laneAt_blank {p : Params} {prog : List Word} {entry : Int} {r : VReg} (h : r ≠ 0) (k : Nat) :
    laneAt (State.blank p prog entry) r k = none := by
  simp only [laneAt, if_neg h, State.blank, Fin.getElem_fin, Vector.getElem_replicate, List.getD_eq_getElem?_getD,
    List.getElem?_replicate]
  split <;> rfl

end Sys2Proof.Machine

namespace Sys2Proof

open Machine

/-- Settles O21: the blank state's registers replicate no value, the reset state's replicate zero, and neither lists a
byte. -/
theorem resetStateHoldsWhatTheSpecGives : Obligations.ResetStateHoldsWhatTheSpecGives :=
  ⟨fun _ _ _ => ⟨rfl, fun _ => rfl, fun _ => sAt_blank, fun _ k h => laneAt_blank h k, elemAt_of_mem_nil rfl,
      rfl, rfl, rfl, rfl⟩,
    by decide, by decide, elemAt_of_mem_nil rfl, rfl, rfl, rfl⟩

end Sys2Proof
end
